-- ==== Sys2Proof/Word.lean ====
section
/-! DEFINITION. The byte, the only word of SBCORE (00_scope.md R8, 20_memory.md R60). -/

namespace Sys2Proof

/-- A byte, bit 0 the least significant (R8). -/
abbrev Byte := BitVec 8

end Sys2Proof
end

