-- ==== Sys2Proof/Syntax.lean ====
section
/-! DEFINITION. The instruction set: the DCC command grammar of 30_encoding.md, one constructor for each
row of spec/opcode_table.json, and the level at which a form is decoded. -/

namespace Sys2Proof

/-- What decides how bytes are read (R80, R87, R94): the address level reads a whole payload; the instruction
level reads the bytes from the cursor on, and the one context it looks at is whether the target is All (R86). -/
inductive Level where
  | address
  | instruction (toAll : Bool)
deriving DecidableEq, Repr

/-- One form of the command grammar with its operands. A form that takes the whole payload (or the rest of it)
carries the bytes it takes, so that no bit of an encoding is dropped (log 18). Single bits are Bools, 1 = true. -/
inductive Instr where
  /-- ADDR_EMPTY: the payload of no bytes (R191). -/
  | addrEmpty
  /-- ADDR_BROADCAST: 0x00 (R88). -/
  | addrBroadcast
  /-- IDLE: the two bytes FF 00 and no other (R89). -/
  | idle
  /-- ADDR_IDLE_INVALID: 0xFF and any rest but exactly [0x00] (R89). -/
  | addrIdleInvalid (rest : List Byte)
  /-- ADDR_LONG: 11hhhhhh llllllll (R90). -/
  | addrLong (h : BitVec 6) (l : BitVec 8)
  /-- ADDR_ACCESSORY: 10xxxxxx and the rest of the payload (R91). -/
  | addrAccessory (x : BitVec 6) (rest : List Byte)
  /-- ADDR_SHORT: 0aaaaaaa (R92). -/
  | addrShort (a : BitVec 7)
  /-- ADDR_UNKNOWN: 11xxxxxx as the only byte of the payload (R93). -/
  | addrUnknown (x : BitVec 6)
  /-- SPEED128: 00111111 DSSSSSSS (R95). -/
  | speed128 (d : Bool) (s : BitVec 7)
  /-- SPEED28: 01DCSSSS (R96). -/
  | speed28 (d c : Bool) (s : BitVec 4)
  /-- FG1: 100 FL F4 F3 F2 F1 (R97). -/
  | fg1 (fl f4 f3 f2 f1 : Bool)
  /-- FG2_HI: 1011 F8 F7 F6 F5 (R98). -/
  | fg2Hi (f8 f7 f6 f5 : Bool)
  /-- FG2_LO: 1010 F12 F11 F10 F9 (R99). -/
  | fg2Lo (f12 f11 f10 f9 : Bool)
  /-- RESET_ALL: 0x00 under the target All (R100). -/
  | resetAll
  /-- UNKNOWN_INSTR: any byte no other form takes, and the rest of the payload (R102). -/
  | unknownInstr (b : Byte) (rest : List Byte)
deriving DecidableEq, Repr

/-- The forms that take every byte they are shown (length "whole payload" or "rest of payload" in the opcode
table, and IDLE and ADDR_UNKNOWN, whose conditions fix the payload's length). -/
def Instr.takesAll : Instr → Bool
  | .addrEmpty           => true
  | .addrBroadcast       => false
  | .idle                => true
  | .addrIdleInvalid _   => true
  | .addrLong _ _        => false
  | .addrAccessory _ _   => true
  | .addrShort _         => false
  | .addrUnknown _       => true
  | .speed128 _ _        => false
  | .speed28 _ _ _       => false
  | .fg1 _ _ _ _ _       => false
  | .fg2Hi _ _ _ _       => false
  | .fg2Lo _ _ _ _       => false
  | .resetAll            => false
  | .unknownInstr _ _    => true

/-- The forms of the address level (R87). -/
def Instr.isAddress : Instr → Bool
  | .addrEmpty           => true
  | .addrBroadcast       => true
  | .idle                => true
  | .addrIdleInvalid _   => true
  | .addrLong _ _        => true
  | .addrAccessory _ _   => true
  | .addrShort _         => true
  | .addrUnknown _       => true
  | .speed128 _ _        => false
  | .speed28 _ _ _       => false
  | .fg1 _ _ _ _ _       => false
  | .fg2Hi _ _ _ _       => false
  | .fg2Lo _ _ _ _       => false
  | .resetAll            => false
  | .unknownInstr _ _    => false

end Sys2Proof
end

