-- ==== Sys2Proof/WellFormed.lean ====
section
/-! DEFINITION. Which instruction terms stand for an encoding, level by level (30_encoding.md R87 to R102). -/

namespace Sys2Proof

/-- The byte `b`, followed by `rest`, is taken by one of SPEED128 to RESET_ALL (R94, the conditions of the
table's rows other than the last). -/
def knownInstrByte (toAll : Bool) (b : Byte) (rest : List Byte) : Bool :=
  (b == 0x3F#8 && !rest.isEmpty)
    || b &&& 0xC0#8 == 0x40#8
    || b &&& 0xE0#8 == 0x80#8
    || b &&& 0xF0#8 == 0xB0#8
    || b &&& 0xF0#8 == 0xA0#8
    || (toAll && b == 0x00#8)

/-- The instruction can be read at the level: it is a form of that level and meets its row's condition. -/
def WellFormed : Level → Instr → Bool
  | .address, .addrEmpty            => true
  | .address, .addrBroadcast        => true
  | .address, .idle                 => true
  | .address, .addrIdleInvalid rest => rest != [0x00#8]
  | .address, .addrLong h _         => h != 63#6
  | .address, .addrAccessory _ _    => true
  | .address, .addrShort a          => a != 0#7
  | .address, .addrUnknown x        => x != 63#6
  | .address, .speed128 _ _         => false
  | .address, .speed28 _ _ _        => false
  | .address, .fg1 _ _ _ _ _        => false
  | .address, .fg2Hi _ _ _ _        => false
  | .address, .fg2Lo _ _ _ _        => false
  | .address, .resetAll             => false
  | .address, .unknownInstr _ _     => false
  | .instruction _, .addrEmpty            => false
  | .instruction _, .addrBroadcast        => false
  | .instruction _, .idle                 => false
  | .instruction _, .addrIdleInvalid _    => false
  | .instruction _, .addrLong _ _         => false
  | .instruction _, .addrAccessory _ _    => false
  | .instruction _, .addrShort _          => false
  | .instruction _, .addrUnknown _        => false
  | .instruction _, .speed128 _ _         => true
  | .instruction _, .speed28 _ _ _        => true
  | .instruction _, .fg1 _ _ _ _ _        => true
  | .instruction _, .fg2Hi _ _ _ _        => true
  | .instruction _, .fg2Lo _ _ _ _        => true
  | .instruction toAll, .resetAll             => toAll
  | .instruction toAll, .unknownInstr b rest  => !knownInstrByte toAll b rest

end Sys2Proof
end

