-- ==== Sys2Proof/Decode.lean ====
section
/-! DEFINITION. From bytes to an instruction, total at both levels (30_encoding.md R87, R94), and after it the
encoder, written from the encodings R88 to R102 and R106. -/

namespace Sys2Proof

/-- Why the decoder gives no instruction. -/
inductive DecodeReject where
  /-- The instruction level was shown no byte: the loop of R200 has ended. -/
  | noByte
deriving DecidableEq, Repr

/-- `b[start+len-1:start]` (R8). -/
def Byte.slice (b : Byte) (start len : Nat) : BitVec len := b.extractLsb' start len

/-- `b[i]` (R8). -/
def Byte.bit (b : Byte) (i : Nat) : Bool := b.getLsbD i

/-- Address dispatch, the forms tried in the order of R87 and R192. -/
def decodeAddress : List Byte → Instr
  | [] => .addrEmpty
  | b0 :: rest =>
    if b0 = 0x00#8 then .addrBroadcast
    else if b0 = 0xFF#8 then
      if rest = [0x00#8] then .idle else .addrIdleInvalid rest
    else if b0.slice 6 2 = 0b11#2 then
      match rest with
      | l :: _ => .addrLong (b0.slice 0 6) l
      | []     => .addrUnknown (b0.slice 0 6)
    else if b0.slice 6 2 = 0b10#2 then .addrAccessory (b0.slice 0 6) rest
    else .addrShort (b0.slice 0 7)

/-- The instruction forms but SPEED128, tried in the order of R94 and R201. -/
def decodeInstrByte (toAll : Bool) (b : Byte) (rest : List Byte) : Instr :=
  if b.slice 5 3 = 0b010#3 ∨ b.slice 5 3 = 0b011#3 then
    .speed28 (b.bit 5) (b.bit 4) (b.slice 0 4)
  else if b.slice 5 3 = 0b100#3 then
    .fg1 (b.bit 4) (b.bit 3) (b.bit 2) (b.bit 1) (b.bit 0)
  else if b.slice 5 3 = 0b101#3 then
    if b.bit 4 then .fg2Hi (b.bit 3) (b.bit 2) (b.bit 1) (b.bit 0)
    else .fg2Lo (b.bit 3) (b.bit 2) (b.bit 1) (b.bit 0)
  else if toAll = true ∧ b = 0x00#8 then .resetAll
  else .unknownInstr b rest

/-- Instruction dispatch on the byte `b` under the cursor and the bytes after it (R94, R201): SPEED128 first,
which needs `op = 001`, the sub-instruction 11111 and a second byte. -/
def decodeInstruction (toAll : Bool) : List Byte → Except DecodeReject Instr
  | [] => .error .noByte
  | b :: rest =>
    if b.slice 5 3 = 0b001#3 ∧ b.slice 0 5 = 0b11111#5 then
      match rest with
      | d :: _ => .ok (.speed128 (d.bit 7) (d.slice 0 7))
      | []     => .ok (decodeInstrByte toAll b rest)
    else .ok (decodeInstrByte toAll b rest)

/-- The decoder, total on any bytes. -/
def decode : Level → List Byte → Except DecodeReject Instr
  | .address, bs           => .ok (decodeAddress bs)
  | .instruction toAll, bs => decodeInstruction toAll bs

/-- The bytes of an instruction, from the encodings of R88 to R102 (and, for `IDLE`, R101). -/
def encode : Instr → List Byte
  | .addrEmpty                  => []
  | .addrBroadcast              => [0x00#8]
  | .idle                       => [0xFF#8, 0x00#8]
  | .addrIdleInvalid rest       => 0xFF#8 :: rest
  | .addrLong h l               => [0b11#2 ++ h, l]
  | .addrAccessory x rest       => (0b10#2 ++ x) :: rest
  | .addrShort a                => [0b0#1 ++ a]
  | .addrUnknown x              => [0b11#2 ++ x]
  | .speed128 d s               => [0x3F#8, BitVec.ofBool d ++ s]
  | .speed28 d c s              => [0b01#2 ++ BitVec.ofBool d ++ BitVec.ofBool c ++ s]
  | .fg1 fl f4 f3 f2 f1         =>
      [0b100#3 ++ BitVec.ofBool fl ++ BitVec.ofBool f4 ++ BitVec.ofBool f3 ++ BitVec.ofBool f2 ++ BitVec.ofBool f1]
  | .fg2Hi f8 f7 f6 f5          =>
      [0b1011#4 ++ BitVec.ofBool f8 ++ BitVec.ofBool f7 ++ BitVec.ofBool f6 ++ BitVec.ofBool f5]
  | .fg2Lo f12 f11 f10 f9       =>
      [0b1010#4 ++ BitVec.ofBool f12 ++ BitVec.ofBool f11 ++ BitVec.ofBool f10 ++ BitVec.ofBool f9]
  | .resetAll                   => [0x00#8]
  | .unknownInstr b rest        => b :: rest

/-- The bytes of a table word of `nbits` bits, the first byte in the high half, as the table's match and mask
number them (R95). DEDUCED, log 9; no byte of zeros is added after them, because the number of bytes of a
payload is part of an encoding (DEDUCED, log 11). -/
def tableBytes (nbits w : Nat) : List Byte :=
  ((List.range (nbits / 8)).map fun i => BitVec.ofNat 8 (w / 256 ^ i)).reverse

/-- The level a table word is read at. The words of the two levels overlap and the word does not say which is
meant: DESIGN CHOICE (log 10), the instruction level (with the target All) wherever it has a form for the word,
else the address level. -/
def tableLevel (nbits w : Nat) : Level :=
  match decodeInstruction true (tableBytes nbits w) with
  | .error _                  => .address
  | .ok (.unknownInstr _ _)   => .address
  | .ok _                     => .instruction true

/-- The instruction the decoder reads from a word of the opcode table. -/
def decodeTableWord (nbits w : Nat) : Option Instr :=
  (decode (tableLevel nbits w) (tableBytes nbits w)).toOption

/-- The exclusive-or of bytes, 0 for none (R13 g, R84). -/
def xorBytes (bs : List Byte) : Byte := bs.foldl (· ^^^ ·) 0x00#8

/-- A packet is its payload and the checksum (R84; the `CK` of R106). -/
def packetOf (payload : List Byte) : List Byte := payload ++ [xorBytes payload]

/-- The payload of an address form followed by instructions (R85, R106). -/
def payloadOf (address : Instr) (instrs : List Instr) : List Byte :=
  encode address ++ instrs.flatMap encode

end Sys2Proof
end

