-- ==== Sys2Proof/Machine/Events.lean ====
section
/-! DEFINITION. The input and output events of a step (10_state.md R37, R50 to R55, 60_exceptions.md R230). -/

namespace Sys2Proof.Machine

/-- The polarity of a sample or a run: high is 1, low is 0 (R22). -/
inductive Polarity where
  | low
  | high
deriving DecidableEq, Repr

/-- One input event, and so one step (R55). A sample is any integer in the reference semantics (R6). -/
inductive InEvent where
  | sample (v : Int)
  | endOfInput
deriving DecidableEq, Repr

/-- A signal run (R11): maximal consecutive samples of one polarity. -/
structure Run where
  pol : Polarity
  dur : Nat
deriving DecidableEq, Repr

/-- A duration pair (R11): a high run and the low run that followed it. -/
structure Pair where
  high : Nat
  low  : Nat
deriving DecidableEq, Repr

/-- A bit, "tri-state, never a plain boolean" (R11). -/
inductive BitVal where
  | one
  | zero
  | unknown
deriving DecidableEq, Repr

/-- The target of a packet's instructions (R37). -/
inductive Target where
  | all
  | short (a : BitVec 7)
  | long  (a : BitVec 14)
deriving DecidableEq, Repr

/-- The direction of a speed command (R53). -/
inductive Direction where
  | fwd
  | rev
deriving DecidableEq, Repr

/-- The speed of a 128-step command; `step n` with n in 1 to 126 (R53). -/
inductive Speed128 where
  | stop
  | eStop
  | step (n : Nat)
deriving DecidableEq, Repr

/-- The speed of a 28-step command; `step n` with n in 1 to 28 (R53). -/
inductive Speed28 where
  | stop
  | stopI
  | eStop
  | eStopI
  | step (n : Nat)
deriving DecidableEq, Repr

/-- An exact number of microseconds `num / den`, unreduced, as R136 has it on a port: the integer `h * TB_NUM`
with the divisor `TB_DEN` (log 12). -/
structure Micros where
  num : Nat
  den : Nat
deriving DecidableEq, Repr

/-- Tap events (R51). -/
inductive Tap where
  | run (pol : Polarity) (dur : Nat)
  | pair (h l : Nat)
  | bit (b : BitVal)
  | packet (bytes : List Byte)
deriving DecidableEq, Repr

/-- Statistic events (R52). -/
inductive Statistic where
  | oneWidth (q : Micros)
  | zeroWidth (q : Micros)
  | preambleLen (n : Nat)
deriving DecidableEq, Repr

/-- Result events (R53). -/
inductive Result where
  | speed128 (tgt : Target) (dir : Direction) (s : Speed128)
  | speed28 (tgt : Target) (dir : Direction) (s : Speed28)
  | funcGroup1 (tgt : Target) (fl f1 f2 f3 f4 : Bool)
  /-- `base` is 5 or 9; `f i` is the state of function F(base + i). -/
  | funcGroup2 (tgt : Target) (base : Nat) (f0 f1 f2 f3 : Bool)
  | resetAll
  | idle
  | unknownPacket (payload : List Byte)
  | checksumError (packet : List Byte)
deriving DecidableEq, Repr

/-- The eight anomalies and the information each carries (R230). -/
inductive Anomaly where
  | timebaseCoarse (tbNum tbDen : Nat)
  | mismatchedPair (h l : Nat)
  | unknownBit (h l : Nat)
  | garbage
  | corruptPacket
  | partialAtEnd
  | checksumMismatch (computed received : Byte)
  | unknownLayout (payload : List Byte)
deriving DecidableEq, Repr

/-- An output event, one of the four classes of R50. -/
inductive OutEvent where
  | tap (t : Tap)
  | stat (s : Statistic)
  | result (r : Result)
  | diag (a : Anomaly)
deriving DecidableEq, Repr

end Sys2Proof.Machine
end

