-- ==== Sys2Proof/Machine/State.lean ====
section
/-! DEFINITION. The state of SBCORE: the registers of 10_state.md R20, the configuration register R40, the
interpreter's copy of the payload (R62, R190), and the two event queues of the model (log 1, log 2); why a
step can stop; the state after reset (70_reset_and_hazards.md R260). -/

namespace Sys2Proof.Machine

/-- The packet buffer (R60): cells at the addresses 0, 1, 2, … in this order, one per completed byte. An address
that is not listed holds no byte (log 15). -/
abbrev Memory := List Host.Cell

/-- The Frame Decoder's state (R25): Seeking-Preamble or Reading-Bytes. -/
inductive FdState where
  | seek
  | read
deriving DecidableEq, Repr

/-- Where the Command Interpreter stands (R190): no packet in hand, at address dispatch, or in the instruction
loop. It is `idle` between steps (log 5, log 6). -/
inductive CiPhase where
  | idle
  | address
  | instruction
deriving DecidableEq, Repr

structure State where
  /-- `TB_NUM` of `TIMEBASE` (R40). -/
  tbNum     : Nat
  /-- `TB_DEN` of `TIMEBASE` (R40). -/
  tbDen     : Nat
  /-- `EE_VALID` (R21). -/
  eeValid   : Bool
  /-- `EE_POL` (R22). -/
  eePol     : Polarity
  /-- `EE_DUR` (R23). -/
  eeDur     : Nat
  /-- `DP_PEND` (R24). -/
  dpPend    : Option Nat
  /-- `FD_STATE` (R25). -/
  fdState   : FdState
  /-- `FD_CNT` (R26). -/
  fdCnt     : Nat
  /-- `FD_BYTE` (R27). -/
  fdByte    : Byte
  /-- `FD_NBITS` (R28), 0 to 8. -/
  fdNbits   : Nat
  /-- `FD_PKT` (R29), the only memory. -/
  fdPkt     : Memory
  /-- `FD_GLOG` (R30). -/
  fdGlog    : Bool
  /-- `DONE` (R31). -/
  done      : Bool
  /-- `CK_OK` (R38), not kept between steps. -/
  ckOk      : Bool
  /-- Where the interpreter stands (R190, R200), idle between steps. -/
  ciPhase   : CiPhase
  /-- The payload in the interpreter's hands (R62, R190), not kept between steps. -/
  ciPayload : List Byte
  /-- `CUR` (R36), not kept between steps. -/
  cur       : Nat
  /-- `TGT` (R37), not kept between steps. -/
  tgt       : Target
  /-- The model's own: input events delivered and not yet taken, oldest first (R55, log 1). -/
  inEvents  : List InEvent
  /-- The model's own: the output list of the pass, oldest first (R50, R268, log 2). -/
  outEvents : List OutEvent
deriving DecidableEq, Repr

/-- Why the machine stops with a fault: never. "There is no fatal condition inside SBCORE" (R239), so the type
has no constructor (log 17). -/
inductive Fault where
deriving DecidableEq, Repr

/-- Why the model gives no meaning. -/
inductive Refusal where
  /-- An instruction without a meaning in this model: raised by no arm of `exec`. Safe. -/
  | notModelled (mnemonic : String)
  /-- `TB_NUM = 0` or `TB_DEN = 0` (R263): raised by `resetWith` and by a step that would have to use such a
  timebase. Safe. -/
  | illegalTimebase
  /-- A run, preamble or packet beyond a finite implementation's widths (R7): raised by `stepFinite` only. Safe. -/
  | beyondWidths
deriving DecidableEq, Repr

/-- The state after a reset (R260) with the timebase 1 microsecond per sample (log 4). `EE_POL` and `EE_DUR`,
which the spec leaves unspecified, are low and 0 (log 3). -/
def State.reset : State where
  tbNum     := 1
  tbDen     := 1
  eeValid   := false
  eePol     := .low
  eeDur     := 0
  dpPend    := none
  fdState   := .seek
  fdCnt     := 0
  fdByte    := 0#8
  fdNbits   := 0
  fdPkt     := []
  fdGlog    := false
  done      := false
  ckOk      := false
  ciPhase   := .idle
  ciPayload := []
  cur       := 0
  tgt       := .all
  inEvents  := []
  outEvents := []

end Sys2Proof.Machine
end

