-- ==== Sys2Proof/Machine/Ops.lean ====
section
/-! DEFINITION. The operations every stage and every meaning is made of: sequencing of outcomes, the packet
buffer (20_memory.md R60 to R63), `emit` and `raise` (00_scope.md R9), the recovery of each anomaly
(60_exceptions.md R230 to R244), and the interpreter's moves. -/

namespace Sys2Proof.Machine

/-- The three outcomes of SBCORE. -/
abbrev Out := Host.Outcome State Fault Refusal

/-- Go on with `f` if the outcome is a next state. -/
def andThen (o : Out) (f : State → Out) : Out :=
  match o with
  | .next s    => f s
  | .fault r   => .fault r
  | .refused r => .refused r

/-! The packet buffer. -/

/-- The canonical form: the addresses are 0, 1, …, n - 1 in this order (so strictly rising, without a gap); an
unlisted address reads as no byte, so no entry equals what an unlisted address reads as (log 15). -/
abbrev Memory.wf (m : Memory) : Prop := m.map Prod.fst = List.range m.length

/-- `MemRead(a, 1)` on the buffer: the byte at `a`, none where no byte has been appended (R62, R63). -/
def Memory.read (m : Memory) (a : Nat) : Option Byte := List.lookup a m

/-- `MemWrite(length, 1, v)`: append, the only write there is (R9, R61). -/
def Memory.append (m : Memory) (v : Byte) : Memory := m ++ [(m.length, v)]

/-- The copy by value that is handed on when a packet is emitted (R62). -/
def Memory.bytes (m : Memory) : List Byte := m.map Prod.snd

/-- The buffer that holds the bytes given, from address 0. -/
def Memory.ofBytes (bs : List Byte) : Memory := bs.foldl Memory.append []

/-! Output and anomalies. -/

/-- `emit E` (R9): append to the output list. -/
def emit (e : OutEvent) (s : State) : State := { s with outEvents := s.outEvents ++ [e] }

/-- Resynchronisation (R242): the packet in progress is discarded and the decoder seeks a preamble from a count
of 0. Nothing is saved, and there is no return operation: framing resumes by itself (R243). -/
def resync (s : State) : State :=
  { s with fdPkt := [], fdByte := 0#8, fdNbits := 0, fdCnt := 0, fdState := .seek }

/-- Interpretation of the packet stops (R190, R208). -/
def stopInterpreting (s : State) : State := { s with ciPhase := .idle }

/-- The numeric code of an anomaly (R230). -/
def Anomaly.code : Anomaly → Nat
  | .timebaseCoarse _ _   => 1
  | .mismatchedPair _ _   => 2
  | .unknownBit _ _       => 3
  | .garbage              => 4
  | .corruptPacket        => 5
  | .partialAtEnd         => 6
  | .checksumMismatch _ _ => 7
  | .unknownLayout _      => 8

/-- The event an anomaly gives: a diagnostic, but for UnknownLayout, whose event is a result (R230, R238). -/
def Anomaly.event : Anomaly → OutEvent
  | .unknownLayout p      => .result (.unknownPacket p)
  | .timebaseCoarse n d   => .diag (.timebaseCoarse n d)
  | .mismatchedPair h l   => .diag (.mismatchedPair h l)
  | .unknownBit h l       => .diag (.unknownBit h l)
  | .garbage              => .diag .garbage
  | .corruptPacket        => .diag .corruptPacket
  | .partialAtEnd         => .diag .partialAtEnd
  | .checksumMismatch c r => .diag (.checksumMismatch c r)

/-- The recovery of an anomaly (R231 to R238): Garbage zeroes the preamble count, CorruptPacket resynchronises,
UnknownLayout stops the interpretation of its packet, the others have none. -/
def recover : Anomaly → State → State
  | .timebaseCoarse _ _, s   => s
  | .mismatchedPair _ _, s   => s
  | .unknownBit _ _, s       => s
  | .garbage, s              => { s with fdCnt := 0 }
  | .corruptPacket, s        => resync s
  | .partialAtEnd, s         => s
  | .checksumMismatch _ _, s => s
  | .unknownLayout _, s      => stopInterpreting s

/-- `raise A(info)` (R9): the anomaly's event and its recovery. It stands where taking an exception stands on a
processor: no register is saved, no mode changes, control goes nowhere (R242). -/
def raise (a : Anomaly) (s : State) : State := recover a (emit a.event s)

/-! The interpreter's moves. -/

/-- Address dispatch has found a target (R193, R195, R197): `TGT <- t; CUR <- c`; then the loop. -/
def setTarget (t : Target) (c : Nat) (s : State) : State :=
  { s with tgt := t, cur := c, ciPhase := .instruction }

/-- `CUR <- CUR + k` (R200). -/
def advance (k : Nat) (s : State) : State := { s with cur := s.cur + k }

/-- An instruction decoded (R202 to R207): its result, then the cursor moves past its bytes. -/
def report (r : Result) (k : Nat) (s : State) : State := advance k (emit (.result r) s)

/-- A packet or instruction the grammar does not cover (R214): the payload as the interpreter received it (log 20). -/
def reportUnknown (s : State) : State := raise (.unknownLayout s.ciPayload) s

/-- A payload is handed to the interpreter (R190). -/
def enterInterpreter (payload : List Byte) (s : State) : State :=
  { s with ciPhase := .address, ciPayload := payload, cur := 0, tgt := .all }

/-- The step ends: what lives only inside a step is gone (R20, R36 to R38; log 5). -/
def endStep (s : State) : State :=
  { s with ckOk := false, ciPhase := .idle, ciPayload := [], cur := 0, tgt := .all }

end Sys2Proof.Machine
end

