-- ==== Sys2Proof/Machine/Params.lean ====
section
/-! DEFINITION. The literals of 00_scope.md R6 that the source fixes, under the names R6 gives them. They stand
here, and not in Config, because 93_implementation_defined.md U8 calls them unaudited: an audit mends this table. -/

namespace Sys2Proof.Machine

/-- `ONE_MIN_US` (R6). -/
def oneMinUs : Nat := 52
/-- `ONE_MAX_US` (R6). -/
def oneMaxUs : Nat := 64
/-- `ONE_MAX_SLACK` (R6). -/
def oneMaxSlack : Nat := 1
/-- `MISMATCH_US` (R6). -/
def mismatchUs : Nat := 6
/-- `MISMATCH_SLACK` (R6). -/
def mismatchSlack : Nat := 2
/-- `ZERO_MIN_US` (R6). -/
def zeroMinUs : Nat := 95
/-- `TB_COARSE_US` (R6). -/
def tbCoarseUs : Nat := 40
/-- `PREAMBLE_MIN` (R6). -/
def preambleMin : Nat := 10
/-- `PREAMBLE_RESTART` (R6, R157). -/
def preambleRestart : Nat := 1

end Sys2Proof.Machine
end

