-- ==== Sys2Proof/Machine/Flags.lean ====
section
/-! DEFINITION. The flags and status bits (10_state.md R38, R42) and the thresholds that are functions of the
timebase (R41, 41_bit_classifier.md R130), in exact natural arithmetic (00_scope.md R13). -/

namespace Sys2Proof.Machine

/-- A legal timebase (R40, R263). -/
def legalTimebase (tbNum tbDen : Nat) : Bool := decide (1 ≤ tbNum) && decide (1 ≤ tbDen)

/-- `ONE_LO = floor(52 / TB)` (R41, R130). -/
def State.oneLo (s : State) : Nat := oneMinUs * s.tbDen / s.tbNum

/-- `ONE_HI = floor(64 / TB) + 1` (R41, R130). -/
def State.oneHi (s : State) : Nat := oneMaxUs * s.tbDen / s.tbNum + oneMaxSlack

/-- `MIS_TOL = floor(6 / TB) + 2` (R41, R130). -/
def State.misTol (s : State) : Nat := mismatchUs * s.tbDen / s.tbNum + mismatchSlack

/-- `is_long(d)`: `d * TB >= 95` (R130). -/
def State.isLong (s : State) (d : Nat) : Bool := decide (zeroMinUs * s.tbDen ≤ d * s.tbNum)

/-- `|a - b|` on naturals (R8). -/
def absDiff (a b : Nat) : Nat := (a - b) + (b - a)

/-- `h * TB`, microseconds (R136). -/
def State.micros (s : State) (h : Nat) : Micros := { num := h * s.tbNum, den := s.tbDen }

/-- `TB > 40` (R13 d, R42, R137). -/
def coarse (tbNum tbDen : Nat) : Bool := decide (tbCoarseUs * tbDen < tbNum)

/-- `TB_COARSE` (R42). -/
def State.tbCoarse (s : State) : Bool := coarse s.tbNum s.tbDen

/-- `STATUS`: bit 0 `DONE`, bit 1 `TB_COARSE`, bit 2 `FD_GLOG` (R42; the port it stands on is not modelled, log 24). -/
def State.status (s : State) : BitVec 3 :=
  BitVec.ofBool s.fdGlog ++ BitVec.ofBool s.tbCoarse ++ BitVec.ofBool s.done

/-- The checksum computed over a packet: all its bytes but the last (R180). -/
def checksumComputed (packet : List Byte) : Byte := xorBytes packet.dropLast

/-- The checksum received: the last byte (R180). A packet has at least one byte (R162 c). -/
def checksumReceived (packet : List Byte) : Byte := packet.getLastD 0x00#8

/-- `CK_OK` (R180). -/
def checksumOk (packet : List Byte) : Bool := checksumComputed packet == checksumReceived packet

end Sys2Proof.Machine
end

