-- ==== Sys2Proof/Machine/BitClassifier.lean ====
section
/-! DEFINITION. The third stage (41_bit_classifier.md R130 to R138). It writes no register. -/

namespace Sys2Proof.Machine

/-- The bit a pair encodes (R81, R131 to R135): One, then Zero, then Unknown. -/
def State.classify (s : State) (h l : Nat) : BitVal :=
  if s.oneLo ≤ h ∧ h ≤ s.oneHi then .one
  else if s.isLong h = true ∧ s.isLong l = true then .zero
  else .unknown

/-- A One whose halves disagree beyond the tolerance (R133). -/
def State.mismatched (s : State) (h l : Nat) : Bool := decide (s.misTol < absDiff h l)

/-- `BC.classify` (R131): diagnostic, then statistic, then bit. -/
def bcClassify (p : Pair) (s : State) : State × BitVal :=
  match s.classify p.high p.low with
  | .one =>
    (emit (.tap (.bit .one)) (emit (.stat (.oneWidth (s.micros p.high)))
      (if s.mismatched p.high p.low then raise (.mismatchedPair p.high p.low) s else s)), .one)
  | .zero => (emit (.tap (.bit .zero)) (emit (.stat (.zeroWidth (s.micros p.high))) s), .zero)
  | .unknown => (emit (.tap (.bit .unknown)) (raise (.unknownBit p.high p.low) s), .unknown)

end Sys2Proof.Machine
end

