-- ==== Sys2Proof/Machine/Operands.lean ====
section
/-! DEFINITION. The operands of the command grammar (30_encoding.md R103) and what their values mean
(44_command_interpreter.md R202, R203). -/

namespace Sys2Proof.Machine

/-- Direction bit 1 is forward in both speed forms (R95, R96). -/
def directionOf (d : Bool) : Direction := if d then .fwd else .rev

/-- The 14-bit address, first byte's six bits high (R65, R90). -/
def longAddress (h : BitVec 6) (l : BitVec 8) : BitVec 14 := h ++ l

/-- The 28-step speed value `V = S * 2 + C` (R96, R103). -/
def speed28Value (c : Bool) (s : BitVec 4) : Nat := s.toNat * 2 + c.toNat

/-- What `V` means (R203). -/
def speed28Of (v : Nat) : Speed28 :=
  if v = 0 then .stop else if v = 1 then .stopI else if v = 2 then .eStop else if v = 3 then .eStopI
  else .step (v - 3)

/-- What `S` means (R202). -/
def speed128Of (v : Nat) : Speed128 :=
  if v = 0 then .stop else if v = 1 then .eStop else .step (v - 1)

/-- The loco id reported for a target (R37). -/
def Target.locoId : Target → Nat
  | .all     => 0
  | .short a => a.toNat
  | .long a  => a.toNat

end Sys2Proof.Machine
end

