-- ==== Sys2Proof/Machine/AddressForms.lean ====
section
/-! DEFINITION. The meanings of the address forms (44_command_interpreter.md R191 to R198). -/

namespace Sys2Proof.Machine

/-- R191: the empty payload is an unknown packet. -/
def execAddrEmpty (s : State) : Out := .next (reportUnknown s)

/-- R193: the target is All, the instructions start at index 1. -/
def execAddrBroadcast (s : State) : Out := .next (setTarget .all 1 s)

/-- R194, the valid idle packet: `Idle`; the instruction loop is not entered. -/
def execIdle (s : State) : Out := .next (stopInterpreting (emit (.result .idle) s))

/-- R194, any other payload that begins with 0xFF. -/
def execAddrIdleInvalid (_rest : List Byte) (s : State) : Out := .next (reportUnknown s)

/-- R195: the 14-bit target, the instructions start at index 2. -/
def execAddrLong (h : BitVec 6) (l : BitVec 8) (s : State) : Out :=
  .next (setTarget (.long (longAddress h l)) 2 s)

/-- R196: accessory addressing is recognised and never decoded. -/
def execAddrAccessory (_x : BitVec 6) (_rest : List Byte) (s : State) : Out := .next (reportUnknown s)

/-- R197: the 7-bit target, the instructions start at index 1. -/
def execAddrShort (a : BitVec 7) (s : State) : Out := .next (setTarget (.short a) 1 s)

/-- R198: anything else. -/
def execAddrUnknown (_x : BitVec 6) (s : State) : Out := .next (reportUnknown s)

end Sys2Proof.Machine
end

