-- ==== Sys2Proof/Machine/InstructionForms.lean ====
section
/-! DEFINITION. The meanings of the instruction forms (44_command_interpreter.md R202 to R208). -/

namespace Sys2Proof.Machine

/-- R202: 128-step speed control, two bytes. -/
def execSpeed128 (d : Bool) (v : BitVec 7) (s : State) : Out :=
  .next (report (.speed128 s.tgt (directionOf d) (speed128Of v.toNat)) 2 s)

/-- R203: 28-step speed and direction. -/
def execSpeed28 (d c : Bool) (v : BitVec 4) (s : State) : Out :=
  .next (report (.speed28 s.tgt (directionOf d) (speed28Of (speed28Value c v))) 1 s)

/-- R204: function group 1. -/
def execFg1 (fl f4 f3 f2 f1 : Bool) (s : State) : Out :=
  .next (report (.funcGroup1 s.tgt fl f1 f2 f3 f4) 1 s)

/-- R205: function group 2, F5 to F8. -/
def execFg2Hi (f8 f7 f6 f5 : Bool) (s : State) : Out :=
  .next (report (.funcGroup2 s.tgt 5 f5 f6 f7 f8) 1 s)

/-- R206: function group 2, F9 to F12. -/
def execFg2Lo (f12 f11 f10 f9 : Bool) (s : State) : Out :=
  .next (report (.funcGroup2 s.tgt 9 f9 f10 f11 f12) 1 s)

/-- R207: Reset All under the target All; under any other target the byte 0x00 is unknown (R207, R208; the
decoder gives this form under All only; log 19). -/
def execResetAll (s : State) : Out :=
  if s.tgt = .all then .next (report .resetAll 1 s) else .next (reportUnknown s)

/-- R208: the whole payload is reported and the loop stops; earlier results stand. -/
def execUnknownInstr (_b : Byte) (_rest : List Byte) (s : State) : Out := .next (reportUnknown s)

end Sys2Proof.Machine
end

