-- ==== Sys2Proof/Machine/Dispatch.lean ====
section
/-! DEFINITION. One arm for each form of the command grammar (44_command_interpreter.md R192, R201). -/

namespace Sys2Proof.Machine

def exec (i : Instr) (s : State) : Host.Outcome State Fault Refusal :=
  match i with
  -- address level
  | .addrEmpty => Sys2Proof.Machine.execAddrEmpty s
  | .addrBroadcast => Sys2Proof.Machine.execAddrBroadcast s
  | .idle => Sys2Proof.Machine.execIdle s
  | .addrIdleInvalid rest => Sys2Proof.Machine.execAddrIdleInvalid rest s
  | .addrLong h l => Sys2Proof.Machine.execAddrLong h l s
  | .addrAccessory x rest => Sys2Proof.Machine.execAddrAccessory x rest s
  | .addrShort a => Sys2Proof.Machine.execAddrShort a s
  | .addrUnknown x => Sys2Proof.Machine.execAddrUnknown x s
  -- instruction level
  | .speed128 d v => Sys2Proof.Machine.execSpeed128 d v s
  | .speed28 d c v => Sys2Proof.Machine.execSpeed28 d c v s
  | .fg1 fl f4 f3 f2 f1 => Sys2Proof.Machine.execFg1 fl f4 f3 f2 f1 s
  | .fg2Hi f8 f7 f6 f5 => Sys2Proof.Machine.execFg2Hi f8 f7 f6 f5 s
  | .fg2Lo f12 f11 f10 f9 => Sys2Proof.Machine.execFg2Lo f12 f11 f10 f9 s
  | .resetAll => Sys2Proof.Machine.execResetAll s
  | .unknownInstr b rest => Sys2Proof.Machine.execUnknownInstr b rest s

end Sys2Proof.Machine
end

