-- ==== Sys2Proof/Machine/Interpreter.lean ====
section
/-! DEFINITION. The sixth stage: fetch, decode, execute over a payload (44_command_interpreter.md R190 to R215). -/

namespace Sys2Proof.Machine

/-- The next instruction of the payload: at address dispatch the whole payload is decoded (R192); in the loop the
bytes from the cursor on, while `CUR < n` (R200, R201). -/
def State.fetch (s : State) : Option Instr :=
  match s.ciPhase with
  | .idle        => none
  | .address     => (decode .address s.ciPayload).toOption
  | .instruction => (decode (.instruction (decide (s.tgt = .all))) (s.ciPayload.drop s.cur)).toOption

/-- The loop (R190, R200), with the number of instructions it may still run. -/
def interpretLoop : Nat → State → Out
  | 0, s => .next s
  | n + 1, s =>
    match s.fetch with
    | none   => .next s
    | some i => andThen (exec i s) (interpretLoop n)

/-- The interpretation in hand, run to its end. One dispatch and one instruction for each byte suffice: the
cursor strictly increases (R200). -/
def runInterpreter (s : State) : Out := interpretLoop (s.ciPayload.length + 1) s

/-- The Command Interpreter's reaction to a payload (R190). -/
def interpretPayload (payload : List Byte) (s : State) : Out := runInterpreter (enterInterpreter payload s)

end Sys2Proof.Machine
end

