-- ==== Sys2Proof/Machine/Checksum.lean ====
section
/-! DEFINITION. The fifth stage and the routing of a packet after it (43_checksum.md R180 to R184). -/

namespace Sys2Proof.Machine

/-- `CK.validate` (R180): writes `CK_OK`. -/
def ckValidate (packet : List Byte) (s : State) : State := { s with ckOk := checksumOk packet }

/-- A packet that fails is reported whole and not interpreted (R181, R182). -/
def ckFail (packet : List Byte) (s : State) : State :=
  emit (.result (.checksumError packet))
    (raise (.checksumMismatch (checksumComputed packet) (checksumReceived packet)) s)

/-- Routing (R182). -/
def ckPacket (packet : List Byte) (s : State) : Out :=
  if (ckValidate packet s).ckOk then interpretPayload packet.dropLast (ckValidate packet s)
  else .next (ckFail packet (ckValidate packet s))

end Sys2Proof.Machine
end

