-- ==== Sys2Proof/Machine/DurationPairer.lean ====
section
/-! DEFINITION. The second stage (40_edge_and_pairer.md R120 to R123). -/

namespace Sys2Proof.Machine

/-- `DP.high` (R120): the pending slot is overwritten. -/
def dpHigh (d : Nat) (s : State) : State := { s with dpPend := some d }

/-- `DP.low` (R121): a pending high is paired; without one the low run is discarded. -/
def dpLow (d : Nat) (s : State) : State × Option Pair :=
  match s.dpPend with
  | some h => ({ emit (.tap (.pair h d)) s with dpPend := none }, some { high := h, low := d })
  | none   => (s, none)

/-- The Duration Pairer's reaction to a run (R264). -/
def dpRun (r : Run) (s : State) : State × Option Pair :=
  match r.pol with
  | .high => (dpHigh r.dur s, none)
  | .low  => dpLow r.dur s

end Sys2Proof.Machine
end

