-- ==== Sys2Proof/Machine/EdgeExtractor.lean ====
section
/-! DEFINITION. The first stage (40_edge_and_pairer.md R110 to R114). A stage answers its state and the element
it feeds to the next stage, if any. -/

namespace Sys2Proof.Machine

/-- R110: a sample of at least 0 is high. -/
def polarity (v : Int) : Polarity := if 0 ≤ v then .high else .low

/-- The run in progress is complete: its tap event, and the run for the Duration Pairer (R111, R112). -/
def closeRun (s : State) : State × Option Run :=
  (emit (.tap (.run s.eePol s.eeDur)) s, some { pol := s.eePol, dur := s.eeDur })

/-- The sample is the first of a run (R111). -/
def startRun (v : Int) (s : State) : State := { s with eeValid := true, eePol := polarity v, eeDur := 1 }

/-- `EE.sample` (R111). -/
def eeSample (v : Int) (s : State) : State × Option Run :=
  if s.eeValid = false then (startRun v s, none)
  else if polarity v = s.eePol then ({ s with eeDur := s.eeDur + 1 }, none)
  else (startRun v (closeRun s).1, (closeRun s).2)

/-- `EE.end` (R112). -/
def eeEnd (s : State) : State × Option Run :=
  if s.eeValid then closeRun s else (s, none)

end Sys2Proof.Machine
end

