-- ==== Sys2Proof/Machine/FrameDecoder.lean ====
section
/-! DEFINITION. The fourth stage (42_frame_decoder.md R150 to R164): one operation for each transition rule, and
the transition table of R160 over them. -/

namespace Sys2Proof.Machine

/-- `FD.seek_one` (R151). -/
def fdSeekOne (s : State) : State := { s with fdCnt := s.fdCnt + 1 }

/-- `FD.seek_garbage` (R152): the count is zeroed; the diagnostic is raised the first time only. -/
def fdSeekGarbage (s : State) : State :=
  if s.fdGlog then { s with fdCnt := 0 } else { raise .garbage s with fdCnt := 0, fdGlog := true }

/-- `FD.seek_start` (R153): the Zero is the start bit. -/
def fdSeekStart (s : State) : State :=
  { emit (.stat (.preambleLen s.fdCnt)) s with
    fdState := .read, fdCnt := 0, fdByte := 0#8, fdNbits := 0, fdPkt := [] }

/-- `FD.seek_corrupt_start` (R154). -/
def fdSeekCorruptStart (s : State) : State := { raise .corruptPacket s with fdCnt := 0 }

/-- `FD.read_data` (R155): a data bit is shifted in, most significant first. -/
def fdReadData (v : Bool) (s : State) : State :=
  { s with fdByte := s.fdByte * 2#8 + (BitVec.ofBool v).setWidth 8, fdNbits := s.fdNbits + 1 }

/-- `FD.read_more` (R156): the byte is appended and another follows. -/
def fdReadMore (s : State) : State :=
  { s with fdPkt := s.fdPkt.append s.fdByte, fdByte := 0#8, fdNbits := 0 }

/-- The packet a Zero continuation bit completes (R157). -/
def completedPacket (s : State) : List Byte := (s.fdPkt.append s.fdByte).bytes

/-- `FD.read_end` (R157): the packet is emitted; the end bit counts as the first of the next preamble. -/
def fdReadEnd (s : State) : State × Option (List Byte) :=
  ({ emit (.tap (.packet (completedPacket s))) s with
      fdPkt := [], fdByte := 0#8, fdNbits := 0, fdState := .seek, fdCnt := preambleRestart },
    some (completedPacket s))

/-- `FD.read_corrupt` (R158): the packet in progress is discarded. -/
def fdReadCorrupt (s : State) : State := raise .corruptPacket s

/-- The transition on one bit (R150, R160; FD_NBITS is at most 8 in every legal state, log 21). -/
def fdBit (b : BitVal) (s : State) : State × Option (List Byte) :=
  match s.fdState, b with
  | .seek, .one     => (fdSeekOne s, none)
  | .seek, .zero    => if s.fdCnt < preambleMin then (fdSeekGarbage s, none) else (fdSeekStart s, none)
  | .seek, .unknown => if s.fdCnt < preambleMin then (fdSeekGarbage s, none) else (fdSeekCorruptStart s, none)
  | .read, .one     => if s.fdNbits < 8 then (fdReadData true s, none) else (fdReadMore s, none)
  | .read, .zero    => if s.fdNbits < 8 then (fdReadData false s, none) else fdReadEnd s
  | .read, .unknown => (fdReadCorrupt s, none)

/-- `FD.end` (R159): the diagnostic for input that ends inside a preamble or a packet. -/
def fdEnd (s : State) : State :=
  if s.fdState = .read ∨ 0 < s.fdCnt then raise .partialAtEnd s else s

end Sys2Proof.Machine
end

