-- ==== Sys2Proof/Machine/Pipeline.lean ====
section
/-! DEFINITION. The reaction of all six stages to one input event (70_reset_and_hazards.md R264 to R267). -/

namespace Sys2Proof.Machine

/-- The Frame Decoder, and what follows it if a packet was completed. -/
def feedBit (b : BitVal) (s : State) : Out :=
  match fdBit b s with
  | (t, some packet) => ckPacket packet t
  | (t, none)        => .next t

/-- The Bit Classifier, and what follows it. -/
def feedPair (p : Pair) (s : State) : Out :=
  feedBit (bcClassify p s).2 (bcClassify p s).1

/-- The Duration Pairer, and what follows it if a pair was completed. -/
def feedRun (r : Run) (s : State) : Out :=
  match dpRun r s with
  | (t, some p) => feedPair p t
  | (t, none)   => .next t

/-- The Edge Extractor's reaction to the event. -/
def extract (ev : InEvent) (s : State) : State × Option Run :=
  match ev with
  | .sample v   => eeSample v s
  | .endOfInput => eeEnd s

/-- The stages from the Edge Extractor on. -/
def feedEvent (ev : InEvent) (s : State) : Out :=
  match extract ev s with
  | (t, some r) => feedRun r t
  | (t, none)   => .next t

/-- What ends the step: in the End step `FD.end` and then `DONE <- 1` (R264, R266). -/
def closeStep (ev : InEvent) (s : State) : State :=
  match ev with
  | .sample _   => endStep s
  | .endOfInput => endStep { fdEnd s with done := true }

/-- `step(event)` of R264. After End every event is ignored (R267, log 16). A timebase that no reset accepts has no
behaviour (R263, log 14). -/
def react (ev : InEvent) (s : State) : Out :=
  if s.done then .next s
  else if legalTimebase s.tbNum s.tbDen then andThen (feedEvent ev s) fun t => .next (closeStep ev t)
  else .refused .illegalTimebase

/-- Take the oldest input event and react to it; with none delivered the machine waits (R240, log 1). -/
def takeEvent (s : State) : Out :=
  match s.inEvents with
  | []      => .next s
  | ev :: q => react ev { s with inEvents := q }

/-- A payload already in the interpreter's hands is interpreted to its end and the step ends. No state between
steps has one (log 7). -/
def finishInterpretation (s : State) : Out := andThen (runInterpreter s) fun t => .next (endStep t)

end Sys2Proof.Machine
end

