-- ==== Sys2Proof/Machine/Step.lean ====
section
/-! DEFINITION. One step of the machine (00_scope.md R10, 70_reset_and_hazards.md R264), and where a step finds
its next instruction. -/

namespace Sys2Proof.Machine

/-- One step: the complete reaction to one input event (R10, R264). A payload already in the interpreter's hands
(no state between steps has one, log 7) is interpreted to its end. -/
def step (s : State) : Host.Outcome State Fault Refusal :=
  if s.ciPhase = .idle then takeEvent s else finishInterpretation s

/-- The state whose next step fetches and runs exactly the table word's instruction (log 8): an address form is
the payload at address dispatch; an instruction form stands after a broadcast address, under the cursor. -/
def State.withFetchWord (s : State) (nbits w : Nat) : State :=
  match tableLevel nbits w with
  | .address => enterInterpreter (tableBytes nbits w) s
  | .instruction _ => setTarget .all 1 (enterInterpreter (0x00#8 :: tableBytes nbits w) s)

end Sys2Proof.Machine
end

