-- ==== Sys2Proof/Config.lean ====
section
/-! DEFINITION. What one realisation of SBCORE fixes: the OPEN width parameters of 00_scope.md R6. The
OPEN timebase is an input of reset and lives in State (10_state.md R40). The literals the source fixes are
named in Machine/Params.lean. No value of this hardware is left free, so no opaque constant stands here. -/

namespace Sys2Proof

/-- The OPEN width parameters of R6. `none` is the reference semantics: no bound. -/
structure Widths where
  /-- `DUR_W`, bits of a duration counter. -/
  durW   : Option Nat
  /-- `CNT_W`, bits of the preamble counter. -/
  cntW   : Option Nat
  /-- `PKT_MAX`, bytes of the packet buffer. -/
  pktMax : Option Nat
deriving DecidableEq, Repr

/-- The reference semantics of R6 and R12: everything unbounded. -/
def Widths.reference : Widths := { durW := none, cntW := none, pktMax := none }

end Sys2Proof
end

