-- ==== Sys2Proof/Machine/FiniteWidths.lean ====
section
/-! DEFINITION. The step of a realisation with finite widths (00_scope.md R6, R7): the reference step, refused
where the input leaves the contract (93_implementation_defined.md U1 to U3; log 13). -/

namespace Sys2Proof.Machine

/-- The bound, if there is one, is kept. -/
def within (bound : Option Nat) (n : Nat) : Bool :=
  match bound with
  | none   => true
  | some b => decide (n ≤ b)

/-- `2^w - 1`, the largest value of a counter of `w` bits. -/
def counterMax (w : Option Nat) : Option Nat := w.map fun k => 2 ^ k - 1

/-- An output event carries no packet longer than the buffer (R7). -/
def eventWithin (w : Widths) : OutEvent → Bool
  | .tap (.packet p) => within w.pktMax p.length
  | _                => true

/-- The state `t` after a step from `s` stays inside the widths (R7, R61): the run counter, the pending slot, the
preamble counter, the packet buffer, and every packet the step emitted. -/
def fits (w : Widths) (s t : State) : Bool :=
  within (counterMax w.durW) t.eeDur
    && within (counterMax w.durW) (t.dpPend.getD 0)
    && within (counterMax w.cntW) t.fdCnt
    && within w.pktMax t.fdPkt.length
    && (t.outEvents.drop s.outEvents.length).all (eventWithin w)

/-- One step of a realisation with the given widths (R7). -/
def stepFinite (w : Widths) (s : State) : Out :=
  andThen (step s) fun t => if fits w s t then .next t else .refused .beyondWidths

end Sys2Proof.Machine
end

