-- ==== Sys2Proof/Machine/HostPort.lean ====
section
/-! DEFINITION. What the host does to the machine between steps (10_state.md R55, 70_reset_and_hazards.md R277). -/

namespace Sys2Proof.Machine

/-- The sample on the 8-bit port: two's complement (R55, R56; log 22). -/
def sampleOfPort (data : BitVec 8) : Int := data.toInt

/-- The input event of one accepted beat of the port (R56): `s_last` marks End and carries no sample. -/
def eventOfPort (last : Bool) (data : BitVec 8) : InEvent :=
  if last then .endOfInput else .sample (sampleOfPort data)

/-- The sample source delivers events (R277). -/
def deliver (evs : List InEvent) (s : State) : State := { s with inEvents := s.inEvents ++ evs }

end Sys2Proof.Machine
end

