-- ==== Sys2Proof/Machine/Reset.lean ====
section
/-! DEFINITION. Reset (70_reset_and_hazards.md R260 to R263). -/

namespace Sys2Proof.Machine

/-- Every register at its reset value, the timebase latched (R260). -/
def freshState (tbNum tbDen : Nat) : State := { State.reset with tbNum := tbNum, tbDen := tbDen }

/-- Reset with a timebase: an illegal one is refused (R263); a coarse one is reported before every event of the
pass (R137, R261). -/
def resetWith (tbNum tbDen : Nat) : Out :=
  if legalTimebase tbNum tbDen then
    if coarse tbNum tbDen then .next (raise (.timebaseCoarse tbNum tbDen) (freshState tbNum tbDen))
    else .next (freshState tbNum tbDen)
  else .refused .illegalTimebase

/-- The host resets in mid-pass: the pass and everything in progress is abandoned without a diagnostic
(R277; log 23). -/
def hostReset (tbNum tbDen : Nat) (_abandoned : State) : Out := resetWith tbNum tbDen

end Sys2Proof.Machine
end

