-- ==== Sys2Proof/Machine/Signal.lean ====
section
/-! DEFINITION. The encoder of the two lower levels: bytes to bits (30_encoding.md R82) and a bit cell to
samples (R81), for claims about framing; and the Frame Decoder over a sequence of bits. -/

namespace Sys2Proof.Machine

/-- A data bit: One for 1, Zero for 0 (R82). -/
def dataBit (v : Bool) : BitVal := if v then .one else .zero

/-- The 8 data bits of a byte, most significant first (R64, R82). -/
def byteBits (b : Byte) : List BitVal :=
  [dataBit (b.getLsbD 7), dataBit (b.getLsbD 6), dataBit (b.getLsbD 5), dataBit (b.getLsbD 4),
   dataBit (b.getLsbD 3), dataBit (b.getLsbD 2), dataBit (b.getLsbD 1), dataBit (b.getLsbD 0)]

/-- The bytes of a packet, each with its continuation bit: One if another byte follows, Zero after the last (R82). -/
def packetBits : List Byte → List BitVal
  | []      => []
  | [b]     => byteBits b ++ [.zero]
  | b :: bs => byteBits b ++ .one :: packetBits bs

/-- A packet on the track: `p` Ones, the start bit, the bytes (R82). -/
def frameBits (p : Nat) (packet : List Byte) : List BitVal :=
  List.replicate p .one ++ .zero :: packetBits packet

/-- The Frame Decoder over a sequence of bits: the state after it, and the packets completed, oldest first (R150). -/
def fdBits : List BitVal → State → State × List (List Byte)
  | [], s      => (s, [])
  | b :: bs, s => ((fdBits bs (fdBit b s).1).1, (fdBit b s).2.toList ++ (fdBits bs (fdBit b s).1).2)

/-- The samples of a bit cell: `h` high samples, then `l` low ones (R81). -/
def cellEvents (h l : Nat) : List InEvent :=
  List.replicate h (.sample 0) ++ List.replicate l (.sample (-1))

end Sys2Proof.Machine
end

