-- ==== Sys2Proof/Safety.lean ====
section
/-! DEFINITION. The terms claims are made in: the states between steps and the invariant of a pass, the streams
of the output list, and the results of a payload read off the rules without the machine. -/

namespace Sys2Proof.Machine

/-- Nothing that lives only inside a step is there (00_scope.md R10, 10_state.md R20, R36 to R38). -/
abbrev State.Between (s : State) : Prop :=
  s.ckOk = false ∧ s.ciPhase = .idle ∧ s.ciPayload = [] ∧ s.cur = 0 ∧ s.tgt = .all

/-- The Frame Decoder's registers agree with its state (42_frame_decoder.md R162 a, b). -/
abbrev State.FrameOk (s : State) : Prop :=
  (s.fdState = .seek → s.fdPkt = [] ∧ s.fdByte = 0#8 ∧ s.fdNbits = 0) ∧
  (s.fdState = .read → s.fdCnt = 0 ∧ s.fdNbits ≤ 8 ∧ s.fdByte.toNat < 2 ^ s.fdNbits)

/-- A legal state between steps: the timebase is legal (R40), a run in progress has at least one sample (R23),
a pending high run too (R24), the frame registers agree (R162), the packet buffer is in canonical form, and
nothing of an unfinished step is left. -/
structure State.Inv (s : State) : Prop where
  timebase : 1 ≤ s.tbNum ∧ 1 ≤ s.tbDen
  run      : s.eeValid = true → 1 ≤ s.eeDur
  pending  : ∀ h, s.dpPend = some h → 1 ≤ h
  frame    : s.FrameOk
  buffer   : s.fdPkt.wf
  between  : s.Between

/-- The stage registers, the configuration and the input queue are the same in both states: everything a decoded
instruction has no part in (10_state.md R32). -/
structure State.SameStages (s t : State) : Prop where
  tbNum    : t.tbNum = s.tbNum
  tbDen    : t.tbDen = s.tbDen
  eeValid  : t.eeValid = s.eeValid
  eePol    : t.eePol = s.eePol
  eeDur    : t.eeDur = s.eeDur
  dpPend   : t.dpPend = s.dpPend
  fdState  : t.fdState = s.fdState
  fdCnt    : t.fdCnt = s.fdCnt
  fdByte   : t.fdByte = s.fdByte
  fdNbits  : t.fdNbits = s.fdNbits
  fdGlog   : t.fdGlog = s.fdGlog
  done     : t.done = s.done
  ckOk     : t.ckOk = s.ckOk
  inEvents : t.inEvents = s.inEvents
  memory   : ∀ a, t.fdPkt.read a = s.fdPkt.read a

/-- The forms that stand for an unknown encoding (30_encoding.md R102). -/
def unknownForm : Instr → Bool
  | .addrEmpty         => true
  | .addrBroadcast     => false
  | .idle              => false
  | .addrIdleInvalid _ => true
  | .addrLong _ _      => false
  | .addrAccessory _ _ => true
  | .addrShort _       => false
  | .addrUnknown _     => true
  | .speed128 _ _      => false
  | .speed28 _ _ _     => false
  | .fg1 _ _ _ _ _     => false
  | .fg2Hi _ _ _ _     => false
  | .fg2Lo _ _ _ _     => false
  | .resetAll          => false
  | .unknownInstr _ _  => true

/-- The events a step from `s` to `t` has appended (R50). -/
def newEvents (s t : State) : List OutEvent := t.outEvents.drop s.outEvents.length

/-- The runs of an output list, in order (R51). -/
def runsOf (evs : List OutEvent) : List Run :=
  evs.filterMap fun e => match e with
    | .tap (.run pol dur) => some { pol := pol, dur := dur }
    | _ => none

/-- The packets of an output list, in order (R51). -/
def packetsOf (evs : List OutEvent) : List (List Byte) :=
  evs.filterMap fun e => match e with
    | .tap (.packet p) => some p
    | _ => none

/-- The results of an output list, in order (R53). -/
def resultsOf (evs : List OutEvent) : List Result :=
  evs.filterMap fun e => match e with
    | .result r => some r
    | _ => none

/-- The anomalies of an output list, in order: the diagnostics, and an UnknownPacket result for UnknownLayout (R230). -/
def anomaliesOf (evs : List OutEvent) : List Anomaly :=
  evs.filterMap fun e => match e with
    | .diag a => some a
    | .result (.unknownPacket p) => some (.unknownLayout p)
    | _ => none

/-- The run in progress, if one is: none before the first sample and none after End has flushed it (R111, R112). -/
def State.openRun (s : State) : List Run :=
  if s.eeValid = true ∧ s.done = false then [{ pol := s.eePol, dur := s.eeDur }] else []

/-- All runs of the pass, the one in progress last (R113). -/
def State.allRuns (s : State) : List Run := runsOf s.outEvents ++ s.openRun

/-- The number of samples the runs of the pass stand for (R113 c). -/
def State.samplesSeen (s : State) : Nat := (s.allRuns.map Run.dur).sum

/-- Every run has a sample, and consecutive runs have opposite polarity (R113 a, b); there is none before the first
sample (R21, R111). -/
def State.RunsOk (s : State) : Prop :=
  (∀ r ∈ s.allRuns, 1 ≤ r.dur) ∧ s.allRuns.IsChain (fun r r' => r.pol ≠ r'.pol) ∧
  (s.eeValid = false → s.allRuns = [])

/-- A high run waits for its low run only while that low run is in progress, or after End (R120, R122). -/
def State.PendingOk (s : State) : Prop :=
  s.dpPend ≠ none → s.eeValid = true ∧ (s.eePol = .low ∨ s.done = true)

/-- The target a result carries, if it carries one (R53, R210). -/
def Result.target? : Result → Option Target
  | .speed128 t _ _           => some t
  | .speed28 t _ _            => some t
  | .funcGroup1 t _ _ _ _ _   => some t
  | .funcGroup2 t _ _ _ _ _   => some t
  | .resetAll                 => some .all
  | .idle                     => none
  | .unknownPacket _          => none
  | .checksumError _          => none

/-! The results of a payload, read off 44_command_interpreter.md R191 to R208 by numbers on the bytes: no
instruction type, no cursor, no machine. Claims compare the machine with it. -/

/-- The result of a one-byte instruction under a target, none if the byte is unknown (R203 to R207). -/
def byteResult (tgt : Target) (b : Byte) : Option Result :=
  if 0x40 ≤ b.toNat ∧ b.toNat < 0x80 then
    some (.speed28 tgt (if b.getLsbD 5 then .fwd else .rev)
      (speed28Of (b.toNat % 16 * 2 + b.toNat / 16 % 2)))
  else if 0x80 ≤ b.toNat ∧ b.toNat < 0xA0 then
    some (.funcGroup1 tgt (b.getLsbD 4) (b.getLsbD 0) (b.getLsbD 1) (b.getLsbD 2) (b.getLsbD 3))
  else if 0xA0 ≤ b.toNat ∧ b.toNat < 0xB0 then
    some (.funcGroup2 tgt 9 (b.getLsbD 0) (b.getLsbD 1) (b.getLsbD 2) (b.getLsbD 3))
  else if 0xB0 ≤ b.toNat ∧ b.toNat < 0xC0 then
    some (.funcGroup2 tgt 5 (b.getLsbD 0) (b.getLsbD 1) (b.getLsbD 2) (b.getLsbD 3))
  else if tgt = .all ∧ b = 0x00#8 then some .resetAll
  else none

/-- The results of the instruction list `bs` of `payload` (R200 to R208). -/
def instrResults (payload : List Byte) (tgt : Target) : List Byte → List Result
  | [] => []
  | [b] =>
    match byteResult tgt b with
    | some r => [r]
    | none   => [.unknownPacket payload]
  | b :: d :: bs =>
    if b = 0x3F#8 then
      .speed128 tgt (if 128 ≤ d.toNat then .fwd else .rev) (speed128Of (d.toNat % 128))
        :: instrResults payload tgt bs
    else
      match byteResult tgt b with
      | some r => r :: instrResults payload tgt (d :: bs)
      | none   => [.unknownPacket payload]

/-- The results of a payload (R191 to R198). -/
def payloadResults : List Byte → List Result
  | [] => [.unknownPacket []]
  | b :: bs =>
    if b.toNat = 0 then instrResults (b :: bs) .all bs
    else if b.toNat = 255 then
      if bs = [0x00#8] then [.idle] else [.unknownPacket (b :: bs)]
    else if 192 ≤ b.toNat then
      match bs with
      | l :: rest =>
        instrResults (b :: bs) (.long (BitVec.ofNat 14 ((b.toNat - 192) * 256 + l.toNat))) rest
      | [] => [.unknownPacket (b :: bs)]
    else if 128 ≤ b.toNat then [.unknownPacket (b :: bs)]
    else instrResults (b :: bs) (.short (BitVec.ofNat 7 b.toNat)) bs

/-- The events that follow a packet in its step (43_checksum.md R182): the interpreter's results, or the
diagnostic and the whole packet. -/
def packetEvents (packet : List Byte) : List OutEvent :=
  if checksumOk packet then (payloadResults packet.dropLast).map .result
  else [.diag (.checksumMismatch (checksumComputed packet) (checksumReceived packet)),
        .result (.checksumError packet)]

/-- Run instructions one after the other. -/
def execAll : List Instr → State → Out
  | [], s      => .next s
  | i :: is, s => andThen (exec i s) (execAll is)

end Sys2Proof.Machine
end

