-- ==== Sys2Proof/Certificates/Slice0/Obligations.lean ====
section
/-! DEFINITION. The statements for the provers, each from the rules of spec/ its docstring names. -/

open Sys2Proof Sys2Proof.Machine

/-! ## Encoding -/

/-- 30_encoding.md R87 to R102: at each level, the bytes of every well-formed form, with every value of every operand
and (for a form of fixed length) followed by any bytes, decode to that form. -/
def Obligations.EncodedFormDecodesToItself : Prop :=
  ∀ (lv : Level) (i : Instr) (tail : List Byte), WellFormed lv i = true →
    (i.takesAll = true → tail = []) → decode lv (encode i ++ tail) = .ok i

/-- R87 to R102, the other direction: whatever bytes decode, they are the encoding of the well-formed form they
decode to, followed by bytes only where the form does not take the whole payload. -/
def Obligations.DecodedBytesAreTheFormsEncoding : Prop :=
  ∀ (lv : Level) (bs : List Byte) (i : Instr), decode lv bs = .ok i →
    WellFormed lv i = true ∧ ∃ tail, bs = encode i ++ tail ∧ (i.takesAll = true → tail = [])

/-- Words written out bit by bit from R88 to R102, one for every form of both levels (ADDR_EMPTY's is the empty payload,
the spec's own decision, 92_eei_decisions.md D18), decode to the forms they stand for. That an FF word which is no idle
is not tried as a 14-bit address, that a lone C4 has no second address byte, and which bit of a function group is which
function, are the spec's own decisions (D21, D19, D23). -/
def Obligations.SpecWordsDecodeToTheirForms : Prop :=
  decode .address [] = .ok .addrEmpty ∧
  decode .address [0b00000000#8] = .ok .addrBroadcast ∧
  decode .address [0b11111111#8, 0b00000000#8] = .ok .idle ∧
  decode .address [0b11111111#8, 0b00000001#8] = .ok (.addrIdleInvalid [0b00000001#8]) ∧
  decode .address [0b11000100#8, 0b11010010#8, 0b10010000#8] = .ok (.addrLong 4#6 210#8) ∧
  decode .address [0b10000001#8, 0b11111000#8] = .ok (.addrAccessory 1#6 [0b11111000#8]) ∧
  decode .address [0b00000011#8, 0b01100101#8] = .ok (.addrShort 3#7) ∧
  decode .address [0b11000100#8] = .ok (.addrUnknown 4#6) ∧
  decode (.instruction false) [0b00111111#8, 0b10000101#8] = .ok (.speed128 true 5#7) ∧
  decode (.instruction false) [0b01100101#8] = .ok (.speed28 true false 5#4) ∧
  decode (.instruction false) [0b10010000#8] = .ok (.fg1 true false false false false) ∧
  decode (.instruction false) [0b10110101#8] = .ok (.fg2Hi false true false true) ∧
  decode (.instruction false) [0b10101000#8] = .ok (.fg2Lo true false false false) ∧
  decode (.instruction true) [0b00000000#8] = .ok .resetAll ∧
  decode (.instruction false) [0b00000000#8] = .ok (.unknownInstr 0#8 [])

/-- R93: the first bytes left for ADDR_UNKNOWN are exactly 0xC0 to 0xFE, in a payload of length 1. -/
def Obligations.AddrUnknownIsALoneByteC0ToFE : Prop :=
  ∀ bs : List Byte, (∃ x, decode .address bs = .ok (.addrUnknown x)) ↔
    ∃ b : Byte, bs = [b] ∧ 0xC0 ≤ b.toNat ∧ b.toNat ≤ 0xFE

/-- R102: the unknown encodings, exhaustively, at both levels; the effect of each is the UnknownPacket result, after
which interpretation has stopped; and no other form, run where the decoder gives it (RESET_ALL under the target All;
log 19 for another target), reports UnknownPacket. That the empty payload, an FF that is no idle, and 0x20 to 0x3E and a
last 0x3F are unknown, and which bytes are reported, are the spec's own decisions (92_eei_decisions.md D18, D21, D36,
D26; log 20). -/
def Obligations.UnknownEncodingsAreExactlyThoseListed : Prop :=
  (∀ (toAll : Bool) (b : Byte) (rest : List Byte) (i : Instr), decode (.instruction toAll) (b :: rest) = .ok i →
    (unknownForm i = true ↔
      (b.toNat ≤ 0x1F ∧ b ≠ 0x00#8) ∨ (b = 0x00#8 ∧ toAll = false) ∨ (0x20 ≤ b.toNat ∧ b.toNat ≤ 0x3E) ∨
      (b = 0x3F#8 ∧ rest = []) ∨ (0xC0 ≤ b.toNat ∧ b.toNat ≤ 0xDF) ∨ (0xE0 ≤ b.toNat ∧ b.toNat ≤ 0xFF))) ∧
  (∀ (bs : List Byte) (i : Instr), decode .address bs = .ok i →
    (unknownForm i = true ↔
      bs = [] ∨
      (∃ rest, bs = 0xFF#8 :: rest ∧ rest ≠ [0x00#8]) ∨
      (∃ (b : Byte) (rest : List Byte), bs = b :: rest ∧ 0x80 ≤ b.toNat ∧ b.toNat ≤ 0xBF) ∨
      (∃ b : Byte, bs = [b] ∧ 0xC0 ≤ b.toNat ∧ b.toNat ≤ 0xFE))) ∧
  (∀ (i : Instr) (s : State), unknownForm i = true →
    exec i s = .next { s with outEvents := s.outEvents ++ [.result (.unknownPacket s.ciPayload)], ciPhase := .idle }) ∧
  (∀ (i : Instr) (s t : State), unknownForm i = false → (i = .resetAll → s.tgt = .all) → exec i s = .next t →
    ∀ p, .result (.unknownPacket p) ∉ newEvents s t)

/-! ## The meaning of each form -/

/-- R191: an empty payload, and no other, is ADDR_EMPTY, and it is reported unknown. The spec marks this as its own
decision (92_eei_decisions.md D18). -/
def Obligations.EmptyPayloadIsReportedUnknown : Prop :=
  (∀ bs : List Byte, decode .address bs = .ok .addrEmpty ↔ bs = []) ∧
  (∀ s : State, exec .addrEmpty s =
    .next { s with outEvents := s.outEvents ++ [.result (.unknownPacket s.ciPayload)], ciPhase := .idle }) ∧
  ∀ s : State, s.ciPayload = [] →
    exec .addrEmpty s = .next { s with outEvents := s.outEvents ++ [.result (.unknownPacket [])], ciPhase := .idle }

/-- R193: a payload that begins with 0x00 targets All; its instructions start at index 1. -/
def Obligations.BroadcastTargetsAll : Prop :=
  (∀ rest, decode .address (0x00#8 :: rest) = .ok .addrBroadcast) ∧
  ∀ s : State, exec .addrBroadcast s = .next { s with tgt := .all, cur := 1, ciPhase := .instruction }

/-- R194: exactly [FF, 00] is Idle; every other payload that begins with 0xFF is reported unknown and is never tried
as a 14-bit address; the instruction loop is not entered. That there is no fall-through, and the form of the Idle
result, are the spec's own decisions (92_eei_decisions.md D21, D27). -/
def Obligations.IdleOnlyForFF00 : Prop :=
  decode .address [0xFF#8, 0x00#8] = .ok .idle ∧
  (∀ rest, rest ≠ [0x00#8] → decode .address (0xFF#8 :: rest) = .ok (.addrIdleInvalid rest)) ∧
  (∀ s : State, exec .idle s = .next { s with outEvents := s.outEvents ++ [.result .idle], ciPhase := .idle }) ∧
  (∀ rest (s : State), exec (.addrIdleInvalid rest) s =
    .next { s with outEvents := s.outEvents ++ [.result (.unknownPacket s.ciPayload)], ciPhase := .idle })

/-- R195: the 14-bit address, the first byte's six bits high: the spec's own reading of "combined with"
(92_eei_decisions.md D19, D20). -/
def Obligations.LongAddressIsFirstByteHigh : Prop :=
  (∀ (b l : Byte) rest, 0xC0 ≤ b.toNat → b.toNat ≤ 0xFE →
    decode .address (b :: l :: rest) = .ok (.addrLong (b.extractLsb' 0 6) l)) ∧
  ∀ (h : BitVec 6) (l : BitVec 8) (s : State), ∃ a : BitVec 14, a.toNat = h.toNat * 256 + l.toNat ∧
    exec (.addrLong h l) s = .next { s with tgt := .long a, cur := 2, ciPhase := .instruction }

/-- R196: accessory addressing, 0x80 to 0xBF, is reported unknown. -/
def Obligations.AccessoryIsReportedUnknown : Prop :=
  (∀ (b : Byte) rest, 0x80 ≤ b.toNat → b.toNat ≤ 0xBF →
    decode .address (b :: rest) = .ok (.addrAccessory (b.extractLsb' 0 6) rest)) ∧
  ∀ x rest (s : State), exec (.addrAccessory x rest) s =
    .next { s with outEvents := s.outEvents ++ [.result (.unknownPacket s.ciPayload)], ciPhase := .idle }

/-- R197: the first byte, 1 to 127, is the 7-bit address; the instructions start at index 1. -/
def Obligations.ShortAddressIsTheFirstByte : Prop :=
  (∀ (b : Byte) rest, 1 ≤ b.toNat → b.toNat ≤ 127 →
    ∃ a : BitVec 7, a.toNat = b.toNat ∧ decode .address (b :: rest) = .ok (.addrShort a)) ∧
  ∀ a (s : State), exec (.addrShort a) s = .next { s with tgt := .short a, cur := 1, ciPhase := .instruction }

/-- R198: anything else at the address level, which is 0xC0 to 0xFE alone, is reported unknown. -/
def Obligations.LoneLongAddressByteIsReportedUnknown : Prop :=
  (∀ b : Byte, 0xC0 ≤ b.toNat → b.toNat ≤ 0xFE → decode .address [b] = .ok (.addrUnknown (b.extractLsb' 0 6))) ∧
  ∀ x (s : State), exec (.addrUnknown x) s =
    .next { s with outEvents := s.outEvents ++ [.result (.unknownPacket s.ciPayload)], ciPhase := .idle }

/-- R202: 128-step speed control and its neighbours 0x20 to 0x3E and a last 0x3F. That direction 1 is forward, that the
direction is reported for every speed, and that the neighbours are unknown are the spec's own decisions
(92_eei_decisions.md D22, D36, D37). -/
def Obligations.Speed128ReportsStepMinusOne : Prop :=
  (∀ toAll (d : Byte) rest,
    decode (.instruction toAll) (0x3F#8 :: d :: rest) = .ok (.speed128 (d.getLsbD 7) (d.extractLsb' 0 7))) ∧
  (∀ toAll (b : Byte) rest, (b = 0x3F#8 ∧ rest = []) ∨ (0x20 ≤ b.toNat ∧ b.toNat ≤ 0x3E) →
    decode (.instruction toAll) (b :: rest) = .ok (.unknownInstr b rest)) ∧
  ∀ d (v : BitVec 7) (s : State), exec (.speed128 d v) s = .next { s with
    outEvents := s.outEvents ++ [.result (.speed128 s.tgt (if d = true then .fwd else .rev)
      (if v = 0#7 then .stop else if v = 1#7 then .eStop else .step (v.toNat - 1)))]
    cur := s.cur + 2 }

/-- R203: 28-step speed and direction, bit 4 the low bit of the speed value. That direction 1 is forward, and that the
direction is reported for every speed, Stop, StopI, EStop and EStopI too, are the spec's own decisions
(92_eei_decisions.md D22, D37). -/
def Obligations.Speed28ReadsBitFourAsTheLowBit : Prop :=
  (∀ toAll (b : Byte) rest, 0x40 ≤ b.toNat → b.toNat ≤ 0x7F →
    decode (.instruction toAll) (b :: rest) = .ok (.speed28 (b.getLsbD 5) (b.getLsbD 4) (b.extractLsb' 0 4))) ∧
  ∀ d c (v : BitVec 4) (s : State), exec (.speed28 d c v) s = .next { s with
    outEvents := s.outEvents ++ [.result (.speed28 s.tgt (if d = true then .fwd else .rev)
      (match v.toNat * 2 + (if c = true then 1 else 0) with
        | 0 => .stop
        | 1 => .stopI
        | 2 => .eStop
        | 3 => .eStopI
        | n + 4 => .step (n + 1)))]
    cur := s.cur + 1 }

/-- R204: function group 1. That bit 0 is F1 and bit 3 is F4 is the spec's own reading (92_eei_decisions.md D23). -/
def Obligations.FunctionGroupOneReportsFLAndF1ToF4 : Prop :=
  (∀ toAll (b : Byte) rest, 0x80 ≤ b.toNat → b.toNat ≤ 0x9F → decode (.instruction toAll) (b :: rest) =
    .ok (.fg1 (b.getLsbD 4) (b.getLsbD 3) (b.getLsbD 2) (b.getLsbD 1) (b.getLsbD 0))) ∧
  ∀ fl f4 f3 f2 f1 (s : State), exec (.fg1 fl f4 f3 f2 f1) s = .next { s with
    outEvents := s.outEvents ++ [.result (.funcGroup1 s.tgt fl f1 f2 f3 f4)]
    cur := s.cur + 1 }

/-- R205: function group 2, F5 to F8. The bit order is the spec's own reading (92_eei_decisions.md D23). -/
def Obligations.FunctionGroupTwoHighReportsF5ToF8 : Prop :=
  (∀ toAll (b : Byte) rest, 0xB0 ≤ b.toNat → b.toNat ≤ 0xBF → decode (.instruction toAll) (b :: rest) =
    .ok (.fg2Hi (b.getLsbD 3) (b.getLsbD 2) (b.getLsbD 1) (b.getLsbD 0))) ∧
  ∀ f8 f7 f6 f5 (s : State), exec (.fg2Hi f8 f7 f6 f5) s = .next { s with
    outEvents := s.outEvents ++ [.result (.funcGroup2 s.tgt 5 f5 f6 f7 f8)]
    cur := s.cur + 1 }

/-- R206: function group 2, F9 to F12. The bit order is the spec's own reading (92_eei_decisions.md D23). -/
def Obligations.FunctionGroupTwoLowReportsF9ToF12 : Prop :=
  (∀ toAll (b : Byte) rest, 0xA0 ≤ b.toNat → b.toNat ≤ 0xAF → decode (.instruction toAll) (b :: rest) =
    .ok (.fg2Lo (b.getLsbD 3) (b.getLsbD 2) (b.getLsbD 1) (b.getLsbD 0))) ∧
  ∀ f12 f11 f10 f9 (s : State), exec (.fg2Lo f12 f11 f10 f9) s = .next { s with
    outEvents := s.outEvents ++ [.result (.funcGroup2 s.tgt 9 f9 f10 f11 f12)]
    cur := s.cur + 1 }

/-- R207: under the target All the byte 0x00 is Reset All, whatever follows it (the spec's own decision,
92_eei_decisions.md D24); under any other target it is unknown (the last clause, on a form the decoder does not give
there, is DEDUCED, log 19). -/
def Obligations.ResetAllOnlyUnderTheTargetAll : Prop :=
  (∀ rest, decode (.instruction true) (0x00#8 :: rest) = .ok .resetAll) ∧
  (∀ rest, decode (.instruction false) (0x00#8 :: rest) = .ok (.unknownInstr 0x00#8 rest)) ∧
  (∀ s : State, s.tgt = .all → exec .resetAll s = .next { s with
    outEvents := s.outEvents ++ [.result .resetAll]
    cur := s.cur + 1 }) ∧
  (∀ s : State, s.tgt ≠ .all → exec .resetAll s = .next { s with
    outEvents := s.outEvents ++ [.result (.unknownPacket s.ciPayload)]
    ciPhase := .idle })

/-- R208: the whole payload is reported, earlier results stand, the loop has stopped and nothing after it is read. That
earlier results stand, and which bytes are reported, are the spec's own decisions (92_eei_decisions.md D25, D26). -/
def Obligations.UnknownInstructionReportsThePayloadAndStops : Prop :=
  ∀ b rest (s : State), ∃ t, exec (.unknownInstr b rest) s = .next t ∧
    t = { s with outEvents := s.outEvents ++ [.result (.unknownPacket s.ciPayload)], ciPhase := .idle } ∧
    t.fetch = none

/-! ## Frames -/

/-- Frame of the instruction forms SPEED128, SPEED28, FG1, FG2_HI, FG2_LO, RESET_ALL, UNKNOWN_INSTR (R32, R202 to
R208): the cursor, the interpreter's phase and the output list may change, nothing else; exactly one result is
appended; the phase changes only where the payload is reported unknown, and there the cursor does not move. -/
def Obligations.InstructionFormsChangeOnlyCursorPhaseAndOutput : Prop :=
  ∀ (i : Instr) (s t : State), i.isAddress = false → exec i s = .next t →
    s.SameStages t ∧ t.ciPayload = s.ciPayload ∧ t.tgt = s.tgt ∧
    (∃ r, t.outEvents = s.outEvents ++ [.result r] ∧
      (r = .unknownPacket s.ciPayload → t.cur = s.cur ∧ t.ciPhase = .idle) ∧
      (r ≠ .unknownPacket s.ciPayload → s.cur < t.cur ∧ t.ciPhase = s.ciPhase))

/-- Frame of the address forms ADDR_EMPTY, ADDR_BROADCAST, IDLE, ADDR_IDLE_INVALID, ADDR_LONG, ADDR_ACCESSORY,
ADDR_SHORT, ADDR_UNKNOWN (R32, R191 to R198): target, cursor, phase and output list may change, nothing else; a form
that gives a target reports nothing, and a form that reports leaves target and cursor. -/
def Obligations.AddressFormsChangeOnlyTargetCursorPhaseAndOutput : Prop :=
  ∀ (i : Instr) (s t : State), i.isAddress = true → exec i s = .next t →
    s.SameStages t ∧ t.ciPayload = s.ciPayload ∧
    ((t.outEvents = s.outEvents ∧ t.ciPhase = .instruction) ∨
     (t.tgt = s.tgt ∧ t.cur = s.cur ∧ t.ciPhase = .idle ∧ ∃ r, t.outEvents = s.outEvents ++ [.result r]))

/-! ## A step and the instructions it runs -/

/-- R190, R200: with a payload in the interpreter's hands a step is exec of the form the bytes decode to (the whole
payload at address dispatch, the bytes from the cursor on in the loop), then the rest of the loop, then the end of
the step. (That a step goes on with such a state is the model's choice, log 7; the states between steps have none.
What the end of the step leaves in the step's own registers, `endStep`, is the model's choice too: DESIGN CHOICE, log 5.) -/
def Obligations.StepRunsTheDecodedForm : Prop :=
  (∀ (s : State) (i : Instr), s.ciPhase = .address → decode .address s.ciPayload = .ok i →
    step s = andThen (exec i s) fun t =>
      andThen (interpretLoop s.ciPayload.length t) fun u => .next (endStep u)) ∧
  (∀ (s : State) (i : Instr), s.ciPhase = .instruction →
    decode (.instruction (decide (s.tgt = .all))) (s.ciPayload.drop s.cur) = .ok i →
    step s = andThen (exec i s) fun t =>
      andThen (interpretLoop s.ciPayload.length t) fun u => .next (endStep u))

/-- R190, R191 to R208, R215: for every payload and every state the interpreter comes to its end, with exactly the
results the rules give the payload (`payloadResults`), and nothing else has changed once the step's own registers are
gone. The results rest on the spec's own decisions (92_eei_decisions.md): the empty payload D18, the 14-bit address D19
and D20, the invalid idle D21, the direction D22 and D37, the functions' bits D23, RESET_ALL D24, what stands and what
is reported at an unknown form D25 and D26, the Idle result D27, the unknown 0x20 to 0x3F D36. What `endStep` leaves in the step's own registers is the
model's choice (DESIGN CHOICE, log 5). -/
def Obligations.InterpreterGivesExactlyTheRulesResults : Prop :=
  ∀ (payload : List Byte) (s : State),
    (andThen (interpretPayload payload s) fun t => .next (endStep t)) =
      .next (endStep { s with outEvents := s.outEvents ++ (payloadResults payload).map .result })

/-- R85, R190, R200: the payload of an address form that gives a target and of instruction forms well-formed under
that target runs exactly these forms, in order, and nothing more. -/
def Obligations.EncodedCommandListRunsItsForms : Prop :=
  ∀ (a : Instr) (is : List Instr) (toAll : Bool) (s : State),
    WellFormed .address a = true → a.takesAll = false → (toAll = true ↔ a = .addrBroadcast) →
    (∀ i ∈ is, WellFormed (.instruction toAll) i = true ∧ i.takesAll = false) →
    interpretPayload (payloadOf a is) s = execAll (a :: is) (enterInterpreter (payloadOf a is) s)

/-- R209: a payload that is an address part only sets its target, finds the cursor at its end at once and gives no
result: interpretation answers a next state that differs in the interpreter's own registers only. The
value of the 14-bit address, and that the two bytes of its payload suffice for it, are the spec's own readings
(92_eei_decisions.md D20, D19). -/
def Obligations.AddressOnlyPayloadGivesNoResult : Prop :=
  ∀ (a : Instr) (s : State), WellFormed .address a = true → a.takesAll = false →
    ∃ target : Target,
      interpretPayload (encode a) s = .next { s with
        ciPhase := .instruction, ciPayload := encode a, cur := (encode a).length, tgt := target } ∧
      (a = .addrBroadcast → target = .all) ∧
      (∀ h l, a = .addrLong h l → ∃ x : BitVec 14, x.toNat = h.toNat * 256 + l.toNat ∧ target = .long x) ∧
      (∀ x, a = .addrShort x → target = .short x)

/-- R210: every Speed128, Speed28, FuncGroup1 and FuncGroup2 result of a packet carries the packet's TGT; ResetAll has
the target All, Idle, UnknownPacket and ChecksumError have none (`Result.target?`). -/
def Obligations.ResultsOfOnePacketShareTheirTarget : Prop :=
  ∀ (payload : List Byte) (s t : State), interpretPayload payload s = .next t →
    ∃ rs : List Result, t.outEvents = s.outEvents ++ rs.map .result ∧
      ∀ r ∈ rs, r.target? = none ∨ r.target? = some t.tgt

/-- R36, R63, R200: in the loop the cursor never leaves the payload, and every form run either moves it forward or
stops the interpretation; nothing is fetched once it has reached the payload's length. -/
def Obligations.CursorMovesForwardInsideThePayload : Prop :=
  (∀ (s t : State) (i : Instr), s.ciPhase = .instruction → s.fetch = some i → exec i s = .next t →
    t.cur ≤ t.ciPayload.length ∧ (s.cur < t.cur ∨ t.fetch = none)) ∧
  (∀ s : State, s.ciPhase = .instruction → s.ciPayload.length ≤ s.cur → s.fetch = none)

/-! ## Edge Extractor and Duration Pairer -/

/-- R110, R111: `EE.sample`, its three cases; a sample of 0 is high. -/
def Obligations.EdgeExtractorSample : Prop :=
  ∀ (v : Int) (s : State),
    (polarity v = .high ↔ 0 ≤ v) ∧
    (s.eeValid = false → eeSample v s = ({ s with eeValid := true, eePol := polarity v, eeDur := 1 }, none)) ∧
    (s.eeValid = true → polarity v = s.eePol → eeSample v s = ({ s with eeDur := s.eeDur + 1 }, none)) ∧
    (s.eeValid = true → polarity v ≠ s.eePol → eeSample v s =
      ({ s with eePol := polarity v, eeDur := 1, outEvents := s.outEvents ++ [.tap (.run s.eePol s.eeDur)] },
        some { pol := s.eePol, dur := s.eeDur }))

/-- R112: `EE.end` flushes the run in progress and writes no register. -/
def Obligations.EdgeExtractorEnd : Prop :=
  ∀ s : State,
    (s.eeValid = true → eeEnd s = ({ s with outEvents := s.outEvents ++ [.tap (.run s.eePol s.eeDur)] },
      some { pol := s.eePol, dur := s.eeDur })) ∧
    (s.eeValid = false → eeEnd s = (s, none))

/-- R120, R121: a high run overwrites the pending slot; a low run pairs with a pending high or is discarded. -/
def Obligations.DurationPairerRun : Prop :=
  ∀ (d : Nat) (s : State),
    dpRun { pol := .high, dur := d } s = ({ s with dpPend := some d }, none) ∧
    (∀ h, s.dpPend = some h → dpRun { pol := .low, dur := d } s =
      ({ s with dpPend := none, outEvents := s.outEvents ++ [.tap (.pair h d)] }, some { high := h, low := d })) ∧
    (s.dpPend = none → dpRun { pol := .low, dur := d } s = (s, none))

/-- R114: the Edge Extractor looks at the sign of a sample only, so a step depends on nothing else of it. -/
def Obligations.StepSeesOnlyTheSignOfASample : Prop :=
  ∀ (v w : Int) (q : List InEvent) (s : State), s.ciPhase = .idle → (0 ≤ v ↔ 0 ≤ w) →
    step { s with inEvents := .sample v :: q } = step { s with inEvents := .sample w :: q }

/-- R113 a, b: every step keeps that each run of the pass has a sample and that consecutive runs, the one in progress
included, have opposite polarity. -/
def Obligations.RunsHaveSamplesAndAlternate : Prop :=
  ∀ s t : State, s.RunsOk → step s = .next t → t.RunsOk

/-- R113 c: a step on a sample adds one to the samples the pass's runs stand for; any other step adds none. -/
def Obligations.RunsReconstructTheSampleCount : Prop :=
  ∀ s t : State, s.ciPhase = .idle → s.done = false → step s = .next t →
    t.samplesSeen = s.samplesSeen +
      (match s.inEvents with
        | .sample _ :: _ => 1
        | .endOfInput :: _ => 0
        | [] => 0)

/-- R120, R122, R123: every step keeps that a high run is pending only while its low run is in progress or after
End; so behind the Edge Extractor no pending high is ever overwritten. -/
def Obligations.PendingHighOnlyWhileItsLowRunLasts : Prop :=
  ∀ s t : State, s.PendingOk → step s = .next t → t.PendingOk

/-! ## Bit Classifier -/

/-- R41, R130: the thresholds are the floors of exact quotients by the timebase, and the Zero test the exact product. That
the timebase is an exact rational, and that there is no floating point in these, are the spec's own decisions
(92_eei_decisions.md D4, D5). -/
def Obligations.ThresholdsAreExactFloors : Prop :=
  ∀ s : State, 1 ≤ s.tbNum → 1 ≤ s.tbDen → ∀ tb : ℚ, tb = (s.tbNum : ℚ) / (s.tbDen : ℚ) →
    (s.oneLo : ℤ) = ⌊52 / tb⌋ ∧ (s.oneHi : ℤ) = ⌊64 / tb⌋ + 1 ∧ (s.misTol : ℤ) = ⌊6 / tb⌋ + 2 ∧
    ∀ d : Nat, s.isLong d = true ↔ (95 : ℚ) ≤ d * tb

/-- R131 to R136: diagnostic, then statistic, then bit (the spec's own order, 92_eei_decisions.md D8); no register is
written. The statistic's value is `h * TB` as the unreduced pair of R136 (DEDUCED, log 12). -/
def Obligations.BitClassifierEvents : Prop :=
  ∀ (h l : Nat) (s : State),
    (s.oneLo ≤ h ∧ h ≤ s.oneHi → bcClassify { high := h, low := l } s = ({ s with
      outEvents := s.outEvents ++ (if s.misTol < h - l ∨ s.misTol < l - h then [.diag (.mismatchedPair h l)] else []) ++
        [.stat (.oneWidth { num := h * s.tbNum, den := s.tbDen }), .tap (.bit .one)] }, .one)) ∧
    (¬ (s.oneLo ≤ h ∧ h ≤ s.oneHi) → s.isLong h = true → s.isLong l = true →
      bcClassify { high := h, low := l } s = ({ s with
        outEvents := s.outEvents ++
          [.stat (.zeroWidth { num := h * s.tbNum, den := s.tbDen }), .tap (.bit .zero)] }, .zero)) ∧
    (¬ (s.oneLo ≤ h ∧ h ≤ s.oneHi) → ¬ (s.isLong h = true ∧ s.isLong l = true) →
      bcClassify { high := h, low := l } s = ({ s with
        outEvents := s.outEvents ++ [.diag (.unknownBit h l), .tap (.bit .unknown)] }, .unknown))

/-- R134: the One window and the long region overlap exactly for timebases in [95/3, 32], in [95/2, 64] and from 95
upward. It rests on the exact arithmetic that the spec has decided on (92_eei_decisions.md D4, D5). -/
def Obligations.OneWindowMeetsLongRegionExactly : Prop :=
  ∀ s : State, 1 ≤ s.tbNum → 1 ≤ s.tbDen → ∀ tb : ℚ, tb = (s.tbNum : ℚ) / (s.tbDen : ℚ) →
    ((∃ h, s.oneLo ≤ h ∧ h ≤ s.oneHi ∧ s.isLong h = true) ↔
      (95 / 3 ≤ tb ∧ tb ≤ 32) ∨ (95 / 2 ≤ tb ∧ tb ≤ 64) ∨ 95 ≤ tb)

/-! ## Frame Decoder -/

/-- R151 to R154: the transitions in SEEK. The unlimited count, the garbage flag kept to the end of the pass, the
statistic at the accepted start bit, the count 0 after a corrupt start and the count 0 on entering READ are the spec's own
decisions (92_eei_decisions.md D12, D11, D10, D9, D13). The premises on the packet registers in the last clause are R162 a, which every step
keeps (EveryStepKeepsTheStateLegal). -/
def Obligations.SeekTransitions : Prop :=
  ∀ s : State, s.fdState = .seek →
    fdBit .one s = ({ s with fdCnt := s.fdCnt + 1 }, none) ∧
    (s.fdCnt < 10 → ∀ b, b = .zero ∨ b = .unknown → fdBit b s = ({ s with
      fdCnt := 0, fdGlog := true
      outEvents := s.outEvents ++ (if s.fdGlog = true then [] else [.diag .garbage]) }, none)) ∧
    (10 ≤ s.fdCnt → fdBit .zero s = ({ s with
      fdState := .read, fdCnt := 0, fdByte := 0#8, fdNbits := 0, fdPkt := []
      outEvents := s.outEvents ++ [.stat (.preambleLen s.fdCnt)] }, none)) ∧
    (10 ≤ s.fdCnt → s.fdPkt = [] → s.fdByte = 0#8 → s.fdNbits = 0 → fdBit .unknown s = ({ s with
      fdCnt := 0, outEvents := s.outEvents ++ [.diag .corruptPacket] }, none))

/-- R155 to R158: the transitions in READ. -/
def Obligations.ReadTransitions : Prop :=
  ∀ s : State, s.fdState = .read →
    (s.fdNbits < 8 → ∀ (b : BitVal) (v : Nat), (b = .one ∧ v = 1) ∨ (b = .zero ∧ v = 0) →
      fdBit b s = ({ s with
        fdByte := BitVec.ofNat 8 (s.fdByte.toNat * 2 + v), fdNbits := s.fdNbits + 1 }, none)) ∧
    (s.fdNbits = 8 → fdBit .one s = ({ s with
      fdPkt := s.fdPkt ++ [(s.fdPkt.length, s.fdByte)], fdByte := 0#8, fdNbits := 0 }, none)) ∧
    (s.fdNbits = 8 → fdBit .zero s = ({ s with
      fdPkt := [], fdByte := 0#8, fdNbits := 0, fdState := .seek, fdCnt := 1
      outEvents := s.outEvents ++ [.tap (.packet (s.fdPkt.bytes ++ [s.fdByte]))] },
      some (s.fdPkt.bytes ++ [s.fdByte]))) ∧
    fdBit .unknown s = ({ s with
      fdPkt := [], fdByte := 0#8, fdNbits := 0, fdState := .seek, fdCnt := 0
      outEvents := s.outEvents ++ [.diag .corruptPacket] }, none)

/-- R82, R162 e, R163: a packet of at least one byte after `p` Ones is framed exactly, from any state that seeks a
preamble with a count `c`, wherever `c + p` is at least 10: one preamble statistic, of `c + p`, one packet, nothing
else, and the count left at 1. From the reset state `c` is 0; after a packet `c` is 1, so 9 Ones suffice. -/
def Obligations.FramedPacketComesBackWhole : Prop :=
  ∀ (s : State) (p : Nat) (packet : List Byte), s.fdState = .seek → 10 ≤ s.fdCnt + p → packet ≠ [] →
    fdBits (frameBits p packet) s = ({ s with
      fdState := .seek, fdCnt := 1, fdByte := 0#8, fdNbits := 0, fdPkt := []
      outEvents := s.outEvents ++ [.stat (.preambleLen (s.fdCnt + p)), .tap (.packet packet)] }, [packet])

/-- R163: with too few Ones the Zero is garbage, nothing is framed by it, and the count starts again from 0. -/
def Obligations.ShortPreambleIsGarbage : Prop :=
  ∀ (s : State) (p : Nat), s.fdState = .seek → s.fdCnt + p < 10 →
    fdBits (List.replicate p .one ++ [.zero]) s = ({ s with
      fdCnt := 0, fdGlog := true
      outEvents := s.outEvents ++ (if s.fdGlog = true then [] else [.diag .garbage]) }, [])

/-- R159, R236: the diagnostic at the end of the bit sequence, and no register written. That the whole of READ counts is
the spec's own decision (92_eei_decisions.md D14). -/
def Obligations.EndInsidePreambleOrPacketIsReported : Prop :=
  ∀ s : State,
    (s.fdState = .read ∨ 0 < s.fdCnt →
      fdEnd s = { s with outEvents := s.outEvents ++ [.diag .partialAtEnd] }) ∧
    (¬ (s.fdState = .read ∨ 0 < s.fdCnt) → fdEnd s = s)

/-- R234, R152: every step keeps that the pass has reported garbage once if FD_GLOG is set and never if it is not. That
the flag lasts the whole pass is the spec's own decision (92_eei_decisions.md D11); that the output list of the pass is
held in the state is the model's (DESIGN CHOICE, log 2). -/
def Obligations.GarbageReportedAtMostOncePerPass : Prop :=
  ∀ s t : State, (anomaliesOf s.outEvents).count .garbage = (if s.fdGlog = true then 1 else 0) →
    step s = .next t → (anomaliesOf t.outEvents).count .garbage = (if t.fdGlog = true then 1 else 0)

/-- R61: in one step the packet buffer is kept, emptied, or extended by one byte at its end; no byte of it is ever
changed. -/
def Obligations.PacketBufferOnlyGrowsOrEmpties : Prop :=
  ∀ s t : State, step s = .next t →
    t.fdPkt = s.fdPkt ∨ t.fdPkt = [] ∨ t.fdPkt = s.fdPkt ++ [(s.fdPkt.length, s.fdByte)]

/-! ## Checksum Validator -/

/-- R184: a packet whose last byte is the exclusive-or of the others passes; flipping one bit of one data byte of a
packet that passes makes it fail; a packet fails exactly when the exclusive-or of all its bytes is not 0; the
all-zero packet of any length passes. -/
def Obligations.ChecksumProperties : Prop :=
  (∀ payload : List Byte, checksumOk (payload ++ [xorBytes payload]) = true) ∧
  (∀ (packet : List Byte) (k j : Nat) (b : Byte), checksumOk packet = true → k + 1 < packet.length → j < 8 →
    packet[k]? = some b → checksumOk (packet.set k (b ^^^ (1#8 <<< j))) = false) ∧
  (∀ packet : List Byte, packet ≠ [] → (checksumOk packet = false ↔ xorBytes packet ≠ 0#8)) ∧
  (∀ m : Nat, 1 ≤ m → checksumOk (List.replicate m 0#8) = true)

/-- R180 to R183: the packet is the payload followed by a byte; it passes exactly when that byte is the exclusive-or
of the payload; then the payload is interpreted, otherwise the diagnostic with both bytes and the whole packet are
reported and nothing is interpreted. The diagnostic's content and the bytes of the error form are the spec's own
decisions (92_eei_decisions.md D16, D17). -/
def Obligations.ChecksumRoutesThePacket : Prop :=
  ∀ (payload : List Byte) (c : Byte) (s : State),
    (c = payload.foldl (· ^^^ ·) 0#8 → ckPacket (payload ++ [c]) s = interpretPayload payload { s with ckOk := true }) ∧
    (c ≠ payload.foldl (· ^^^ ·) 0#8 → ckPacket (payload ++ [c]) s = .next { s with
      ckOk := false
      outEvents := s.outEvents ++ [.diag (.checksumMismatch (payload.foldl (· ^^^ ·) 0#8) c),
        .result (.checksumError (payload ++ [c]))] })

/-! ## The step -/

/-- R264, R215, R239: a step is total on legal states: it never faults and is never refused. -/
def Obligations.StepIsTotalOnLegalStates : Prop :=
  ∀ s : State, s.Inv → ∃ t, step s = .next t

/-- R20, R23, R24, R40, R162: every step from a legal state ends in a legal state. That FD_CNT is 0 in READ is the spec's
own decision (92_eei_decisions.md D13). R36 to R38 say only that CUR, TGT and CK_OK live inside one step; that they are 0,
All and 0 between steps, with the interpreter idle and its payload empty (`State.Between`), is the model's choice (DESIGN
CHOICE, log 5). -/
def Obligations.EveryStepKeepsTheStateLegal : Prop :=
  ∀ s t : State, s.Inv → step s = .next t → t.Inv

/-- R260: the state after reset is legal, with any legal timebase. The reset values are the spec's own decision
(92_eei_decisions.md D30); the timebase 1/1 of `State.reset`, and the values of the registers that live only inside a step,
are the model's choice (DESIGN CHOICE, logs 4 and 5). -/
def Obligations.ResetStateIsLegal : Prop :=
  State.reset.Inv ∧ ∀ n d : Nat, 1 ≤ n → 1 ≤ d → ∃ s, resetWith n d = .next s ∧ s.Inv ∧ s.RunsOk ∧ s.PendingOk

/-- R265, R111, R120, R121: a step on a sample that does not complete a pair, whole: the first sample of the pass
and a sample of the run in progress give no output; a closed high run is parked and gives its Run only; a closed low
run without a parked high gives its Run only. The registers that live only inside a step keep the values the model has
chosen for them between steps (DESIGN CHOICE, log 5). -/
def Obligations.SampleStepsWithoutAPair : Prop :=
  ∀ (s : State) (v : Int) (q : List InEvent), s.Inv → s.done = false → s.inEvents = .sample v :: q →
    (s.eeValid = false → step s =
      .next { s with eeValid := true, eePol := if 0 ≤ v then .high else .low, eeDur := 1, inEvents := q }) ∧
    (s.eeValid = true → (s.eePol = .high ↔ 0 ≤ v) → step s =
      .next { s with eeDur := s.eeDur + 1, inEvents := q }) ∧
    (s.eeValid = true → s.eePol = .high → v < 0 → step s =
      .next { s with eePol := .low, eeDur := 1, dpPend := some s.eeDur, inEvents := q
                     outEvents := s.outEvents ++ [.tap (.run .high s.eeDur)] }) ∧
    (s.eeValid = true → s.eePol = .low → 0 ≤ v → s.dpPend = none → step s =
      .next { s with eePol := .high, eeDur := 1, inEvents := q
                     outEvents := s.outEvents ++ [.tap (.run .low s.eeDur)] })

/-- R264, R265, R131 to R136, R151 to R158, R182: the step of the first high sample after a low run that completes a pair,
whole, for every bit the pair can encode and every transition of the Frame Decoder: the run, the pair, the classifier's
events, then the transition's, and, where it ends a packet, what the packet's checksum and payload give
(`packetEvents`, of which ChecksumRoutesThePacket and InterpreterGivesExactlyTheRulesResults speak, with their
decisions). The spec's own decisions in this (92_eei_decisions.md): the order of the stages' events D31 and of the
classifier's D8, statistics for One and Zero alone D7, the count after a corrupt start D9, the preamble statistic D10,
the garbage flag D11, the unlimited count D12, the count 0 on entering READ D13, and a failed packet's diagnostic D16 and
routing D17. A width statistic is the unreduced pair of R136 (DEDUCED, log 12). That CK_OK, CUR, TGT, the interpreter's
payload and its phase are after the step what they were before it, also where a packet was interpreted, is the model's
choice of their values between steps (DESIGN CHOICE, log 5). -/
def Obligations.StepThatCompletesAPair : Prop :=
  ∀ (s : State) (v : Int) (q : List InEvent) (h : Nat), s.Inv → s.done = false →
    s.inEvents = .sample v :: q → 0 ≤ v → s.eeValid = true → s.eePol = .low → s.dpPend = some h →
    ∀ (b : BitVal) (classified : List OutEvent),
      ((s.oneLo ≤ h ∧ h ≤ s.oneHi) ∧ b = .one ∧ classified =
          (if s.misTol < h - s.eeDur ∨ s.misTol < s.eeDur - h then [.diag (.mismatchedPair h s.eeDur)] else []) ++
            [.stat (.oneWidth { num := h * s.tbNum, den := s.tbDen }), .tap (.bit .one)] ∨
        ¬ (s.oneLo ≤ h ∧ h ≤ s.oneHi) ∧ (s.isLong h = true ∧ s.isLong s.eeDur = true) ∧ b = .zero ∧ classified =
          [.stat (.zeroWidth { num := h * s.tbNum, den := s.tbDen }), .tap (.bit .zero)] ∨
        ¬ (s.oneLo ≤ h ∧ h ≤ s.oneHi) ∧ ¬ (s.isLong h = true ∧ s.isLong s.eeDur = true) ∧ b = .unknown ∧ classified =
          [.diag (.unknownBit h s.eeDur), .tap (.bit .unknown)]) →
    ∀ u : State,
      u = { s with
        eePol := .high, eeDur := 1, dpPend := none, inEvents := q
        outEvents := s.outEvents ++ [.tap (.run .low s.eeDur), .tap (.pair h s.eeDur)] ++ classified } →
      (s.fdState = .seek → b = .one → step s = .next { u with fdCnt := s.fdCnt + 1 }) ∧
      (s.fdState = .seek → b ≠ .one → s.fdCnt < 10 → step s = .next { u with
        fdCnt := 0, fdGlog := true
        outEvents := u.outEvents ++ (if s.fdGlog = true then [] else [.diag .garbage]) }) ∧
      (s.fdState = .seek → b = .zero → 10 ≤ s.fdCnt → step s = .next { u with
        fdState := .read, fdCnt := 0, fdByte := 0#8, fdNbits := 0, fdPkt := []
        outEvents := u.outEvents ++ [.stat (.preambleLen s.fdCnt)] }) ∧
      (s.fdState = .seek → b = .unknown → 10 ≤ s.fdCnt → step s = .next { u with
        fdCnt := 0, outEvents := u.outEvents ++ [.diag .corruptPacket] }) ∧
      (s.fdState = .read → s.fdNbits < 8 → ∀ d : Nat, b = .one ∧ d = 1 ∨ b = .zero ∧ d = 0 → step s = .next { u with
        fdByte := BitVec.ofNat 8 (s.fdByte.toNat * 2 + d), fdNbits := s.fdNbits + 1 }) ∧
      (s.fdState = .read → s.fdNbits = 8 → b = .one → step s = .next { u with
        fdPkt := s.fdPkt ++ [(s.fdPkt.length, s.fdByte)], fdByte := 0#8, fdNbits := 0 }) ∧
      (s.fdState = .read → s.fdNbits = 8 → b = .zero → step s = .next { u with
        fdState := .seek, fdCnt := 1, fdByte := 0#8, fdNbits := 0, fdPkt := []
        outEvents := u.outEvents ++ [.tap (.packet (s.fdPkt.bytes ++ [s.fdByte]))] ++
          packetEvents (s.fdPkt.bytes ++ [s.fdByte]) }) ∧
      (s.fdState = .read → b = .unknown → step s = .next { u with
        fdState := .seek, fdCnt := 0, fdByte := 0#8, fdNbits := 0, fdPkt := []
        outEvents := u.outEvents ++ [.diag .corruptPacket] })

/-- R241: the anomalies of one step on a sample are none or exactly one of the seven sets the rule lists, in stage
order; on End the same, with PartialAtEnd after them exactly when the decoder is then inside a preamble or a packet,
which it never is after Garbage or CorruptPacket. That the whole of READ counts for PartialAtEnd, and that a corrupt start
zeroes the count, are the spec's own decisions (92_eei_decisions.md D14, D9). -/
def Obligations.AnomaliesOfOneStep : Prop :=
  ∀ (s t : State) (ev : InEvent) (q : List InEvent), s.Inv → s.done = false → s.inEvents = ev :: q →
    step s = .next t →
    ∃ as : List Anomaly,
      (as = [] ∨ as = [.garbage] ∨ (∃ h l, as = [.unknownBit h l]) ∨ (∃ h l, as = [.unknownBit h l, .garbage]) ∨
        (∃ h l, as = [.unknownBit h l, .corruptPacket]) ∨ (∃ h l, as = [.mismatchedPair h l]) ∨
        (∃ c r, as = [.checksumMismatch c r]) ∨ (∃ p, as = [.unknownLayout p])) ∧
      (∀ v, ev = .sample v → anomaliesOf (newEvents s t) = as) ∧
      (ev = .endOfInput → anomaliesOf (newEvents s t) =
          as ++ (if t.fdState = .read ∨ 0 < t.fdCnt then [.partialAtEnd] else []) ∧
        (.garbage ∈ as ∨ .corruptPacket ∈ as → t.fdState = .seek ∧ t.fdCnt = 0))

/-- R241, R238, R208: the interpretation of every payload answers a next state, and among the results it appends there is
at most one UnknownPacket, which is the last of them. That it carries the payload, from its first byte and without the
checksum, and that the results before it stand, are the spec's own decisions (92_eei_decisions.md D26, D25; log 20). -/
def Obligations.UnknownPacketIsThePacketsLastResult : Prop :=
  ∀ (payload : List Byte) (s : State), ∃ (t : State) (rs : List Result),
    interpretPayload payload s = .next t ∧ t.outEvents = s.outEvents ++ rs.map .result ∧
    ∀ (pre post : List Result) (p : List Byte), rs = pre ++ .unknownPacket p :: post →
      p = payload ∧ post = [] ∧ ∀ p', .unknownPacket p' ∉ pre

/-- R266, R236, R122: the End step sets DONE; PartialAtEnd is its last event exactly when the decoder is then inside
a preamble or a packet; a high run in progress is left pending, unpaired. With no run in progress nothing else happens;
with one, the End step is the step of a sample of the other polarity, which flushes the same run through the same
stages, except that no new run begins, that PartialAtEnd follows where it is due, and that DONE is set. That the whole of
READ counts for PartialAtEnd is the spec's own decision (92_eei_decisions.md D14); the values of the registers that live
only inside a step are the model's choice (DESIGN CHOICE, log 5). -/
def Obligations.EndStepFinishesThePass : Prop :=
  (∀ (s t : State) (q : List InEvent), s.Inv → s.done = false → s.inEvents = .endOfInput :: q → step s = .next t →
    t.done = true ∧ t.inEvents = q ∧
    (t.fdState = .read ∨ 0 < t.fdCnt → t.outEvents.getLast? = some (.diag .partialAtEnd)) ∧
    (¬ (t.fdState = .read ∨ 0 < t.fdCnt) → .diag .partialAtEnd ∉ newEvents s t) ∧
    (s.eeValid = true → s.eePol = .high → t.dpPend = some s.eeDur ∧ ∀ h l, .tap (.pair h l) ∉ newEvents s t)) ∧
  (∀ (s : State) (q : List InEvent), s.Inv → s.done = false → s.inEvents = .endOfInput :: q → s.eeValid = false →
    step s = .next { s with
      done := true, inEvents := q
      outEvents := s.outEvents ++ (if s.fdState = .read ∨ 0 < s.fdCnt then [.diag .partialAtEnd] else []) }) ∧
  (∀ (s : State) (q : List InEvent) (v : Int), s.Inv → s.done = false → s.inEvents = .endOfInput :: q →
    s.eeValid = true → (s.eePol = .high ↔ v < 0) →
    ∃ u : State, step { s with inEvents := .sample v :: q } = .next u ∧
      step s = .next { u with
        eePol := s.eePol, eeDur := s.eeDur, done := true
        outEvents := u.outEvents ++ (if u.fdState = .read ∨ 0 < u.fdCnt then [.diag .partialAtEnd] else []) })

/-- R267: after End every input event leaves the state unchanged and produces no output (the spec's own decision,
92_eei_decisions.md D14). That the event leaves the queue is the model's (DEDUCED, log 16). -/
def Obligations.InputAfterEndIsIgnored : Prop :=
  ∀ (s : State) (ev : InEvent) (q : List InEvent), s.ciPhase = .idle → s.done = true → s.inEvents = ev :: q →
    step s = .next { s with inEvents := q }

/-- R50, R55, R268, R70 b: a step takes the oldest input event, if there is one, and only appends to the output. The two
queues are the model's (logs 1 and 2). -/
def Obligations.StepTakesOneEventAndAppendsOutput : Prop :=
  ∀ s t : State, s.ciPhase = .idle → step s = .next t →
    t.inEvents = s.inEvents.tail ∧ s.outEvents <+: t.outEvents

/-- R40, R270: no step changes the timebase; R31: no step clears DONE; R30: none clears FD_GLOG; R21: none clears
EE_VALID. All four are the spec's own decisions (92_eei_decisions.md): the latched timebase D38, DONE to the next reset
D14, the garbage flag to the end of the pass D11, and EE_VALID, which reset alone clears, D30. -/
def Obligations.LatchedBitsAndTimebaseStay : Prop :=
  ∀ s t : State, step s = .next t →
    t.tbNum = s.tbNum ∧ t.tbDen = s.tbDen ∧ (s.done = true → t.done = true) ∧
    (s.fdGlog = true → t.fdGlog = true) ∧ (s.eeValid = true → t.eeValid = true)

/-! ## Reset, status, finite widths -/

/-- R260, R261, R263, R137: reset with a legal timebase loads every register whose reset value the spec gives (the spec's
own decision, 92_eei_decisions.md D30) and reports a coarse timebase, and only that (D6); an illegal one is refused (D4). -/
def Obligations.ResetLoadsTheRegisters : Prop :=
  (∀ n d : Nat, 1 ≤ n → 1 ≤ d → ∃ s, resetWith n d = .next s ∧
    s.tbNum = n ∧ s.tbDen = d ∧ s.eeValid = false ∧ s.dpPend = none ∧ s.fdState = .seek ∧ s.fdCnt = 0 ∧
    s.fdByte = 0#8 ∧ s.fdNbits = 0 ∧ s.fdPkt = [] ∧ s.fdGlog = false ∧ s.done = false ∧
    s.outEvents = (if 40 * d < n then [.diag (.timebaseCoarse n d)] else [])) ∧
  (∀ n d : Nat, n = 0 ∨ d = 0 → resetWith n d = .refused .illegalTimebase)

/-- R42: STATUS bit 0 is DONE, bit 1 is TB > 40, bit 2 is FD_GLOG (the spec's own grouping, 92_eei_decisions.md D32). -/
def Obligations.StatusBits : Prop :=
  ∀ s : State, s.status.getLsbD 0 = s.done ∧ (s.status.getLsbD 1 = true ↔ 40 * s.tbDen < s.tbNum) ∧
    s.status.getLsbD 2 = s.fdGlog

/-- R7, R61: a realisation of finite widths, whatever they are, either does the reference step or refuses. It does the
reference step wherever every run, the preamble count, the packet buffer and every packet emitted are inside its
widths, and refuses where any one of them is not, whatever the other widths; so it refuses a byte that is due where the
buffer is full. That there are such widths and that a longer input is refused are the spec's own decisions
(92_eei_decisions.md D3, D15); the moment of the refusal is DEDUCED (log 13). -/
def Obligations.FiniteWidthsConformOrRefuse : Prop :=
  (∀ s : State, stepFinite Widths.reference s = step s) ∧
  (∀ (w : Widths) (s t : State), step s = .next t → stepFinite w s = .next t ∨ stepFinite w s = .refused .beyondWidths) ∧
  (∀ (w : Widths) (s t : State), step s = .next t →
    (∀ dw, w.durW = some dw → t.eeDur ≤ 2 ^ dw - 1 ∧ ∀ h, t.dpPend = some h → h ≤ 2 ^ dw - 1) →
    (∀ cw, w.cntW = some cw → t.fdCnt ≤ 2 ^ cw - 1) →
    (∀ m, w.pktMax = some m → t.fdPkt.length ≤ m ∧ ∀ p ∈ packetsOf (newEvents s t), p.length ≤ m) →
    stepFinite w s = .next t) ∧
  (∀ (w : Widths) (s t : State) (dw : Nat), step s = .next t → w.durW = some dw →
    (2 ^ dw - 1 < t.eeDur ∨ ∃ h, t.dpPend = some h ∧ 2 ^ dw - 1 < h) → stepFinite w s = .refused .beyondWidths) ∧
  (∀ (w : Widths) (s t : State) (cw : Nat), step s = .next t → w.cntW = some cw → 2 ^ cw - 1 < t.fdCnt →
    stepFinite w s = .refused .beyondWidths) ∧
  (∀ (w : Widths) (s t : State) (m : Nat), step s = .next t → w.pktMax = some m →
    (m < t.fdPkt.length ∨ ∃ p ∈ packetsOf (newEvents s t), m < p.length) → stepFinite w s = .refused .beyondWidths)
end

