-- ==== Sys2Proof/Laws/Decode.lean ====
section
/-! SUPPORT. What the decoder can answer, level by level. -/

namespace Sys2Proof

/-- A byte that is not SPEED128 decodes to one of the other instruction forms; all but UNKNOWN_INSTR are one byte. -/
theorem decodeInstrByte_cases (toAll : Bool) (b : Byte) (rest : List Byte) :
    (∃ d c s, decodeInstrByte toAll b rest = .speed28 d c s) ∨
    (∃ fl f4 f3 f2 f1, decodeInstrByte toAll b rest = .fg1 fl f4 f3 f2 f1) ∨
    (∃ f8 f7 f6 f5, decodeInstrByte toAll b rest = .fg2Hi f8 f7 f6 f5) ∨
    (∃ f12 f11 f10 f9, decodeInstrByte toAll b rest = .fg2Lo f12 f11 f10 f9) ∨
    (toAll = true ∧ b = 0x00#8 ∧ decodeInstrByte toAll b rest = .resetAll) ∨
    decodeInstrByte toAll b rest = .unknownInstr b rest := by
  unfold decodeInstrByte
  split
  · exact .inl ⟨_, _, _, rfl⟩
  split
  · exact .inr (.inl ⟨_, _, _, _, _, rfl⟩)
  split
  · split
    · exact .inr (.inr (.inl ⟨_, _, _, _, rfl⟩))
    · exact .inr (.inr (.inr (.inl ⟨_, _, _, _, rfl⟩)))
  split
  · rename_i h
    exact .inr (.inr (.inr (.inr (.inl ⟨h.1, h.2, rfl⟩))))
  · exact .inr (.inr (.inr (.inr (.inr rfl))))

/-- At the instruction level bytes decode to SPEED128, which takes the first two, or as their first byte decides. -/
theorem decodeInstruction_cases {toAll : Bool} {bs : List Byte} {i : Instr}
    (h : decodeInstruction toAll bs = .ok i) :
    (∃ (d : Byte) (rest : List Byte), bs = 0x3F#8 :: d :: rest ∧ i = .speed128 (d.bit 7) (d.slice 0 7)) ∨
    (∃ b rest, bs = b :: rest ∧ (b = 0x3F#8 → rest = []) ∧ i = decodeInstrByte toAll b rest) := by
  have key : ∀ b : Byte, b.slice 5 3 = 0b001#3 ∧ b.slice 0 5 = 0b11111#5 ↔ b = 0x3F#8 := by decide
  cases bs with
  | nil => cases h
  | cons b rest =>
    simp only [decodeInstruction, key] at h
    split at h
    · rename_i hb
      subst hb
      cases rest with
      | nil => cases h; exact .inr ⟨_, [], rfl, fun _ => rfl, rfl⟩
      | cons d rest => cases h; exact .inl ⟨d, rest, rfl, rfl⟩
    · rename_i hb
      cases h
      exact .inr ⟨b, rest, rfl, fun h => absurd h hb, rfl⟩

/-- The instruction level gives instruction forms only. -/
theorem decodeInstruction_isAddress {toAll : Bool} {bs : List Byte} {i : Instr}
    (h : decodeInstruction toAll bs = .ok i) : i.isAddress = false := by
  rcases decodeInstruction_cases h with ⟨d, rest, -, rfl⟩ | ⟨b, rest, -, -, rfl⟩
  · rfl
  · rcases decodeInstrByte_cases toAll b rest with ⟨_, _, _, h⟩ | ⟨_, _, _, _, _, h⟩ | ⟨_, _, _, _, h⟩ |
      ⟨_, _, _, _, h⟩ | ⟨-, -, h⟩ | h <;> rw [h] <;> rfl

/-- The instruction level refuses only when no byte is left. -/
theorem decodeInstruction_cons (toAll : Bool) (b : Byte) (rest : List Byte) :
    ∃ i, decodeInstruction toAll (b :: rest) = .ok i := by
  simp only [decodeInstruction]
  split
  · cases rest with
    | nil => exact ⟨_, rfl⟩
    | cons d rest => exact ⟨_, rfl⟩
  · exact ⟨_, rfl⟩

/-- The address level gives address forms only. -/
theorem decodeAddress_isAddress (bs : List Byte) : (decodeAddress bs).isAddress = true := by
  cases bs with
  | nil => rfl
  | cons b rest =>
    simp only [decodeAddress]
    split
    · rfl
    split
    · split <;> rfl
    split
    · cases rest <;> rfl
    · split <;> rfl

end Sys2Proof
end

