-- ==== Sys2Proof/Laws/State.lean ====
section
/-! SUPPORT. One lemma for each field of State and each operation that updates it, true by rfl, so that no proof
unfolds a record update; and the two forms every report of the interpreter has. -/

namespace Sys2Proof.Machine

@[simp] theorem emit_tbNum (e : OutEvent) (s : State) : (emit e s).tbNum = s.tbNum := rfl
@[simp] theorem emit_tbDen (e : OutEvent) (s : State) : (emit e s).tbDen = s.tbDen := rfl
@[simp] theorem emit_eeValid (e : OutEvent) (s : State) : (emit e s).eeValid = s.eeValid := rfl
@[simp] theorem emit_eePol (e : OutEvent) (s : State) : (emit e s).eePol = s.eePol := rfl
@[simp] theorem emit_eeDur (e : OutEvent) (s : State) : (emit e s).eeDur = s.eeDur := rfl
@[simp] theorem emit_dpPend (e : OutEvent) (s : State) : (emit e s).dpPend = s.dpPend := rfl
@[simp] theorem emit_fdState (e : OutEvent) (s : State) : (emit e s).fdState = s.fdState := rfl
@[simp] theorem emit_fdCnt (e : OutEvent) (s : State) : (emit e s).fdCnt = s.fdCnt := rfl
@[simp] theorem emit_fdByte (e : OutEvent) (s : State) : (emit e s).fdByte = s.fdByte := rfl
@[simp] theorem emit_fdNbits (e : OutEvent) (s : State) : (emit e s).fdNbits = s.fdNbits := rfl
@[simp] theorem emit_fdPkt (e : OutEvent) (s : State) : (emit e s).fdPkt = s.fdPkt := rfl
@[simp] theorem emit_fdGlog (e : OutEvent) (s : State) : (emit e s).fdGlog = s.fdGlog := rfl
@[simp] theorem emit_done (e : OutEvent) (s : State) : (emit e s).done = s.done := rfl
@[simp] theorem emit_ckOk (e : OutEvent) (s : State) : (emit e s).ckOk = s.ckOk := rfl
@[simp] theorem emit_ciPhase (e : OutEvent) (s : State) : (emit e s).ciPhase = s.ciPhase := rfl
@[simp] theorem emit_ciPayload (e : OutEvent) (s : State) : (emit e s).ciPayload = s.ciPayload := rfl
@[simp] theorem emit_cur (e : OutEvent) (s : State) : (emit e s).cur = s.cur := rfl
@[simp] theorem emit_tgt (e : OutEvent) (s : State) : (emit e s).tgt = s.tgt := rfl
@[simp] theorem emit_inEvents (e : OutEvent) (s : State) : (emit e s).inEvents = s.inEvents := rfl
@[simp] theorem emit_outEvents (e : OutEvent) (s : State) : (emit e s).outEvents = s.outEvents ++ [e] := rfl

@[simp] theorem resync_tbNum (s : State) : (resync s).tbNum = s.tbNum := rfl
@[simp] theorem resync_tbDen (s : State) : (resync s).tbDen = s.tbDen := rfl
@[simp] theorem resync_eeValid (s : State) : (resync s).eeValid = s.eeValid := rfl
@[simp] theorem resync_eePol (s : State) : (resync s).eePol = s.eePol := rfl
@[simp] theorem resync_eeDur (s : State) : (resync s).eeDur = s.eeDur := rfl
@[simp] theorem resync_dpPend (s : State) : (resync s).dpPend = s.dpPend := rfl
@[simp] theorem resync_fdState (s : State) : (resync s).fdState = .seek := rfl
@[simp] theorem resync_fdCnt (s : State) : (resync s).fdCnt = 0 := rfl
@[simp] theorem resync_fdByte (s : State) : (resync s).fdByte = 0#8 := rfl
@[simp] theorem resync_fdNbits (s : State) : (resync s).fdNbits = 0 := rfl
@[simp] theorem resync_fdPkt (s : State) : (resync s).fdPkt = [] := rfl
@[simp] theorem resync_fdGlog (s : State) : (resync s).fdGlog = s.fdGlog := rfl
@[simp] theorem resync_done (s : State) : (resync s).done = s.done := rfl
@[simp] theorem resync_ckOk (s : State) : (resync s).ckOk = s.ckOk := rfl
@[simp] theorem resync_ciPhase (s : State) : (resync s).ciPhase = s.ciPhase := rfl
@[simp] theorem resync_ciPayload (s : State) : (resync s).ciPayload = s.ciPayload := rfl
@[simp] theorem resync_cur (s : State) : (resync s).cur = s.cur := rfl
@[simp] theorem resync_tgt (s : State) : (resync s).tgt = s.tgt := rfl
@[simp] theorem resync_inEvents (s : State) : (resync s).inEvents = s.inEvents := rfl
@[simp] theorem resync_outEvents (s : State) : (resync s).outEvents = s.outEvents := rfl

@[simp] theorem stopInterpreting_tbNum (s : State) : (stopInterpreting s).tbNum = s.tbNum := rfl
@[simp] theorem stopInterpreting_tbDen (s : State) : (stopInterpreting s).tbDen = s.tbDen := rfl
@[simp] theorem stopInterpreting_eeValid (s : State) : (stopInterpreting s).eeValid = s.eeValid := rfl
@[simp] theorem stopInterpreting_eePol (s : State) : (stopInterpreting s).eePol = s.eePol := rfl
@[simp] theorem stopInterpreting_eeDur (s : State) : (stopInterpreting s).eeDur = s.eeDur := rfl
@[simp] theorem stopInterpreting_dpPend (s : State) : (stopInterpreting s).dpPend = s.dpPend := rfl
@[simp] theorem stopInterpreting_fdState (s : State) : (stopInterpreting s).fdState = s.fdState := rfl
@[simp] theorem stopInterpreting_fdCnt (s : State) : (stopInterpreting s).fdCnt = s.fdCnt := rfl
@[simp] theorem stopInterpreting_fdByte (s : State) : (stopInterpreting s).fdByte = s.fdByte := rfl
@[simp] theorem stopInterpreting_fdNbits (s : State) : (stopInterpreting s).fdNbits = s.fdNbits := rfl
@[simp] theorem stopInterpreting_fdPkt (s : State) : (stopInterpreting s).fdPkt = s.fdPkt := rfl
@[simp] theorem stopInterpreting_fdGlog (s : State) : (stopInterpreting s).fdGlog = s.fdGlog := rfl
@[simp] theorem stopInterpreting_done (s : State) : (stopInterpreting s).done = s.done := rfl
@[simp] theorem stopInterpreting_ckOk (s : State) : (stopInterpreting s).ckOk = s.ckOk := rfl
@[simp] theorem stopInterpreting_ciPhase (s : State) : (stopInterpreting s).ciPhase = .idle := rfl
@[simp] theorem stopInterpreting_ciPayload (s : State) : (stopInterpreting s).ciPayload = s.ciPayload := rfl
@[simp] theorem stopInterpreting_cur (s : State) : (stopInterpreting s).cur = s.cur := rfl
@[simp] theorem stopInterpreting_tgt (s : State) : (stopInterpreting s).tgt = s.tgt := rfl
@[simp] theorem stopInterpreting_inEvents (s : State) : (stopInterpreting s).inEvents = s.inEvents := rfl
@[simp] theorem stopInterpreting_outEvents (s : State) : (stopInterpreting s).outEvents = s.outEvents := rfl

@[simp] theorem setTarget_tbNum (t : Target) (c : Nat) (s : State) : (setTarget t c s).tbNum = s.tbNum := rfl
@[simp] theorem setTarget_tbDen (t : Target) (c : Nat) (s : State) : (setTarget t c s).tbDen = s.tbDen := rfl
@[simp] theorem setTarget_eeValid (t : Target) (c : Nat) (s : State) : (setTarget t c s).eeValid = s.eeValid := rfl
@[simp] theorem setTarget_eePol (t : Target) (c : Nat) (s : State) : (setTarget t c s).eePol = s.eePol := rfl
@[simp] theorem setTarget_eeDur (t : Target) (c : Nat) (s : State) : (setTarget t c s).eeDur = s.eeDur := rfl
@[simp] theorem setTarget_dpPend (t : Target) (c : Nat) (s : State) : (setTarget t c s).dpPend = s.dpPend := rfl
@[simp] theorem setTarget_fdState (t : Target) (c : Nat) (s : State) : (setTarget t c s).fdState = s.fdState := rfl
@[simp] theorem setTarget_fdCnt (t : Target) (c : Nat) (s : State) : (setTarget t c s).fdCnt = s.fdCnt := rfl
@[simp] theorem setTarget_fdByte (t : Target) (c : Nat) (s : State) : (setTarget t c s).fdByte = s.fdByte := rfl
@[simp] theorem setTarget_fdNbits (t : Target) (c : Nat) (s : State) : (setTarget t c s).fdNbits = s.fdNbits := rfl
@[simp] theorem setTarget_fdPkt (t : Target) (c : Nat) (s : State) : (setTarget t c s).fdPkt = s.fdPkt := rfl
@[simp] theorem setTarget_fdGlog (t : Target) (c : Nat) (s : State) : (setTarget t c s).fdGlog = s.fdGlog := rfl
@[simp] theorem setTarget_done (t : Target) (c : Nat) (s : State) : (setTarget t c s).done = s.done := rfl
@[simp] theorem setTarget_ckOk (t : Target) (c : Nat) (s : State) : (setTarget t c s).ckOk = s.ckOk := rfl
@[simp] theorem setTarget_ciPhase (t : Target) (c : Nat) (s : State) : (setTarget t c s).ciPhase = .instruction := rfl
@[simp] theorem setTarget_ciPayload (t : Target) (c : Nat) (s : State) : (setTarget t c s).ciPayload = s.ciPayload := rfl
@[simp] theorem setTarget_cur (t : Target) (c : Nat) (s : State) : (setTarget t c s).cur = c := rfl
@[simp] theorem setTarget_tgt (t : Target) (c : Nat) (s : State) : (setTarget t c s).tgt = t := rfl
@[simp] theorem setTarget_inEvents (t : Target) (c : Nat) (s : State) : (setTarget t c s).inEvents = s.inEvents := rfl
@[simp] theorem setTarget_outEvents (t : Target) (c : Nat) (s : State) : (setTarget t c s).outEvents = s.outEvents := rfl

@[simp] theorem advance_tbNum (k : Nat) (s : State) : (advance k s).tbNum = s.tbNum := rfl
@[simp] theorem advance_tbDen (k : Nat) (s : State) : (advance k s).tbDen = s.tbDen := rfl
@[simp] theorem advance_eeValid (k : Nat) (s : State) : (advance k s).eeValid = s.eeValid := rfl
@[simp] theorem advance_eePol (k : Nat) (s : State) : (advance k s).eePol = s.eePol := rfl
@[simp] theorem advance_eeDur (k : Nat) (s : State) : (advance k s).eeDur = s.eeDur := rfl
@[simp] theorem advance_dpPend (k : Nat) (s : State) : (advance k s).dpPend = s.dpPend := rfl
@[simp] theorem advance_fdState (k : Nat) (s : State) : (advance k s).fdState = s.fdState := rfl
@[simp] theorem advance_fdCnt (k : Nat) (s : State) : (advance k s).fdCnt = s.fdCnt := rfl
@[simp] theorem advance_fdByte (k : Nat) (s : State) : (advance k s).fdByte = s.fdByte := rfl
@[simp] theorem advance_fdNbits (k : Nat) (s : State) : (advance k s).fdNbits = s.fdNbits := rfl
@[simp] theorem advance_fdPkt (k : Nat) (s : State) : (advance k s).fdPkt = s.fdPkt := rfl
@[simp] theorem advance_fdGlog (k : Nat) (s : State) : (advance k s).fdGlog = s.fdGlog := rfl
@[simp] theorem advance_done (k : Nat) (s : State) : (advance k s).done = s.done := rfl
@[simp] theorem advance_ckOk (k : Nat) (s : State) : (advance k s).ckOk = s.ckOk := rfl
@[simp] theorem advance_ciPhase (k : Nat) (s : State) : (advance k s).ciPhase = s.ciPhase := rfl
@[simp] theorem advance_ciPayload (k : Nat) (s : State) : (advance k s).ciPayload = s.ciPayload := rfl
@[simp] theorem advance_cur (k : Nat) (s : State) : (advance k s).cur = s.cur + k := rfl
@[simp] theorem advance_tgt (k : Nat) (s : State) : (advance k s).tgt = s.tgt := rfl
@[simp] theorem advance_inEvents (k : Nat) (s : State) : (advance k s).inEvents = s.inEvents := rfl
@[simp] theorem advance_outEvents (k : Nat) (s : State) : (advance k s).outEvents = s.outEvents := rfl

@[simp] theorem enterInterpreter_tbNum (p : List Byte) (s : State) : (enterInterpreter p s).tbNum = s.tbNum := rfl
@[simp] theorem enterInterpreter_tbDen (p : List Byte) (s : State) : (enterInterpreter p s).tbDen = s.tbDen := rfl
@[simp] theorem enterInterpreter_eeValid (p : List Byte) (s : State) : (enterInterpreter p s).eeValid = s.eeValid := rfl
@[simp] theorem enterInterpreter_eePol (p : List Byte) (s : State) : (enterInterpreter p s).eePol = s.eePol := rfl
@[simp] theorem enterInterpreter_eeDur (p : List Byte) (s : State) : (enterInterpreter p s).eeDur = s.eeDur := rfl
@[simp] theorem enterInterpreter_dpPend (p : List Byte) (s : State) : (enterInterpreter p s).dpPend = s.dpPend := rfl
@[simp] theorem enterInterpreter_fdState (p : List Byte) (s : State) : (enterInterpreter p s).fdState = s.fdState := rfl
@[simp] theorem enterInterpreter_fdCnt (p : List Byte) (s : State) : (enterInterpreter p s).fdCnt = s.fdCnt := rfl
@[simp] theorem enterInterpreter_fdByte (p : List Byte) (s : State) : (enterInterpreter p s).fdByte = s.fdByte := rfl
@[simp] theorem enterInterpreter_fdNbits (p : List Byte) (s : State) : (enterInterpreter p s).fdNbits = s.fdNbits := rfl
@[simp] theorem enterInterpreter_fdPkt (p : List Byte) (s : State) : (enterInterpreter p s).fdPkt = s.fdPkt := rfl
@[simp] theorem enterInterpreter_fdGlog (p : List Byte) (s : State) : (enterInterpreter p s).fdGlog = s.fdGlog := rfl
@[simp] theorem enterInterpreter_done (p : List Byte) (s : State) : (enterInterpreter p s).done = s.done := rfl
@[simp] theorem enterInterpreter_ckOk (p : List Byte) (s : State) : (enterInterpreter p s).ckOk = s.ckOk := rfl
@[simp] theorem enterInterpreter_ciPhase (p : List Byte) (s : State) : (enterInterpreter p s).ciPhase = .address := rfl
@[simp] theorem enterInterpreter_ciPayload (p : List Byte) (s : State) : (enterInterpreter p s).ciPayload = p := rfl
@[simp] theorem enterInterpreter_cur (p : List Byte) (s : State) : (enterInterpreter p s).cur = 0 := rfl
@[simp] theorem enterInterpreter_tgt (p : List Byte) (s : State) : (enterInterpreter p s).tgt = .all := rfl
@[simp] theorem enterInterpreter_inEvents (p : List Byte) (s : State) : (enterInterpreter p s).inEvents = s.inEvents := rfl
@[simp] theorem enterInterpreter_outEvents (p : List Byte) (s : State) : (enterInterpreter p s).outEvents = s.outEvents := rfl

@[simp] theorem endStep_tbNum (s : State) : (endStep s).tbNum = s.tbNum := rfl
@[simp] theorem endStep_tbDen (s : State) : (endStep s).tbDen = s.tbDen := rfl
@[simp] theorem endStep_eeValid (s : State) : (endStep s).eeValid = s.eeValid := rfl
@[simp] theorem endStep_eePol (s : State) : (endStep s).eePol = s.eePol := rfl
@[simp] theorem endStep_eeDur (s : State) : (endStep s).eeDur = s.eeDur := rfl
@[simp] theorem endStep_dpPend (s : State) : (endStep s).dpPend = s.dpPend := rfl
@[simp] theorem endStep_fdState (s : State) : (endStep s).fdState = s.fdState := rfl
@[simp] theorem endStep_fdCnt (s : State) : (endStep s).fdCnt = s.fdCnt := rfl
@[simp] theorem endStep_fdByte (s : State) : (endStep s).fdByte = s.fdByte := rfl
@[simp] theorem endStep_fdNbits (s : State) : (endStep s).fdNbits = s.fdNbits := rfl
@[simp] theorem endStep_fdPkt (s : State) : (endStep s).fdPkt = s.fdPkt := rfl
@[simp] theorem endStep_fdGlog (s : State) : (endStep s).fdGlog = s.fdGlog := rfl
@[simp] theorem endStep_done (s : State) : (endStep s).done = s.done := rfl
@[simp] theorem endStep_ckOk (s : State) : (endStep s).ckOk = false := rfl
@[simp] theorem endStep_ciPhase (s : State) : (endStep s).ciPhase = .idle := rfl
@[simp] theorem endStep_ciPayload (s : State) : (endStep s).ciPayload = [] := rfl
@[simp] theorem endStep_cur (s : State) : (endStep s).cur = 0 := rfl
@[simp] theorem endStep_tgt (s : State) : (endStep s).tgt = .all := rfl
@[simp] theorem endStep_inEvents (s : State) : (endStep s).inEvents = s.inEvents := rfl
@[simp] theorem endStep_outEvents (s : State) : (endStep s).outEvents = s.outEvents := rfl

@[simp] theorem ckValidate_tbNum (p : List Byte) (s : State) : (ckValidate p s).tbNum = s.tbNum := rfl
@[simp] theorem ckValidate_tbDen (p : List Byte) (s : State) : (ckValidate p s).tbDen = s.tbDen := rfl
@[simp] theorem ckValidate_eeValid (p : List Byte) (s : State) : (ckValidate p s).eeValid = s.eeValid := rfl
@[simp] theorem ckValidate_eePol (p : List Byte) (s : State) : (ckValidate p s).eePol = s.eePol := rfl
@[simp] theorem ckValidate_eeDur (p : List Byte) (s : State) : (ckValidate p s).eeDur = s.eeDur := rfl
@[simp] theorem ckValidate_dpPend (p : List Byte) (s : State) : (ckValidate p s).dpPend = s.dpPend := rfl
@[simp] theorem ckValidate_fdState (p : List Byte) (s : State) : (ckValidate p s).fdState = s.fdState := rfl
@[simp] theorem ckValidate_fdCnt (p : List Byte) (s : State) : (ckValidate p s).fdCnt = s.fdCnt := rfl
@[simp] theorem ckValidate_fdByte (p : List Byte) (s : State) : (ckValidate p s).fdByte = s.fdByte := rfl
@[simp] theorem ckValidate_fdNbits (p : List Byte) (s : State) : (ckValidate p s).fdNbits = s.fdNbits := rfl
@[simp] theorem ckValidate_fdPkt (p : List Byte) (s : State) : (ckValidate p s).fdPkt = s.fdPkt := rfl
@[simp] theorem ckValidate_fdGlog (p : List Byte) (s : State) : (ckValidate p s).fdGlog = s.fdGlog := rfl
@[simp] theorem ckValidate_done (p : List Byte) (s : State) : (ckValidate p s).done = s.done := rfl
@[simp] theorem ckValidate_ckOk (p : List Byte) (s : State) : (ckValidate p s).ckOk = checksumOk p := rfl
@[simp] theorem ckValidate_ciPhase (p : List Byte) (s : State) : (ckValidate p s).ciPhase = s.ciPhase := rfl
@[simp] theorem ckValidate_ciPayload (p : List Byte) (s : State) : (ckValidate p s).ciPayload = s.ciPayload := rfl
@[simp] theorem ckValidate_cur (p : List Byte) (s : State) : (ckValidate p s).cur = s.cur := rfl
@[simp] theorem ckValidate_tgt (p : List Byte) (s : State) : (ckValidate p s).tgt = s.tgt := rfl
@[simp] theorem ckValidate_inEvents (p : List Byte) (s : State) : (ckValidate p s).inEvents = s.inEvents := rfl
@[simp] theorem ckValidate_outEvents (p : List Byte) (s : State) : (ckValidate p s).outEvents = s.outEvents := rfl

@[simp] theorem startRun_tbNum (v : Int) (s : State) : (startRun v s).tbNum = s.tbNum := rfl
@[simp] theorem startRun_tbDen (v : Int) (s : State) : (startRun v s).tbDen = s.tbDen := rfl
@[simp] theorem startRun_eeValid (v : Int) (s : State) : (startRun v s).eeValid = true := rfl
@[simp] theorem startRun_eePol (v : Int) (s : State) : (startRun v s).eePol = polarity v := rfl
@[simp] theorem startRun_eeDur (v : Int) (s : State) : (startRun v s).eeDur = 1 := rfl
@[simp] theorem startRun_dpPend (v : Int) (s : State) : (startRun v s).dpPend = s.dpPend := rfl
@[simp] theorem startRun_fdState (v : Int) (s : State) : (startRun v s).fdState = s.fdState := rfl
@[simp] theorem startRun_fdCnt (v : Int) (s : State) : (startRun v s).fdCnt = s.fdCnt := rfl
@[simp] theorem startRun_fdByte (v : Int) (s : State) : (startRun v s).fdByte = s.fdByte := rfl
@[simp] theorem startRun_fdNbits (v : Int) (s : State) : (startRun v s).fdNbits = s.fdNbits := rfl
@[simp] theorem startRun_fdPkt (v : Int) (s : State) : (startRun v s).fdPkt = s.fdPkt := rfl
@[simp] theorem startRun_fdGlog (v : Int) (s : State) : (startRun v s).fdGlog = s.fdGlog := rfl
@[simp] theorem startRun_done (v : Int) (s : State) : (startRun v s).done = s.done := rfl
@[simp] theorem startRun_ckOk (v : Int) (s : State) : (startRun v s).ckOk = s.ckOk := rfl
@[simp] theorem startRun_ciPhase (v : Int) (s : State) : (startRun v s).ciPhase = s.ciPhase := rfl
@[simp] theorem startRun_ciPayload (v : Int) (s : State) : (startRun v s).ciPayload = s.ciPayload := rfl
@[simp] theorem startRun_cur (v : Int) (s : State) : (startRun v s).cur = s.cur := rfl
@[simp] theorem startRun_tgt (v : Int) (s : State) : (startRun v s).tgt = s.tgt := rfl
@[simp] theorem startRun_inEvents (v : Int) (s : State) : (startRun v s).inEvents = s.inEvents := rfl
@[simp] theorem startRun_outEvents (v : Int) (s : State) : (startRun v s).outEvents = s.outEvents := rfl

@[simp] theorem dpHigh_tbNum (d : Nat) (s : State) : (dpHigh d s).tbNum = s.tbNum := rfl
@[simp] theorem dpHigh_tbDen (d : Nat) (s : State) : (dpHigh d s).tbDen = s.tbDen := rfl
@[simp] theorem dpHigh_eeValid (d : Nat) (s : State) : (dpHigh d s).eeValid = s.eeValid := rfl
@[simp] theorem dpHigh_eePol (d : Nat) (s : State) : (dpHigh d s).eePol = s.eePol := rfl
@[simp] theorem dpHigh_eeDur (d : Nat) (s : State) : (dpHigh d s).eeDur = s.eeDur := rfl
@[simp] theorem dpHigh_dpPend (d : Nat) (s : State) : (dpHigh d s).dpPend = some d := rfl
@[simp] theorem dpHigh_fdState (d : Nat) (s : State) : (dpHigh d s).fdState = s.fdState := rfl
@[simp] theorem dpHigh_fdCnt (d : Nat) (s : State) : (dpHigh d s).fdCnt = s.fdCnt := rfl
@[simp] theorem dpHigh_fdByte (d : Nat) (s : State) : (dpHigh d s).fdByte = s.fdByte := rfl
@[simp] theorem dpHigh_fdNbits (d : Nat) (s : State) : (dpHigh d s).fdNbits = s.fdNbits := rfl
@[simp] theorem dpHigh_fdPkt (d : Nat) (s : State) : (dpHigh d s).fdPkt = s.fdPkt := rfl
@[simp] theorem dpHigh_fdGlog (d : Nat) (s : State) : (dpHigh d s).fdGlog = s.fdGlog := rfl
@[simp] theorem dpHigh_done (d : Nat) (s : State) : (dpHigh d s).done = s.done := rfl
@[simp] theorem dpHigh_ckOk (d : Nat) (s : State) : (dpHigh d s).ckOk = s.ckOk := rfl
@[simp] theorem dpHigh_ciPhase (d : Nat) (s : State) : (dpHigh d s).ciPhase = s.ciPhase := rfl
@[simp] theorem dpHigh_ciPayload (d : Nat) (s : State) : (dpHigh d s).ciPayload = s.ciPayload := rfl
@[simp] theorem dpHigh_cur (d : Nat) (s : State) : (dpHigh d s).cur = s.cur := rfl
@[simp] theorem dpHigh_tgt (d : Nat) (s : State) : (dpHigh d s).tgt = s.tgt := rfl
@[simp] theorem dpHigh_inEvents (d : Nat) (s : State) : (dpHigh d s).inEvents = s.inEvents := rfl
@[simp] theorem dpHigh_outEvents (d : Nat) (s : State) : (dpHigh d s).outEvents = s.outEvents := rfl

@[simp] theorem deliver_tbNum (q : List InEvent) (s : State) : (deliver q s).tbNum = s.tbNum := rfl
@[simp] theorem deliver_tbDen (q : List InEvent) (s : State) : (deliver q s).tbDen = s.tbDen := rfl
@[simp] theorem deliver_eeValid (q : List InEvent) (s : State) : (deliver q s).eeValid = s.eeValid := rfl
@[simp] theorem deliver_eePol (q : List InEvent) (s : State) : (deliver q s).eePol = s.eePol := rfl
@[simp] theorem deliver_eeDur (q : List InEvent) (s : State) : (deliver q s).eeDur = s.eeDur := rfl
@[simp] theorem deliver_dpPend (q : List InEvent) (s : State) : (deliver q s).dpPend = s.dpPend := rfl
@[simp] theorem deliver_fdState (q : List InEvent) (s : State) : (deliver q s).fdState = s.fdState := rfl
@[simp] theorem deliver_fdCnt (q : List InEvent) (s : State) : (deliver q s).fdCnt = s.fdCnt := rfl
@[simp] theorem deliver_fdByte (q : List InEvent) (s : State) : (deliver q s).fdByte = s.fdByte := rfl
@[simp] theorem deliver_fdNbits (q : List InEvent) (s : State) : (deliver q s).fdNbits = s.fdNbits := rfl
@[simp] theorem deliver_fdPkt (q : List InEvent) (s : State) : (deliver q s).fdPkt = s.fdPkt := rfl
@[simp] theorem deliver_fdGlog (q : List InEvent) (s : State) : (deliver q s).fdGlog = s.fdGlog := rfl
@[simp] theorem deliver_done (q : List InEvent) (s : State) : (deliver q s).done = s.done := rfl
@[simp] theorem deliver_ckOk (q : List InEvent) (s : State) : (deliver q s).ckOk = s.ckOk := rfl
@[simp] theorem deliver_ciPhase (q : List InEvent) (s : State) : (deliver q s).ciPhase = s.ciPhase := rfl
@[simp] theorem deliver_ciPayload (q : List InEvent) (s : State) : (deliver q s).ciPayload = s.ciPayload := rfl
@[simp] theorem deliver_cur (q : List InEvent) (s : State) : (deliver q s).cur = s.cur := rfl
@[simp] theorem deliver_tgt (q : List InEvent) (s : State) : (deliver q s).tgt = s.tgt := rfl
@[simp] theorem deliver_inEvents (q : List InEvent) (s : State) : (deliver q s).inEvents = s.inEvents ++ q := rfl
@[simp] theorem deliver_outEvents (q : List InEvent) (s : State) : (deliver q s).outEvents = s.outEvents := rfl

/-- A report: the result is appended and the cursor moves. -/
theorem report_eq (r : Result) (k : Nat) (s : State) :
    report r k s = { s with outEvents := s.outEvents ++ [.result r], cur := s.cur + k } := rfl

/-- An unknown packet: the payload is reported and the interpretation stops. -/
theorem reportUnknown_eq (s : State) :
    reportUnknown s =
      { s with outEvents := s.outEvents ++ [.result (.unknownPacket s.ciPayload)], ciPhase := .idle } := rfl

@[simp] theorem andThen_next (s : State) (f : State → Out) : andThen (.next s) f = f s := rfl
@[simp] theorem andThen_fault (r : Fault) (f : State → Out) : andThen (.fault r) f = .fault r := rfl
@[simp] theorem andThen_refused (r : Refusal) (f : State → Out) : andThen (.refused r) f = .refused r := rfl

theorem andThen_assoc (o : Out) (f g : State → Out) :
    andThen (andThen o f) g = andThen o fun s => andThen (f s) g := by
  cases o <;> rfl

/-- A sequence answers a next state through the next state of its first part. -/
theorem andThen_eq_next {o : Out} {f : State → Out} {t : State} (h : andThen o f = .next t) :
    ∃ s, o = .next s ∧ f s = .next t := by
  cases o with
  | next s => exact ⟨s, rfl, h⟩
  | fault r => cases h
  | refused r => cases h

end Sys2Proof.Machine
end

