-- ==== Sys2Proof/Laws/Exec.lean ====
section
/-! SUPPORT. What exec can do, said once: no form faults or is refused, and a form reaches only the target, the
cursor, the interpreter's phase and the output list. -/

namespace Sys2Proof.Machine

/-- `t` is `s` but for target, cursor, phase, and the results appended. -/
def ReportsOnly (rs : List Result) (s t : State) : Prop :=
  t = { s with tgt := t.tgt, cur := t.cur, ciPhase := t.ciPhase, outEvents := s.outEvents ++ rs.map .result }

theorem ReportsOnly.refl (s : State) : ReportsOnly [] s s := by
  simp [ReportsOnly]

theorem ReportsOnly.trans {rs rs' : List Result} {s t u : State}
    (h : ReportsOnly rs s t) (h' : ReportsOnly rs' t u) : ReportsOnly (rs ++ rs') s u := by
  unfold ReportsOnly at *
  rw [h'] ; rw [h]
  simp

theorem ReportsOnly.outEvents {rs : List Result} {s t : State} (h : ReportsOnly rs s t) :
    t.outEvents = s.outEvents ++ rs.map .result := by
  rw [h]

theorem ReportsOnly.ciPayload {rs : List Result} {s t : State} (h : ReportsOnly rs s t) :
    t.ciPayload = s.ciPayload := by
  rw [h]

/-- Once the step's own registers are gone, only the output list tells the two states apart. -/
theorem ReportsOnly.endStep {rs : List Result} {s t : State} (h : ReportsOnly rs s t) :
    endStep t = endStep { s with outEvents := s.outEvents ++ rs.map .result } := by
  rw [h]; rfl

theorem reportUnknown_reportsOnly (s : State) : ReportsOnly [.unknownPacket s.ciPayload] s (reportUnknown s) := rfl

theorem report_reportsOnly (r : Result) (k : Nat) (s : State) : ReportsOnly [r] s (report r k s) := rfl

theorem setTarget_reportsOnly (t : Target) (c : Nat) (s : State) : ReportsOnly [] s (setTarget t c s) := by
  simp [ReportsOnly, setTarget]

/-- Every form answers a next state, from every state (R215, R239), and reports at most one result. -/
theorem exec_reportsOnly (i : Instr) (s : State) :
    ∃ rs t, exec i s = .next t ∧ ReportsOnly rs s t ∧ rs.length ≤ 1 := by
  cases i with
  | addrEmpty => exact ⟨_, _, rfl, reportUnknown_reportsOnly s, le_rfl⟩
  | addrBroadcast => exact ⟨_, _, rfl, setTarget_reportsOnly _ _ s, Nat.zero_le _⟩
  | idle => exact ⟨[.idle], _, rfl, rfl, le_rfl⟩
  | addrIdleInvalid _ => exact ⟨_, _, rfl, reportUnknown_reportsOnly s, le_rfl⟩
  | addrLong _ _ => exact ⟨_, _, rfl, setTarget_reportsOnly _ _ s, Nat.zero_le _⟩
  | addrAccessory _ _ => exact ⟨_, _, rfl, reportUnknown_reportsOnly s, le_rfl⟩
  | addrShort _ => exact ⟨_, _, rfl, setTarget_reportsOnly _ _ s, Nat.zero_le _⟩
  | addrUnknown _ => exact ⟨_, _, rfl, reportUnknown_reportsOnly s, le_rfl⟩
  | speed128 _ _ => exact ⟨_, _, rfl, report_reportsOnly _ _ s, le_rfl⟩
  | speed28 _ _ _ => exact ⟨_, _, rfl, report_reportsOnly _ _ s, le_rfl⟩
  | fg1 _ _ _ _ _ => exact ⟨_, _, rfl, report_reportsOnly _ _ s, le_rfl⟩
  | fg2Hi _ _ _ _ => exact ⟨_, _, rfl, report_reportsOnly _ _ s, le_rfl⟩
  | fg2Lo _ _ _ _ => exact ⟨_, _, rfl, report_reportsOnly _ _ s, le_rfl⟩
  | resetAll =>
    by_cases h : s.tgt = .all
    · exact ⟨_, _, if_pos h, report_reportsOnly _ _ s, le_rfl⟩
    · exact ⟨_, _, if_neg h, reportUnknown_reportsOnly s, le_rfl⟩
  | unknownInstr _ _ => exact ⟨_, _, rfl, reportUnknown_reportsOnly s, le_rfl⟩

/-- Every form answers a next state. -/
theorem exec_answers (i : Instr) (s : State) : ∃ t, exec i s = .next t := by
  obtain ⟨_, t, h, _⟩ := exec_reportsOnly i s
  exact ⟨t, h⟩

/-- What a form leaves as it was. -/
theorem exec_frame {i : Instr} {s t : State} (h : exec i s = .next t) :
    ∃ rs, ReportsOnly rs s t ∧ rs.length ≤ 1 := by
  obtain ⟨rs, u, hu, hr, hl⟩ := exec_reportsOnly i s
  rw [h] at hu
  cases hu
  exact ⟨rs, hr, hl⟩

end Sys2Proof.Machine
end

