-- ==== Sys2Proof/Laws/Flags.lean ====
section
/-! SUPPORT. What each flag, threshold and comparison says, as a fact on naturals (41_bit_classifier.md R130), so
that no proof unfolds a decide. -/

namespace Sys2Proof.Machine

@[simp] theorem legalTimebase_eq_true {n d : Nat} : legalTimebase n d = true ↔ 1 ≤ n ∧ 1 ≤ d := by
  simp [legalTimebase]

@[simp] theorem coarse_eq_true {n d : Nat} : coarse n d = true ↔ 40 * d < n := by
  rw [coarse, decide_eq_true_eq, tbCoarseUs]

@[simp] theorem tbCoarse_eq_true {s : State} : s.tbCoarse = true ↔ 40 * s.tbDen < s.tbNum := coarse_eq_true

@[simp] theorem isLong_eq_true {s : State} {d : Nat} : s.isLong d = true ↔ 95 * s.tbDen ≤ d * s.tbNum := by
  rw [State.isLong, decide_eq_true_eq, zeroMinUs]

@[simp] theorem mismatched_eq_true {s : State} {h l : Nat} :
    s.mismatched h l = true ↔ s.misTol < (h - l) + (l - h) := by
  rw [State.mismatched, decide_eq_true_eq, absDiff]

theorem oneLo_eq (s : State) : s.oneLo = 52 * s.tbDen / s.tbNum := rfl
theorem oneHi_eq (s : State) : s.oneHi = 64 * s.tbDen / s.tbNum + 1 := rfl
theorem misTol_eq (s : State) : s.misTol = 6 * s.tbDen / s.tbNum + 2 := rfl

/-- The One window is tested first (R132). -/
theorem classify_one {s : State} {h l : Nat} : s.classify h l = .one ↔ s.oneLo ≤ h ∧ h ≤ s.oneHi := by
  unfold State.classify
  split
  · simp_all
  · split <;> simp_all

/-- Zero: not One, both halves long (R134). -/
theorem classify_zero {s : State} {h l : Nat} :
    s.classify h l = .zero ↔ ¬ (s.oneLo ≤ h ∧ h ≤ s.oneHi) ∧ s.isLong h = true ∧ s.isLong l = true := by
  unfold State.classify
  split
  · simp_all
  · split <;> simp_all

/-- Unknown: neither (R135). -/
theorem classify_unknown {s : State} {h l : Nat} :
    s.classify h l = .unknown ↔ ¬ (s.oneLo ≤ h ∧ h ≤ s.oneHi) ∧ ¬ (s.isLong h = true ∧ s.isLong l = true) := by
  unfold State.classify
  split
  · simp_all
  · split <;> simp_all

end Sys2Proof.Machine
end

