-- ==== Sys2Proof/Laws/Interpreter.lean ====
section
/-! SUPPORT. The interpreter over a payload: it always comes to an end with a next state, and reaches nothing but
its own registers and the output list. -/

namespace Sys2Proof.Machine

@[simp] theorem interpretLoop_zero (s : State) : interpretLoop 0 s = .next s := rfl

/-- Nothing to fetch: the loop is over. -/
theorem interpretLoop_none {s : State} (h : s.fetch = none) (n : Nat) : interpretLoop n s = .next s := by
  cases n with
  | zero => rfl
  | succ n => simp [interpretLoop, h]

/-- One turn of the loop. -/
theorem interpretLoop_some {s : State} {i : Instr} (h : s.fetch = some i) (n : Nat) :
    interpretLoop (n + 1) s = andThen (exec i s) (interpretLoop n) := by
  simp [interpretLoop, h]

theorem interpretLoop_reportsOnly (n : Nat) (s : State) :
    ∃ rs t, interpretLoop n s = .next t ∧ ReportsOnly rs s t := by
  induction n generalizing s with
  | zero => exact ⟨[], s, rfl, .refl s⟩
  | succ n ih =>
    cases hf : s.fetch with
    | none => exact ⟨[], s, interpretLoop_none hf _, .refl s⟩
    | some i =>
      obtain ⟨rs, t, he, hr, _⟩ := exec_reportsOnly i s
      obtain ⟨rs', u, hl, hr'⟩ := ih t
      exact ⟨rs ++ rs', u, by rw [interpretLoop_some hf, he]; exact hl, hr.trans hr'⟩

/-- The interpretation in hand ends with a next state. -/
theorem runInterpreter_reportsOnly (s : State) : ∃ rs t, runInterpreter s = .next t ∧ ReportsOnly rs s t :=
  interpretLoop_reportsOnly _ s

/-- A payload's interpretation ends with a next state that differs in the interpreter's registers and in results. -/
theorem interpretPayload_reportsOnly (p : List Byte) (s : State) :
    ∃ rs t, interpretPayload p s = .next t ∧ ReportsOnly rs (enterInterpreter p s) t :=
  runInterpreter_reportsOnly _

@[simp] theorem fetch_idle {s : State} (h : s.ciPhase = .idle) : s.fetch = none := by
  simp [State.fetch, h]

theorem fetch_address {s : State} (h : s.ciPhase = .address) : s.fetch = some (decodeAddress s.ciPayload) := by
  simp [State.fetch, h, decode, Except.toOption]

theorem fetch_instruction {s : State} (h : s.ciPhase = .instruction) :
    s.fetch = (decodeInstruction (decide (s.tgt = .all)) (s.ciPayload.drop s.cur)).toOption := by
  simp [State.fetch, h, decode]

/-- At the payload's end the loop fetches nothing (R200). -/
theorem fetch_at_end {s : State} (h : s.ciPhase = .instruction) (hc : s.ciPayload.length ≤ s.cur) :
    s.fetch = none := by
  rw [fetch_instruction h, List.drop_eq_nil_of_le hc]
  rfl

end Sys2Proof.Machine
end

