-- ==== Sys2Proof/Laws/Memory.lean ====
section
/-! SUPPORT. The laws of the packet buffer (20_memory.md R60 to R63): every operation keeps the canonical form, and
what a read sees after an append. -/

namespace Sys2Proof.Machine

@[simp] theorem Memory.wf_nil : Memory.wf [] := rfl

/-- The canonical form has strictly rising addresses. -/
theorem Memory.wf_rising {m : Memory} (h : m.wf) : m.Pairwise fun x y => x.1 < y.1 := by
  rw [← List.pairwise_map, h]
  exact List.pairwise_lt_range

@[simp] theorem Memory.length_append (m : Memory) (v : Byte) : (m.append v).length = m.length + 1 := by
  simp [Memory.append]

@[simp] theorem Memory.bytes_nil : Memory.bytes [] = [] := rfl

@[simp] theorem Memory.bytes_append (m : Memory) (v : Byte) : (m.append v).bytes = m.bytes ++ [v] := by
  simp [Memory.append, Memory.bytes]

@[simp] theorem Memory.length_bytes (m : Memory) : m.bytes.length = m.length := by
  simp [Memory.bytes]

/-- An append keeps the canonical form. -/
theorem Memory.wf_append {m : Memory} (h : m.wf) (v : Byte) : (m.append v).wf := by
  show (m ++ [(m.length, v)]).map Prod.fst = List.range (m ++ [(m.length, v)]).length
  rw [List.map_append, h, List.length_append]
  exact List.range_succ.symm

/-- The buffer of given bytes is in canonical form. -/
theorem Memory.wf_ofBytes (bs : List Byte) : (Memory.ofBytes bs).wf := by
  have aux : ∀ (bs : List Byte) (m : Memory), m.wf → (bs.foldl Memory.append m).wf := by
    intro bs
    induction bs with
    | nil => intro m h; exact h
    | cons b bs ih => intro m h; exact ih _ (Memory.wf_append h b)
  exact aux bs [] Memory.wf_nil

/-- In canonical form the byte at an address is the byte of that index. -/
theorem Memory.read_eq_getElem? {m : Memory} (h : m.wf) (a : Nat) : m.read a = m.bytes[a]? := by
  have aux : ∀ (m : Memory) (k : Nat), m.map Prod.fst = List.range' k m.length → ∀ a,
      List.lookup (k + a) m = (m.map Prod.snd)[a]? := by
    intro m
    induction m with
    | nil => intro k _ a; rfl
    | cons c m ih =>
      intro k hk a
      obtain ⟨i, v⟩ := c
      simp only [List.map_cons, List.length_cons, List.range'_succ, List.cons.injEq] at hk
      obtain ⟨rfl, hk⟩ := hk
      cases a with
      | zero => simp [List.lookup]
      | succ a =>
        have hne : ((i + (a + 1)) == i) = false := by simp
        simp only [List.lookup, hne, List.map_cons, List.getElem?_cons_succ]
        have := ih (i + 1) hk a
        rwa [show i + (a + 1) = i + 1 + a by omega]
  have := aux m 0 (by rw [← List.range_eq_range']; exact h) a
  simpa [Memory.read, Memory.bytes] using this

/-- The byte just appended is read back. -/
theorem Memory.read_append_last {m : Memory} (h : m.wf) (v : Byte) : (m.append v).read m.length = some v := by
  rw [Memory.read_eq_getElem? (Memory.wf_append h v)]
  simp

/-- An append changes no other byte. -/
theorem Memory.read_append_other {m : Memory} (h : m.wf) (v : Byte) {a : Nat} (ha : a ≠ m.length) :
    (m.append v).read a = m.read a := by
  rw [Memory.read_eq_getElem? (Memory.wf_append h v), Memory.read_eq_getElem? h, Memory.bytes_append]
  rcases lt_or_gt_of_ne ha with hlt | hgt
  · rw [List.getElem?_append_left (by simpa using hlt)]
  · rw [List.getElem?_eq_none (by simp; omega), List.getElem?_eq_none (by simp; omega)]

/-- An address at which no byte has been appended holds none. -/
theorem Memory.read_eq_none {m : Memory} (h : m.wf) {a : Nat} (ha : m.length ≤ a) : m.read a = none := by
  rw [Memory.read_eq_getElem? h]
  exact List.getElem?_eq_none (by simpa using ha)

end Sys2Proof.Machine
end

