-- ==== Sys2Proof/Laws/PerInstr.lean ====
section
/-! SUPPORT. Statements made per instruction, about the instruction as syntax: a form is well-formed at its own level
only, and at the instruction level its encoding has a byte, so that the cursor can move past it (R87, R94, R200). -/

/-- The form is read at its own level only, and an instruction form that can be read is not empty. -/
def Sys2Proof.Laws.OwnLevel.Statement (i : Sys2Proof.Instr) : Prop :=
  ∀ lv : Sys2Proof.Level, Sys2Proof.WellFormed lv i = true →
    (i.isAddress = true ↔ lv = .address) ∧ (i.isAddress = false → 1 ≤ (Sys2Proof.encode i).length)

namespace Sys2Proof

/-- One level is refused by WellFormed, the other is the form's own. -/
theorem ownLevel_of {i : Instr} (h : (∀ lv, WellFormed lv i = true → (i.isAddress = true ↔ lv = .address)))
    (hl : i.isAddress = false → 1 ≤ (encode i).length) : Laws.OwnLevel.Statement i :=
  fun lv hw => ⟨h lv hw, hl⟩

end Sys2Proof

open Sys2Proof

theorem Sys2Proof.Laws.OwnLevel.addrEmpty : Sys2Proof.Laws.OwnLevel.Statement .addrEmpty :=
  ownLevel_of (fun lv h => by cases lv <;> simp_all [WellFormed, Instr.isAddress]) (by simp [encode, Instr.isAddress])

theorem Sys2Proof.Laws.OwnLevel.addrBroadcast : Sys2Proof.Laws.OwnLevel.Statement .addrBroadcast :=
  ownLevel_of (fun lv h => by cases lv <;> simp_all [WellFormed, Instr.isAddress]) (by simp [encode, Instr.isAddress])

theorem Sys2Proof.Laws.OwnLevel.idle : Sys2Proof.Laws.OwnLevel.Statement .idle :=
  ownLevel_of (fun lv h => by cases lv <;> simp_all [WellFormed, Instr.isAddress]) (by simp [encode, Instr.isAddress])

theorem Sys2Proof.Laws.OwnLevel.addrIdleInvalid (rest : List Byte) : Sys2Proof.Laws.OwnLevel.Statement (.addrIdleInvalid rest) :=
  ownLevel_of (fun lv h => by cases lv <;> simp_all [WellFormed, Instr.isAddress]) (by simp [encode, Instr.isAddress])

theorem Sys2Proof.Laws.OwnLevel.addrLong (h : BitVec 6) (l : BitVec 8) : Sys2Proof.Laws.OwnLevel.Statement (.addrLong h l) :=
  ownLevel_of (fun lv h => by cases lv <;> simp_all [WellFormed, Instr.isAddress]) (by simp [encode, Instr.isAddress])

theorem Sys2Proof.Laws.OwnLevel.addrAccessory (x : BitVec 6) (rest : List Byte) : Sys2Proof.Laws.OwnLevel.Statement (.addrAccessory x rest) :=
  ownLevel_of (fun lv h => by cases lv <;> simp_all [WellFormed, Instr.isAddress]) (by simp [encode, Instr.isAddress])

theorem Sys2Proof.Laws.OwnLevel.addrShort (a : BitVec 7) : Sys2Proof.Laws.OwnLevel.Statement (.addrShort a) :=
  ownLevel_of (fun lv h => by cases lv <;> simp_all [WellFormed, Instr.isAddress]) (by simp [encode, Instr.isAddress])

theorem Sys2Proof.Laws.OwnLevel.addrUnknown (x : BitVec 6) : Sys2Proof.Laws.OwnLevel.Statement (.addrUnknown x) :=
  ownLevel_of (fun lv h => by cases lv <;> simp_all [WellFormed, Instr.isAddress]) (by simp [encode, Instr.isAddress])

theorem Sys2Proof.Laws.OwnLevel.speed128 (d : Bool) (s : BitVec 7) : Sys2Proof.Laws.OwnLevel.Statement (.speed128 d s) :=
  ownLevel_of (fun lv h => by cases lv <;> simp_all [WellFormed, Instr.isAddress]) (by simp [encode, Instr.isAddress])

theorem Sys2Proof.Laws.OwnLevel.speed28 (d c : Bool) (s : BitVec 4) : Sys2Proof.Laws.OwnLevel.Statement (.speed28 d c s) :=
  ownLevel_of (fun lv h => by cases lv <;> simp_all [WellFormed, Instr.isAddress]) (by simp [encode, Instr.isAddress])

theorem Sys2Proof.Laws.OwnLevel.fg1 (fl f4 f3 f2 f1 : Bool) : Sys2Proof.Laws.OwnLevel.Statement (.fg1 fl f4 f3 f2 f1) :=
  ownLevel_of (fun lv h => by cases lv <;> simp_all [WellFormed, Instr.isAddress]) (by simp [encode, Instr.isAddress])

theorem Sys2Proof.Laws.OwnLevel.fg2Hi (f8 f7 f6 f5 : Bool) : Sys2Proof.Laws.OwnLevel.Statement (.fg2Hi f8 f7 f6 f5) :=
  ownLevel_of (fun lv h => by cases lv <;> simp_all [WellFormed, Instr.isAddress]) (by simp [encode, Instr.isAddress])

theorem Sys2Proof.Laws.OwnLevel.fg2Lo (f12 f11 f10 f9 : Bool) : Sys2Proof.Laws.OwnLevel.Statement (.fg2Lo f12 f11 f10 f9) :=
  ownLevel_of (fun lv h => by cases lv <;> simp_all [WellFormed, Instr.isAddress]) (by simp [encode, Instr.isAddress])

theorem Sys2Proof.Laws.OwnLevel.resetAll : Sys2Proof.Laws.OwnLevel.Statement .resetAll :=
  ownLevel_of (fun lv h => by cases lv <;> simp_all [WellFormed, Instr.isAddress]) (by simp [encode, Instr.isAddress])

theorem Sys2Proof.Laws.OwnLevel.unknownInstr (b : Byte) (rest : List Byte) : Sys2Proof.Laws.OwnLevel.Statement (.unknownInstr b rest) :=
  ownLevel_of (fun lv h => by cases lv <;> simp_all [WellFormed, Instr.isAddress]) (by simp [encode, Instr.isAddress])
end

