-- ==== Sys2Proof/Laws/Stages.lean ====
section
/-! SUPPORT. One lemma for each stage: everything its reaction can be, as a state written out and the element fed to
the next stage. -/

namespace Sys2Proof.Machine

@[simp] theorem polarity_high {v : Int} : polarity v = .high ↔ 0 ≤ v := by
  unfold polarity; split <;> simp_all

@[simp] theorem polarity_low {v : Int} : polarity v = .low ↔ v < 0 := by
  unfold polarity; split <;> simp_all

/-- The Edge Extractor on a sample: it starts the first run, extends the run, or closes it. -/
theorem eeSample_cases (v : Int) (s : State) :
    (s.eeValid = false ∧ eeSample v s = (startRun v s, none)) ∨
    (s.eeValid = true ∧ polarity v = s.eePol ∧ eeSample v s = ({ s with eeDur := s.eeDur + 1 }, none)) ∨
    (s.eeValid = true ∧ polarity v ≠ s.eePol ∧
      eeSample v s = (startRun v (emit (.tap (.run s.eePol s.eeDur)) s), some ⟨s.eePol, s.eeDur⟩)) := by
  unfold eeSample
  cases hv : s.eeValid with
  | false => exact .inl ⟨rfl, by simp⟩
  | true =>
    by_cases hp : polarity v = s.eePol
    · exact .inr (.inl ⟨rfl, hp, by simp [hp]⟩)
    · exact .inr (.inr ⟨rfl, hp, by simp [hp, closeRun]⟩)

/-- The Edge Extractor at End: it flushes a run in progress. -/
theorem eeEnd_cases (s : State) :
    (s.eeValid = false ∧ eeEnd s = (s, none)) ∨
    (s.eeValid = true ∧ eeEnd s = (emit (.tap (.run s.eePol s.eeDur)) s, some ⟨s.eePol, s.eeDur⟩)) := by
  unfold eeEnd
  cases hv : s.eeValid with
  | false => exact .inl ⟨rfl, by simp⟩
  | true => exact .inr ⟨rfl, by simp [closeRun]⟩

/-- The Duration Pairer: a high is parked, a low pairs with a parked high, a low without one is dropped. -/
theorem dpRun_cases (r : Run) (s : State) :
    (r.pol = .high ∧ dpRun r s = (dpHigh r.dur s, none)) ∨
    (r.pol = .low ∧ s.dpPend = none ∧ dpRun r s = (s, none)) ∨
    (∃ h, r.pol = .low ∧ s.dpPend = some h ∧
      dpRun r s = ({ emit (.tap (.pair h r.dur)) s with dpPend := none }, some ⟨h, r.dur⟩)) := by
  unfold dpRun
  cases hp : r.pol with
  | high => exact .inl ⟨rfl, rfl⟩
  | low =>
    cases hd : s.dpPend with
    | none => exact .inr (.inl ⟨rfl, rfl, by simp [dpLow, hd]⟩)
    | some h => exact .inr (.inr ⟨h, rfl, rfl, by simp [dpLow, hd]⟩)

/-- The events the Bit Classifier gives for a pair (R131). -/
def classifierEvents (s : State) (h l : Nat) : List OutEvent :=
  match s.classify h l with
  | .one     => (if s.mismatched h l then [.diag (.mismatchedPair h l)] else []) ++
                  [.stat (.oneWidth (s.micros h)), .tap (.bit .one)]
  | .zero    => [.stat (.zeroWidth (s.micros h)), .tap (.bit .zero)]
  | .unknown => [.diag (.unknownBit h l), .tap (.bit .unknown)]

/-- The Bit Classifier writes no register: it appends its events and gives its bit. -/
theorem bcClassify_eq (p : Pair) (s : State) :
    bcClassify p s =
      ({ s with outEvents := s.outEvents ++ classifierEvents s p.high p.low }, s.classify p.high p.low) := by
  unfold bcClassify classifierEvents
  cases s.classify p.high p.low with
  | one =>
    cases s.mismatched p.high p.low <;>
      simp [emit, raise, recover, Anomaly.event, List.append_assoc]
  | zero => simp [emit]
  | unknown => simp [emit, raise, recover, Anomaly.event]

/-- The Frame Decoder's transition table (R160), each entry a state written out. -/
theorem fdBit_cases (b : BitVal) (s : State) :
    (s.fdState = .seek ∧ b = .one ∧ fdBit b s = ({ s with fdCnt := s.fdCnt + 1 }, none)) ∨
    (s.fdState = .seek ∧ b ≠ .one ∧ s.fdCnt < 10 ∧ s.fdGlog = true ∧ fdBit b s = ({ s with fdCnt := 0 }, none)) ∨
    (s.fdState = .seek ∧ b ≠ .one ∧ s.fdCnt < 10 ∧ s.fdGlog = false ∧ fdBit b s =
      ({ s with fdCnt := 0, fdGlog := true, outEvents := s.outEvents ++ [.diag .garbage] }, none)) ∨
    (s.fdState = .seek ∧ b = .zero ∧ 10 ≤ s.fdCnt ∧ fdBit b s =
      ({ s with
          fdState := .read, fdCnt := 0, fdByte := 0#8, fdNbits := 0, fdPkt := []
          outEvents := s.outEvents ++ [.stat (.preambleLen s.fdCnt)] }, none)) ∨
    (b = .unknown ∧ (s.fdState = .seek → 10 ≤ s.fdCnt) ∧ fdBit b s =
      ({ s with
          fdState := .seek, fdCnt := 0, fdByte := 0#8, fdNbits := 0, fdPkt := []
          outEvents := s.outEvents ++ [.diag .corruptPacket] }, none)) ∨
    (∃ v, s.fdState = .read ∧ b = (if v then .one else .zero) ∧ s.fdNbits < 8 ∧ fdBit b s = (fdReadData v s, none)) ∨
    (s.fdState = .read ∧ b = .one ∧ 8 ≤ s.fdNbits ∧ fdBit b s =
      ({ s with fdPkt := s.fdPkt.append s.fdByte, fdByte := 0#8, fdNbits := 0 }, none)) ∨
    (s.fdState = .read ∧ b = .zero ∧ 8 ≤ s.fdNbits ∧ fdBit b s =
      ({ s with
          fdState := .seek, fdCnt := 1, fdByte := 0#8, fdNbits := 0, fdPkt := []
          outEvents := s.outEvents ++ [.tap (.packet (s.fdPkt.bytes ++ [s.fdByte]))] },
        some (s.fdPkt.bytes ++ [s.fdByte]))) := by
  unfold fdBit
  cases hs : s.fdState <;> cases b
  · exact .inl ⟨rfl, rfl, by simp [fdSeekOne, hs]⟩
  · by_cases hc : s.fdCnt < preambleMin
    · cases hg : s.fdGlog
      · exact .inr (.inr (.inl ⟨rfl, by simp, hc, rfl, by
          simp [hc, fdSeekGarbage, hg, raise, recover, emit, Anomaly.event, hs]⟩))
      · exact .inr (.inl ⟨rfl, by simp, hc, rfl, by simp [hc, fdSeekGarbage, hg, hs]⟩)
    · exact .inr (.inr (.inr (.inl ⟨rfl, rfl, Nat.le_of_not_lt hc, by simp [hc, fdSeekStart, emit]⟩)))
  · by_cases hc : s.fdCnt < preambleMin
    · cases hg : s.fdGlog
      · exact .inr (.inr (.inl ⟨rfl, by simp, hc, rfl, by
          simp [hc, fdSeekGarbage, hg, raise, recover, emit, Anomaly.event, hs]⟩))
      · exact .inr (.inl ⟨rfl, by simp, hc, rfl, by simp [hc, fdSeekGarbage, hg, hs]⟩)
    · exact .inr (.inr (.inr (.inr (.inl ⟨rfl, fun _ => Nat.le_of_not_lt hc, by
        simp [hc, fdSeekCorruptStart, raise, recover, resync, emit, Anomaly.event]⟩))))
  · by_cases hn : s.fdNbits < 8
    · exact .inr (.inr (.inr (.inr (.inr (.inl ⟨true, rfl, rfl, hn, by simp [hn]⟩)))))
    · exact .inr (.inr (.inr (.inr (.inr (.inr (.inl ⟨rfl, rfl, Nat.le_of_not_lt hn, by simp [hn, fdReadMore, hs]⟩))))))
  · by_cases hn : s.fdNbits < 8
    · exact .inr (.inr (.inr (.inr (.inr (.inl ⟨false, rfl, rfl, hn, by simp [hn]⟩)))))
    · exact .inr (.inr (.inr (.inr (.inr (.inr (.inr ⟨rfl, rfl, Nat.le_of_not_lt hn, by
        simp [hn, fdReadEnd, completedPacket, emit, preambleRestart]⟩))))))
  · exact .inr (.inr (.inr (.inr (.inl ⟨rfl, by simp, by
      simp [fdReadCorrupt, raise, recover, resync, emit, Anomaly.event]⟩))))

/-- The Frame Decoder looks at no register of the Edge Extractor: its transition is the same whatever run is in
progress (R150, R272). -/
theorem fdBit_withRun (b : BitVal) (pol : Polarity) (dur : Nat) (s : State) :
    fdBit b { s with eePol := pol, eeDur := dur } =
      ({ (fdBit b s).1 with eePol := pol, eeDur := dur }, (fdBit b s).2) := by
  rcases fdBit_cases b s with ⟨h, rfl, e⟩ | ⟨h, hb, hc, hg, e⟩ | ⟨h, hb, hc, hg, e⟩ | ⟨h, rfl, hc, e⟩ | ⟨rfl, h, e⟩ |
    ⟨v, h, hb, hn, e⟩ | ⟨h, rfl, hn, e⟩ | ⟨h, rfl, hn, e⟩ <;> rw [e] <;> unfold fdBit
  · simp [h, fdSeekOne]
  · cases b <;> simp_all [preambleMin, fdSeekGarbage]
  · cases b <;> simp_all [preambleMin, fdSeekGarbage, raise, recover, emit, Anomaly.event]
  · simp [h, preambleMin, Nat.not_lt.2 hc, fdSeekStart, emit]
  · cases hs : s.fdState
    · simp [preambleMin, Nat.not_lt.2 (h hs), fdSeekCorruptStart, raise, recover, resync, emit, Anomaly.event]
    · simp [fdReadCorrupt, raise, recover, resync, emit, Anomaly.event]
  · subst hb; cases v <;> simp [h, hn, fdReadData]
  · simp [h, Nat.not_lt.2 hn, fdReadMore]
  · simp [h, Nat.not_lt.2 hn, fdReadEnd, completedPacket, emit, preambleRestart]

/-- `FD.end` writes no register (R159). -/
theorem fdEnd_eq (s : State) :
    fdEnd s = { s with outEvents := s.outEvents ++
      (if s.fdState = .read ∨ 0 < s.fdCnt then [.diag .partialAtEnd] else []) } := by
  unfold fdEnd
  split <;> simp [raise, recover, emit, Anomaly.event]

theorem ckFail_eq (p : List Byte) (s : State) :
    ckFail p s = { s with outEvents := s.outEvents ++
      [.diag (.checksumMismatch (checksumComputed p) (checksumReceived p)), .result (.checksumError p)] } := by
  simp [ckFail, raise, recover, emit, Anomaly.event]

/-- What follows a packet in its step reaches only the step's own registers and the output list: it ends with a
next state, and with these gone only events have been appended (R182). -/
theorem ckPacket_answers (p : List Byte) (s : State) :
    ∃ evs t, ckPacket p s = .next t ∧
      t = { s with ckOk := t.ckOk, ciPhase := t.ciPhase, ciPayload := t.ciPayload, cur := t.cur, tgt := t.tgt,
                   outEvents := s.outEvents ++ evs } := by
  unfold ckPacket
  split
  · obtain ⟨rs, t, ht, hr⟩ := interpretPayload_reportsOnly p.dropLast (ckValidate p s)
    exact ⟨rs.map .result, t, ht, by rw [hr]; rfl⟩
  · exact ⟨_, _, rfl, by rw [ckFail_eq]; rfl⟩

end Sys2Proof.Machine
end

