-- ==== Sys2Proof/Laws/Step.lean ====
section
/-! SUPPORT. The step, said once: which next states it has, through the stages of Laws/Stages.lean. A proof about a
step takes step_cases, then feedEvent_cases, then the cases of the stages, and unfolds nothing. -/

namespace Sys2Proof.Machine

/-- The registers that live only inside a step apart, the two states are the same. -/
def SameAfterStep (s t : State) : Prop := endStep t = endStep s

theorem SameAfterStep.refl (s : State) : SameAfterStep s s := rfl

theorem SameAfterStep.tbNum {s t : State} (h : SameAfterStep s t) : t.tbNum = s.tbNum := by
  simpa using congrArg State.tbNum h
theorem SameAfterStep.tbDen {s t : State} (h : SameAfterStep s t) : t.tbDen = s.tbDen := by
  simpa using congrArg State.tbDen h
theorem SameAfterStep.eeValid {s t : State} (h : SameAfterStep s t) : t.eeValid = s.eeValid := by
  simpa using congrArg State.eeValid h
theorem SameAfterStep.eePol {s t : State} (h : SameAfterStep s t) : t.eePol = s.eePol := by
  simpa using congrArg State.eePol h
theorem SameAfterStep.eeDur {s t : State} (h : SameAfterStep s t) : t.eeDur = s.eeDur := by
  simpa using congrArg State.eeDur h
theorem SameAfterStep.dpPend {s t : State} (h : SameAfterStep s t) : t.dpPend = s.dpPend := by
  simpa using congrArg State.dpPend h
theorem SameAfterStep.fdState {s t : State} (h : SameAfterStep s t) : t.fdState = s.fdState := by
  simpa using congrArg State.fdState h
theorem SameAfterStep.fdCnt {s t : State} (h : SameAfterStep s t) : t.fdCnt = s.fdCnt := by
  simpa using congrArg State.fdCnt h
theorem SameAfterStep.fdByte {s t : State} (h : SameAfterStep s t) : t.fdByte = s.fdByte := by
  simpa using congrArg State.fdByte h
theorem SameAfterStep.fdNbits {s t : State} (h : SameAfterStep s t) : t.fdNbits = s.fdNbits := by
  simpa using congrArg State.fdNbits h
theorem SameAfterStep.fdPkt {s t : State} (h : SameAfterStep s t) : t.fdPkt = s.fdPkt := by
  simpa using congrArg State.fdPkt h
theorem SameAfterStep.fdGlog {s t : State} (h : SameAfterStep s t) : t.fdGlog = s.fdGlog := by
  simpa using congrArg State.fdGlog h
theorem SameAfterStep.done {s t : State} (h : SameAfterStep s t) : t.done = s.done := by
  simpa using congrArg State.done h
theorem SameAfterStep.inEvents {s t : State} (h : SameAfterStep s t) : t.inEvents = s.inEvents := by
  simpa using congrArg State.inEvents h
theorem SameAfterStep.outEvents {s t : State} (h : SameAfterStep s t) : t.outEvents = s.outEvents := by
  simpa using congrArg State.outEvents h

/-- The events a completed packet can give after its own tap event (R182): results, or the checksum's two. -/
def PacketReport (packet : List Byte) (evs : List OutEvent) : Prop :=
  (checksumOk packet = true ∧ ∃ rs : List Result, evs = rs.map .result) ∨
  (checksumOk packet = false ∧
    evs = [.diag (.checksumMismatch (checksumComputed packet) (checksumReceived packet)),
           .result (.checksumError packet)])

theorem ckPacket_report (p : List Byte) (s : State) :
    ∃ evs t, ckPacket p s = .next t ∧ SameAfterStep { s with outEvents := s.outEvents ++ evs } t ∧
      PacketReport p evs := by
  unfold ckPacket
  split
  · rename_i h
    obtain ⟨rs, t, ht, hr⟩ := interpretPayload_reportsOnly p.dropLast (ckValidate p s)
    exact ⟨rs.map .result, t, ht, by rw [SameAfterStep, hr.endStep]; rfl, .inl ⟨h, rs, rfl⟩⟩
  · rename_i h
    exact ⟨_, _, rfl, by rw [ckFail_eq]; rfl, .inr ⟨by simpa using h, rfl⟩⟩

/-- The Frame Decoder and what follows it: its transition, and the report of a packet it completed. -/
theorem feedBit_answers (b : BitVal) (s : State) :
    ∃ evs u, feedBit b s = .next u ∧
      SameAfterStep { (fdBit b s).1 with outEvents := (fdBit b s).1.outEvents ++ evs } u ∧
      ((fdBit b s).2 = none → evs = []) ∧ (∀ p, (fdBit b s).2 = some p → PacketReport p evs) := by
  unfold feedBit
  rcases hb : fdBit b s with ⟨t, _ | p⟩
  · exact ⟨[], t, rfl, by simp [SameAfterStep.refl], fun _ => rfl, fun p h => by cases h⟩
  · obtain ⟨evs, u, hu, hs, hr⟩ := ckPacket_report p t
    exact ⟨evs, u, hu, hs, fun h => (by cases h), fun p' h => by cases h; exact hr⟩

/-- The Bit Classifier's events, then the Frame Decoder on its bit. -/
theorem feedPair_eq (p : Pair) (s : State) :
    feedPair p s = feedBit (s.classify p.high p.low)
      { s with outEvents := s.outEvents ++ classifierEvents s p.high p.low } := by
  rw [feedPair, bcClassify_eq]

/-- What the stages make of an input event: it ends in the Edge Extractor, or in the Duration Pairer, or a pair goes
through the Bit Classifier to the Frame Decoder and, with a packet, beyond. -/
theorem feedEvent_cases (ev : InEvent) (s : State) :
    ∃ u, feedEvent ev s = .next u ∧
      (extract ev s = (u, none) ∨
       (∃ t r, extract ev s = (t, some r) ∧ dpRun r t = (u, none)) ∨
       (∃ t r t' p evs f, extract ev s = (t, some r) ∧ dpRun r t = (t', some p) ∧
          f = fdBit (t'.classify p.high p.low)
            { t' with outEvents := t'.outEvents ++ classifierEvents t' p.high p.low } ∧
          SameAfterStep { f.1 with outEvents := f.1.outEvents ++ evs } u ∧
          (f.2 = none → evs = []) ∧ (∀ pk, f.2 = some pk → PacketReport pk evs))) := by
  unfold feedEvent
  rcases he : extract ev s with ⟨t, _ | r⟩
  · exact ⟨t, rfl, .inl rfl⟩
  · simp only [feedRun]
    rcases hd : dpRun r t with ⟨t', _ | p⟩
    · exact ⟨t', rfl, .inr (.inl ⟨t, r, rfl, hd⟩)⟩
    · obtain ⟨evs, u, hu, hs, hn, hp⟩ := feedBit_answers (t'.classify p.high p.low)
        { t' with outEvents := t'.outEvents ++ classifierEvents t' p.high p.low }
      exact ⟨u, by simp only [feedPair_eq]; exact hu, .inr (.inr ⟨t, r, t', p, evs, _, rfl, hd, rfl, hs, hn, hp⟩)⟩

/-- The stages never stop the machine (R239). -/
theorem feedEvent_answers (ev : InEvent) (s : State) : ∃ u, feedEvent ev s = .next u := by
  obtain ⟨u, h, _⟩ := feedEvent_cases ev s
  exact ⟨u, h⟩

/-- The end of a step on a sample sees only what is there after the step. -/
theorem closeStep_sample {v : Int} {s t : State} (h : SameAfterStep s t) :
    closeStep (.sample v) t = endStep s := h

/-- The end of the End step: `FD.end`, then DONE (R264, R266). -/
theorem closeStep_endOfInput {s t : State} (h : SameAfterStep s t) :
    closeStep .endOfInput t = { endStep s with
      done := true
      outEvents := s.outEvents ++ (if s.fdState = .read ∨ 0 < s.fdCnt then [.diag .partialAtEnd] else []) } := by
  obtain ⟨x1, x2, x3, x4, x5, x6, x7, x8, x9, x10, x11, x12, x13, _, _, _, _, _, x19, x20⟩ := s
  obtain ⟨y1, y2, y3, y4, y5, y6, y7, y8, y9, y10, y11, y12, y13, _, _, _, _, _, y19, y20⟩ := t
  simp only [SameAfterStep, endStep, State.mk.injEq, true_and] at h
  obtain ⟨rfl, rfl, rfl, rfl, rfl, rfl, rfl, rfl, rfl, rfl, rfl, rfl, rfl, rfl, rfl⟩ := h
  simp only [closeStep, fdEnd_eq]
  rfl

/-- Every next state of a step: a payload in hand is finished; with no event the machine waits; after End the event
is dropped; else the stages react to the oldest event under a legal timebase and the step ends. -/
theorem step_cases {s t : State} (h : step s = .next t) :
    (s.ciPhase ≠ .idle ∧ ∃ rs : List Result, t = endStep { s with outEvents := s.outEvents ++ rs.map .result }) ∨
    (s.ciPhase = .idle ∧ s.inEvents = [] ∧ t = s) ∨
    (∃ ev q, s.ciPhase = .idle ∧ s.inEvents = ev :: q ∧ s.done = true ∧ t = { s with inEvents := q }) ∨
    (∃ ev q u, s.ciPhase = .idle ∧ s.inEvents = ev :: q ∧ s.done = false ∧ 1 ≤ s.tbNum ∧ 1 ≤ s.tbDen ∧
      feedEvent ev { s with inEvents := q } = .next u ∧ t = closeStep ev u) := by
  unfold step at h
  split at h
  · rename_i hi
    unfold takeEvent at h
    split at h
    · rename_i hq
      cases h
      exact .inr (.inl ⟨hi, hq, rfl⟩)
    · rename_i ev q hq
      unfold react at h
      split at h
      · rename_i hd
        cases h
        exact .inr (.inr (.inl ⟨ev, q, hi, hq, hd, rfl⟩))
      · rename_i hd
        split at h
        · rename_i hl
          obtain ⟨u, hu, ht⟩ := andThen_eq_next h
          cases ht
          have hl' := legalTimebase_eq_true.1 hl
          exact .inr (.inr (.inr ⟨ev, q, u, hi, hq, by simpa using hd, hl'.1, hl'.2, hu, rfl⟩))
        · cases h
  · rename_i hi
    refine .inl ⟨hi, ?_⟩
    obtain ⟨u, hu, ht⟩ := andThen_eq_next h
    cases ht
    obtain ⟨rs, u', hu', hr⟩ := runInterpreter_reportsOnly s
    rw [hu] at hu'
    cases hu'
    exact ⟨rs, hr.endStep⟩

/-- The step of a legal timebase on an event, before End. -/
theorem step_event {s : State} {ev : InEvent} {q : List InEvent} (hi : s.ciPhase = .idle) (hq : s.inEvents = ev :: q)
    (hd : s.done = false) (hn : 1 ≤ s.tbNum) (hm : 1 ≤ s.tbDen) :
    step s = andThen (feedEvent ev { s with inEvents := q }) fun t => .next (closeStep ev t) := by
  have hl : legalTimebase s.tbNum s.tbDen = true := legalTimebase_eq_true.2 ⟨hn, hm⟩
  simp [step, hi, takeEvent, hq, react, hd, hl]

/-- The packet buffer keeps its canonical form in the Frame Decoder. -/
theorem fdBit_wf {s : State} (h : s.fdPkt.wf) (b : BitVal) : (fdBit b s).1.fdPkt.wf := by
  rcases fdBit_cases b s with ⟨-, -, e⟩ | ⟨-, -, -, -, e⟩ | ⟨-, -, -, -, e⟩ | ⟨-, -, -, e⟩ | ⟨-, -, e⟩ |
    ⟨v, -, -, -, e⟩ | ⟨-, -, -, e⟩ | ⟨-, -, -, e⟩ <;> rw [e]
  · exact h
  · exact h
  · exact h
  · exact Memory.wf_nil
  · exact Memory.wf_nil
  · exact h
  · exact Memory.wf_append h _
  · exact Memory.wf_nil

end Sys2Proof.Machine
end

