-- ==== Sys2Proof/Laws/Streams.lean ====
section
/-! SUPPORT. The streams of an output list (10_state.md R50 to R53): they follow an append, and which stage adds to
which stream. -/

namespace Sys2Proof.Machine

@[simp] theorem runsOf_nil : runsOf [] = [] := rfl
@[simp] theorem packetsOf_nil : packetsOf [] = [] := rfl
@[simp] theorem resultsOf_nil : resultsOf [] = [] := rfl
@[simp] theorem anomaliesOf_nil : anomaliesOf [] = [] := rfl

@[simp] theorem runsOf_append (a b : List OutEvent) : runsOf (a ++ b) = runsOf a ++ runsOf b :=
  List.filterMap_append
@[simp] theorem packetsOf_append (a b : List OutEvent) : packetsOf (a ++ b) = packetsOf a ++ packetsOf b :=
  List.filterMap_append
@[simp] theorem resultsOf_append (a b : List OutEvent) : resultsOf (a ++ b) = resultsOf a ++ resultsOf b :=
  List.filterMap_append
@[simp] theorem anomaliesOf_append (a b : List OutEvent) : anomaliesOf (a ++ b) = anomaliesOf a ++ anomaliesOf b :=
  List.filterMap_append

@[simp] theorem runsOf_run (p : Polarity) (d : Nat) (es : List OutEvent) : runsOf (.tap (.run p d) :: es) = { pol := p, dur := d } :: runsOf es := rfl
@[simp] theorem runsOf_pair (h l : Nat) (es : List OutEvent) : runsOf (.tap (.pair h l) :: es) = runsOf es := rfl
@[simp] theorem runsOf_bit (b : BitVal) (es : List OutEvent) : runsOf (.tap (.bit b) :: es) = runsOf es := rfl
@[simp] theorem runsOf_packet (p : List Byte) (es : List OutEvent) : runsOf (.tap (.packet p) :: es) = runsOf es := rfl
@[simp] theorem runsOf_stat (x : Statistic) (es : List OutEvent) : runsOf (.stat x :: es) = runsOf es := rfl
@[simp] theorem runsOf_diag (a : Anomaly) (es : List OutEvent) : runsOf (.diag a :: es) = runsOf es := rfl
@[simp] theorem runsOf_result (r : Result) (es : List OutEvent) : runsOf (.result r :: es) = runsOf es := rfl

@[simp] theorem packetsOf_run (p : Polarity) (d : Nat) (es : List OutEvent) : packetsOf (.tap (.run p d) :: es) = packetsOf es := rfl
@[simp] theorem packetsOf_pair (h l : Nat) (es : List OutEvent) : packetsOf (.tap (.pair h l) :: es) = packetsOf es := rfl
@[simp] theorem packetsOf_bit (b : BitVal) (es : List OutEvent) : packetsOf (.tap (.bit b) :: es) = packetsOf es := rfl
@[simp] theorem packetsOf_packet (p : List Byte) (es : List OutEvent) : packetsOf (.tap (.packet p) :: es) = p :: packetsOf es := rfl
@[simp] theorem packetsOf_stat (x : Statistic) (es : List OutEvent) : packetsOf (.stat x :: es) = packetsOf es := rfl
@[simp] theorem packetsOf_diag (a : Anomaly) (es : List OutEvent) : packetsOf (.diag a :: es) = packetsOf es := rfl
@[simp] theorem packetsOf_result (r : Result) (es : List OutEvent) : packetsOf (.result r :: es) = packetsOf es := rfl

@[simp] theorem resultsOf_run (p : Polarity) (d : Nat) (es : List OutEvent) : resultsOf (.tap (.run p d) :: es) = resultsOf es := rfl
@[simp] theorem resultsOf_pair (h l : Nat) (es : List OutEvent) : resultsOf (.tap (.pair h l) :: es) = resultsOf es := rfl
@[simp] theorem resultsOf_bit (b : BitVal) (es : List OutEvent) : resultsOf (.tap (.bit b) :: es) = resultsOf es := rfl
@[simp] theorem resultsOf_packet (p : List Byte) (es : List OutEvent) : resultsOf (.tap (.packet p) :: es) = resultsOf es := rfl
@[simp] theorem resultsOf_stat (x : Statistic) (es : List OutEvent) : resultsOf (.stat x :: es) = resultsOf es := rfl
@[simp] theorem resultsOf_diag (a : Anomaly) (es : List OutEvent) : resultsOf (.diag a :: es) = resultsOf es := rfl
@[simp] theorem resultsOf_result (r : Result) (es : List OutEvent) : resultsOf (.result r :: es) = r :: resultsOf es := rfl

@[simp] theorem anomaliesOf_run (p : Polarity) (d : Nat) (es : List OutEvent) : anomaliesOf (.tap (.run p d) :: es) = anomaliesOf es := rfl
@[simp] theorem anomaliesOf_pair (h l : Nat) (es : List OutEvent) : anomaliesOf (.tap (.pair h l) :: es) = anomaliesOf es := rfl
@[simp] theorem anomaliesOf_bit (b : BitVal) (es : List OutEvent) : anomaliesOf (.tap (.bit b) :: es) = anomaliesOf es := rfl
@[simp] theorem anomaliesOf_packet (p : List Byte) (es : List OutEvent) : anomaliesOf (.tap (.packet p) :: es) = anomaliesOf es := rfl
@[simp] theorem anomaliesOf_stat (x : Statistic) (es : List OutEvent) : anomaliesOf (.stat x :: es) = anomaliesOf es := rfl
@[simp] theorem anomaliesOf_diag (a : Anomaly) (es : List OutEvent) : anomaliesOf (.diag a :: es) = a :: anomaliesOf es := rfl

/-- Results are no runs. -/
@[simp] theorem runsOf_results (rs : List Result) : runsOf (rs.map .result) = [] := by
  simp [runsOf, List.filterMap_map]

/-- Results are no packets. -/
@[simp] theorem packetsOf_results (rs : List Result) : packetsOf (rs.map .result) = [] := by
  simp [packetsOf, List.filterMap_map]

/-- The results of a list of results are the list. -/
@[simp] theorem resultsOf_results (rs : List Result) : resultsOf (rs.map .result) = rs := by
  simp [resultsOf, List.filterMap_map]

/-- Results never hold the anomaly Garbage. -/
theorem garbage_notMem_results (rs : List Result) : .garbage ∉ anomaliesOf (rs.map .result) := by
  intro h
  simp only [anomaliesOf, List.filterMap_map, List.mem_filterMap, Function.comp_apply] at h
  obtain ⟨r, -, h⟩ := h
  cases r <;> simp at h

/-- What follows a packet is no run and no packet. -/
theorem PacketReport.runsOf {p : List Byte} {evs : List OutEvent} (h : PacketReport p evs) : runsOf evs = [] := by
  rcases h with ⟨-, rs, rfl⟩ | ⟨-, rfl⟩
  · exact runsOf_results rs
  · rfl

theorem PacketReport.packetsOf {p : List Byte} {evs : List OutEvent} (h : PacketReport p evs) :
    packetsOf evs = [] := by
  rcases h with ⟨-, rs, rfl⟩ | ⟨-, rfl⟩
  · exact packetsOf_results rs
  · rfl

theorem PacketReport.garbage {p : List Byte} {evs : List OutEvent} (h : PacketReport p evs) :
    .garbage ∉ anomaliesOf evs := by
  rcases h with ⟨-, rs, rfl⟩ | ⟨-, rfl⟩
  · exact garbage_notMem_results rs
  · simp [anomaliesOf]

/-- The Bit Classifier emits no run. -/
@[simp] theorem runsOf_classifierEvents (s : State) (h l : Nat) : runsOf (classifierEvents s h l) = [] := by
  unfold classifierEvents
  split
  · split <;> rfl
  · rfl
  · rfl

/-- The Bit Classifier emits no packet. -/
@[simp] theorem packetsOf_classifierEvents (s : State) (h l : Nat) : packetsOf (classifierEvents s h l) = [] := by
  unfold classifierEvents
  split
  · split <;> rfl
  · rfl
  · rfl

/-- The anomalies of the Bit Classifier: one for a bit that is Unknown, one for a One whose halves disagree. -/
theorem anomaliesOf_classifierEvents (s : State) (h l : Nat) :
    anomaliesOf (classifierEvents s h l) =
      match s.classify h l with
      | .one     => if s.mismatched h l then [.mismatchedPair h l] else []
      | .zero    => []
      | .unknown => [.unknownBit h l] := by
  unfold classifierEvents
  cases s.classify h l with
  | one => cases s.mismatched h l <;> rfl
  | zero => rfl
  | unknown => rfl

/-- The Frame Decoder appends to the output list, and no run. -/
theorem fdBit_runsOf (b : BitVal) (s : State) : runsOf (fdBit b s).1.outEvents = runsOf s.outEvents := by
  rcases fdBit_cases b s with ⟨-, -, e⟩ | ⟨-, -, -, -, e⟩ | ⟨-, -, -, -, e⟩ | ⟨-, -, -, e⟩ | ⟨-, -, e⟩ |
    ⟨v, -, -, -, e⟩ | ⟨-, -, -, e⟩ | ⟨-, -, -, e⟩ <;> rw [e] <;> simp [runsOf, fdReadData]

/-- What the Frame Decoder's transition leaves as it was: everything before it, DONE, the timebase and the queue. -/
structure SameBeforeFrame (s t : State) : Prop where
  tbNum    : t.tbNum = s.tbNum
  tbDen    : t.tbDen = s.tbDen
  eeValid  : t.eeValid = s.eeValid
  eePol    : t.eePol = s.eePol
  eeDur    : t.eeDur = s.eeDur
  dpPend   : t.dpPend = s.dpPend
  done     : t.done = s.done
  inEvents : t.inEvents = s.inEvents
  runs     : runsOf t.outEvents = runsOf s.outEvents

theorem fdBit_sameBeforeFrame (b : BitVal) (s : State) : SameBeforeFrame s (fdBit b s).1 := by
  have hr := fdBit_runsOf b s
  rcases fdBit_cases b s with ⟨-, -, e⟩ | ⟨-, -, -, -, e⟩ | ⟨-, -, -, -, e⟩ | ⟨-, -, -, e⟩ | ⟨-, -, e⟩ |
    ⟨v, -, -, -, e⟩ | ⟨-, -, -, e⟩ | ⟨-, -, -, e⟩ <;> rw [e] at hr ⊢ <;>
    exact ⟨rfl, rfl, rfl, rfl, rfl, rfl, rfl, rfl, hr⟩

/-- The stages behind the Duration Pairer leave the two stages before, and the runs emitted, as these left them. -/
theorem feedEvent_sameBeforeFrame {ev : InEvent} {s u : State} (hu : feedEvent ev s = .next u) :
    (∃ t, extract ev s = (t, none) ∧ SameBeforeFrame t u) ∨
    (∃ t r, extract ev s = (t, some r) ∧ SameBeforeFrame (dpRun r t).1 u) := by
  obtain ⟨u', hu', hc⟩ := feedEvent_cases ev s
  rw [hu] at hu'
  cases hu'
  have rfl' : ∀ x : State, SameBeforeFrame x x := fun x => ⟨rfl, rfl, rfl, rfl, rfl, rfl, rfl, rfl, rfl⟩
  rcases hc with e | ⟨t, r, e, d⟩ | ⟨t, r, t', p, evs, f, e, d, hf, hs, hn, hp⟩
  · exact .inl ⟨u, e, rfl' u⟩
  · exact .inr ⟨t, r, e, by rw [d]; exact rfl' u⟩
  · refine .inr ⟨t, r, e, ?_⟩
    rw [d]
    have h := fdBit_sameBeforeFrame (t'.classify p.high p.low)
      { t' with outEvents := t'.outEvents ++ classifierEvents t' p.high p.low }
    rw [← hf] at h
    have hevs : runsOf evs = [] := by
      cases h2 : f.2 with
      | none => rw [hn h2]; rfl
      | some pk => exact (hp pk h2).runsOf
    exact ⟨hs.tbNum.trans h.tbNum, hs.tbDen.trans h.tbDen, hs.eeValid.trans h.eeValid, hs.eePol.trans h.eePol,
      hs.eeDur.trans h.eeDur, hs.dpPend.trans h.dpPend, hs.done.trans h.done, hs.inEvents.trans h.inEvents, by
        have := h.runs
        rw [hs.outEvents, runsOf_append, hevs, List.append_nil, this]
        simp⟩

/-- What the Edge Extractor and the Duration Pairer leave as it was: the Frame Decoder's registers, the timebase, DONE
and the queue; they emit tap events only, and clear no EE_VALID. -/
structure SameFrame (s t : State) : Prop where
  fdState   : t.fdState = s.fdState
  fdCnt     : t.fdCnt = s.fdCnt
  fdByte    : t.fdByte = s.fdByte
  fdNbits   : t.fdNbits = s.fdNbits
  fdPkt     : t.fdPkt = s.fdPkt
  fdGlog    : t.fdGlog = s.fdGlog
  tbNum     : t.tbNum = s.tbNum
  tbDen     : t.tbDen = s.tbDen
  done      : t.done = s.done
  inEvents  : t.inEvents = s.inEvents
  eeValid   : s.eeValid = true → t.eeValid = true
  outEvents : ∃ es, t.outEvents = s.outEvents ++ es ∧ anomaliesOf es = [] ∧ packetsOf es = [] ∧ ∀ a, .diag a ∉ es

theorem SameFrame.trans {s t u : State} (h : SameFrame s t) (h' : SameFrame t u) : SameFrame s u := by
  obtain ⟨es, e1, e2, e3, e4⟩ := h.outEvents
  obtain ⟨es', e1', e2', e3', e4'⟩ := h'.outEvents
  exact ⟨h'.fdState.trans h.fdState, h'.fdCnt.trans h.fdCnt, h'.fdByte.trans h.fdByte, h'.fdNbits.trans h.fdNbits,
    h'.fdPkt.trans h.fdPkt, h'.fdGlog.trans h.fdGlog, h'.tbNum.trans h.tbNum, h'.tbDen.trans h.tbDen,
    h'.done.trans h.done, h'.inEvents.trans h.inEvents, fun hv => h'.eeValid (h.eeValid hv),
    es ++ es', by rw [e1', e1, List.append_assoc], by simp [e2, e2'], by simp [e3, e3'],
    fun a ha => (List.mem_append.1 ha).elim (e4 a) (e4' a)⟩

/-- A state that differs from `s` in the first two stages' registers and in tap events appended. -/
theorem SameFrame.mk' {s t : State} {es : List OutEvent}
    (h : t = { s with eeValid := t.eeValid, eePol := t.eePol, eeDur := t.eeDur, dpPend := t.dpPend,
                      outEvents := s.outEvents ++ es })
    (hv : s.eeValid = true → t.eeValid = true)
    (he : anomaliesOf es = [] ∧ packetsOf es = [] ∧ ∀ a, .diag a ∉ es) : SameFrame s t := by
  refine ⟨?_, ?_, ?_, ?_, ?_, ?_, ?_, ?_, ?_, ?_, hv, es, ?_, he⟩ <;> rw [h]

theorem extract_sameFrame (ev : InEvent) (s : State) : SameFrame s (extract ev s).1 := by
  cases ev with
  | sample v =>
    rcases eeSample_cases v s with ⟨_, e⟩ | ⟨_, _, e⟩ | ⟨_, _, e⟩ <;> rw [extract, e]
    · exact .mk' (es := []) (by simp [startRun]) (fun _ => rfl) (by simp)
    · exact .mk' (es := []) (by simp) id (by simp)
    · exact .mk' (es := [.tap (.run s.eePol s.eeDur)]) rfl (fun _ => rfl) (by simp)
  | endOfInput =>
    rcases eeEnd_cases s with ⟨_, e⟩ | ⟨_, e⟩ <;> rw [extract, e]
    · exact .mk' (es := []) (by simp) id (by simp)
    · exact .mk' (es := [.tap (.run s.eePol s.eeDur)]) rfl id (by simp)

theorem dpRun_sameFrame (r : Run) (s : State) : SameFrame s (dpRun r s).1 := by
  rcases dpRun_cases r s with ⟨-, e⟩ | ⟨-, -, e⟩ | ⟨h, -, -, e⟩ <;> rw [e]
  · exact .mk' (es := []) (by simp [dpHigh]) id (by simp)
  · exact .mk' (es := []) (by simp) id (by simp)
  · exact .mk' (es := [.tap (.pair h r.dur)]) rfl id (by simp)

/-- The stages' reaction, seen from the Frame Decoder: no pair reaches it, or one pair `p` does from a state `t` with
the same frame registers, and then comes what a completed packet gives. -/
theorem feedEvent_frame {ev : InEvent} {s u : State} (hu : feedEvent ev s = .next u) :
    SameFrame s u ∨
    ∃ (t : State) (p : Pair) (evs : List OutEvent) (f : State × Option (List Byte)), SameFrame s t ∧
      f = fdBit (t.classify p.high p.low) { t with outEvents := t.outEvents ++ classifierEvents t p.high p.low } ∧
      SameAfterStep { f.1 with outEvents := f.1.outEvents ++ evs } u ∧
      (f.2 = none → evs = []) ∧ (∀ pk, f.2 = some pk → PacketReport pk evs) := by
  obtain ⟨u', hu', hc⟩ := feedEvent_cases ev s
  rw [hu] at hu'
  cases hu'
  have hx := extract_sameFrame ev s
  rcases hc with e | ⟨t, r, e, d⟩ | ⟨t, r, t', p, evs, f, e, d, hf, hs, hn, hp⟩ <;> rw [e] at hx
  · exact .inl hx
  · have hy := dpRun_sameFrame r t
    rw [d] at hy
    exact .inl (hx.trans hy)
  · have hy := dpRun_sameFrame r t
    rw [d] at hy
    exact .inr ⟨t', p, evs, f, hx.trans hy, hf, hs, hn, hp⟩

end Sys2Proof.Machine
end

