-- ==== Sys2Proof/Machine/Text.lean ====
section
/-! DEFINITION. The text of results and taps (30_encoding.md R104, R105, R107). It is the surrounding software's
and outside SBCORE (00_scope.md R5 g); the machine does not use it. Of the descriptions only `fwd <n>/28` and
`Reset All` are the source's, the others are the spec's own (R105). -/

namespace Sys2Proof.Machine

/-- A bit of the raw bit line (R107). -/
def BitVal.text : BitVal → String
  | .one     => "1"
  | .zero    => "0"
  | .unknown => "?"

/-- A byte as eight characters, most significant first (R105). -/
def byteText (b : Byte) : String :=
  String.join ((List.range 8).reverse.map fun i => if b.getLsbD i then "1" else "0")

/-- A space-separated 8-bit binary dump (R104). -/
def dumpText (bs : List Byte) : String := String.intercalate " " (bs.map byteText)

/-- `Loco <id>` or `All` (R104). -/
def Target.text (t : Target) : String :=
  if t = .all then "All" else "Loco " ++ toString t.locoId

def Direction.text : Direction → String
  | .fwd => "fwd"
  | .rev => "rev"

def Speed128.text : Speed128 → String
  | .stop   => "Stop"
  | .eStop  => "E-Stop"
  | .step n => toString n ++ "/126"

def Speed28.text : Speed28 → String
  | .stop   => "Stop"
  | .stopI  => "Stop(intermediate)"
  | .eStop  => "E-Stop"
  | .eStopI => "E-Stop(intermediate)"
  | .step n => toString n ++ "/28"

/-- One function, on or off (R105). -/
def functionText (name : String) (on : Bool) : String := name ++ "=" ++ (if on then "on" else "off")

/-- The line of a result (R104, R105; log 25). -/
def Result.line : Result → String
  | .speed128 t d v => t.text ++ ": " ++ d.text ++ " " ++ v.text
  | .speed28 t d v => t.text ++ ": " ++ d.text ++ " " ++ v.text
  | .funcGroup1 t fl f1 f2 f3 f4 =>
      t.text ++ ": " ++ String.intercalate " "
        [functionText "FL" fl, functionText "F1" f1, functionText "F2" f2, functionText "F3" f3, functionText "F4" f4]
  | .funcGroup2 t base f0 f1 f2 f3 =>
      t.text ++ ": " ++ String.intercalate " "
        [functionText ("F" ++ toString base) f0, functionText ("F" ++ toString (base + 1)) f1,
         functionText ("F" ++ toString (base + 2)) f2, functionText ("F" ++ toString (base + 3)) f3]
  | .resetAll => "All: Reset All"
  | .idle => "Idle"
  | .unknownPacket p => dumpText p
  | .checksumError p => "ERR " ++ dumpText p

end Sys2Proof.Machine
end

