-- ==== Sys2Proof/Tests/Slice0.lean ====
section
/-! SUPPORT. The model's own tests: ill-formed terms refused, words written out from 30_encoding.md decoded, one step
at a time against the vectors of 95_test_vectors.md, and for every statement with hypotheses a witness that meets them. -/

namespace Sys2Proof.Tests

open Sys2Proof Sys2Proof.Machine

/-! ## Helpers -/

/-- The next state, if there is one. -/
def next? (o : Out) : Option State :=
  match o with
  | .next s => some s
  | .fault _ => none
  | .refused _ => none

/-- The refusal, if there is one. -/
def refusal? (o : Out) : Option Refusal :=
  match o with
  | .next _ => none
  | .fault _ => none
  | .refused r => some r

/-- The payload is in the interpreter's hands. -/
def atPayload (bs : List Byte) : State := enterInterpreter bs State.reset

/-- The interpreter is in the loop, `c` bytes in, with a target. -/
def inLoop (t : Target) (c : Nat) (bs : List Byte) : State := setTarget t c (atPayload bs)

/-- The results of the step that interprets a payload. -/
def resultsFor (bs : List Byte) : Option (List Result) := (next? (step (atPayload bs))).map fun t => resultsOf t.outEvents

/-- Seeking with a count of Ones. -/
def seeking (n : Nat) : State := { State.reset with fdCnt := n }

/-- Reading: the packet so far, the byte in progress and its number of bits. -/
def reading (pkt : List Byte) (b : Byte) (n : Nat) : State :=
  { State.reset with fdState := .read, fdPkt := Memory.ofBytes pkt, fdByte := b, fdNbits := n }

/-- At a timebase, with a run in progress, a pending high, and one event delivered. -/
def before (num den : Nat) (pol : Polarity) (dur : Nat) (pend : Option Nat) (ev : InEvent) : State :=
  { State.reset with
    tbNum := num, tbDen := den, eeValid := true, eePol := pol, eeDur := dur, dpPend := pend, inEvents := [ev] }

/-- The same with the Frame Decoder reading. -/
def beforeReading (pend : Nat) (dur : Nat) (pkt : List Byte) (b : Byte) (n : Nat) (ev : InEvent) : State :=
  { before 1 1 .low dur (some pend) ev with
    fdState := .read, fdPkt := Memory.ofBytes pkt, fdByte := b, fdNbits := n }

/-- The events of one step. -/
def eventsOf (s : State) : Option (List OutEvent) := (next? (step s)).map fun t => newEvents s t

/-! ## WellFormed refuses -/

theorem test_illFormed_idleInvalid_of_idle : WellFormed .address (.addrIdleInvalid [0x00#8]) = false := by decide
theorem test_illFormed_long_of_FF : WellFormed .address (.addrLong 63#6 0x12#8) = false := by decide
theorem test_illFormed_short_zero : WellFormed .address (.addrShort 0#7) = false := by decide
theorem test_illFormed_unknown_of_FF : WellFormed .address (.addrUnknown 63#6) = false := by decide
theorem test_illFormed_resetAll_not_all : WellFormed (.instruction false) .resetAll = false := by decide
theorem test_illFormed_unknownInstr_speed28 :
    WellFormed (.instruction false) (.unknownInstr 0x65#8 []) = false := by decide
theorem test_illFormed_unknownInstr_speed128 :
    WellFormed (.instruction false) (.unknownInstr 0x3F#8 [0x80#8]) = false := by decide
theorem test_illFormed_unknownInstr_fg1 :
    WellFormed (.instruction false) (.unknownInstr 0x90#8 []) = false := by decide
theorem test_illFormed_unknownInstr_fg2Hi :
    WellFormed (.instruction false) (.unknownInstr 0xB1#8 []) = false := by decide
theorem test_illFormed_unknownInstr_fg2Lo :
    WellFormed (.instruction false) (.unknownInstr 0xA8#8 []) = false := by decide
theorem test_illFormed_unknownInstr_resetAll :
    WellFormed (.instruction true) (.unknownInstr 0x00#8 []) = false := by decide
theorem test_illFormed_level_address : WellFormed .address (.speed28 true false 5#4) = false := by decide
theorem test_illFormed_level_instruction : WellFormed (.instruction true) .addrBroadcast = false := by decide

/-! ## Words written out from R88 to R102 -/

theorem test_decode_addrEmpty : (decode .address []).toOption = some .addrEmpty := by decide
theorem test_decode_addrBroadcast : (decode .address [0b00000000#8]).toOption = some .addrBroadcast := by decide
theorem test_decode_idle : (decode .address [0b11111111#8, 0b00000000#8]).toOption = some .idle := by decide
theorem test_decode_addrIdleInvalid :
    (decode .address [0b11111111#8, 0b00000001#8]).toOption = some (.addrIdleInvalid [1#8]) := by decide
theorem test_decode_addrLong :
    (decode .address [0b11000100#8, 0b11010010#8]).toOption = some (.addrLong 4#6 210#8) := by decide
theorem test_decode_addrAccessory :
    (decode .address [0b10000001#8, 0b11111000#8]).toOption = some (.addrAccessory 1#6 [0b11111000#8]) := by decide
theorem test_decode_addrShort : (decode .address [0b01111111#8]).toOption = some (.addrShort 127#7) := by decide
theorem test_decode_addrUnknown : (decode .address [0b11000100#8]).toOption = some (.addrUnknown 4#6) := by decide
theorem test_decode_speed128 :
    (decode (.instruction false) [0b00111111#8, 0b10000101#8]).toOption = some (.speed128 true 5#7) := by decide
theorem test_decode_speed28 :
    (decode (.instruction false) [0b01010011#8]).toOption = some (.speed28 false true 3#4) := by decide
theorem test_decode_fg1 :
    (decode (.instruction false) [0b10001010#8]).toOption = some (.fg1 false true false true false) := by decide
theorem test_decode_fg2Hi :
    (decode (.instruction false) [0b10110001#8]).toOption = some (.fg2Hi false false false true) := by decide
theorem test_decode_fg2Lo :
    (decode (.instruction false) [0b10101000#8]).toOption = some (.fg2Lo true false false false) := by decide
theorem test_decode_resetAll : (decode (.instruction true) [0b00000000#8]).toOption = some .resetAll := by decide
theorem test_decode_unknownInstr :
    (decode (.instruction true) [0b11000001#8, 0x65#8]).toOption = some (.unknownInstr 0xC1#8 [0x65#8]) := by decide
theorem test_decode_noByte : (decode (.instruction true) []).toOption = none := by decide

/-- R106: the packet of program P1 (95_test_vectors.md). -/
theorem test_encode_P1 :
    packetOf (payloadOf (.addrShort 3#7) [.speed28 true false 5#4]) = [0x03#8, 0x65#8, 0x66#8] := by decide
/-- R106: packet B of program P2. -/
theorem test_encode_P2 :
    packetOf (payloadOf (.addrLong 4#6 0xD2#8) [.speed128 true 5#7, .fg1 true false false false false]) =
      [0xC4#8, 0xD2#8, 0x3F#8, 0x85#8, 0x90#8, 0x3C#8] := by decide

/-! ## Table words: the host's reading and a step on it -/

theorem test_tableWord_idle : decodeTableWord 16 0xFF00 = some .idle := by decide
theorem test_tableWord_addrLong : decodeTableWord 16 0xC4D2 = some (.addrLong 4#6 0xD2#8) := by decide
theorem test_tableWord_speed128 : decodeTableWord 16 0x3F85 = some (.speed128 true 5#7) := by decide
theorem test_tableWord_addrEmpty : decodeTableWord 0 0 = some .addrEmpty := by decide
theorem test_fetchWord_speed28 :
    (next? (step (State.reset.withFetchWord 8 0x65))).map (fun t => resultsOf t.outEvents) =
      some [.speed28 .all .fwd (.step 7)] := by decide
theorem test_fetchWord_idle :
    (next? (step (State.reset.withFetchWord 16 0xFF00))).map (fun t => resultsOf t.outEvents) = some [.idle] := by
  decide

/-! ## One interpretation (V-AD, V-IN) -/

theorem test_addrEmpty : resultsFor [] = some [.unknownPacket []] := by decide
theorem test_addrBroadcast_only : resultsFor [0x00#8] = some [] := by decide
theorem test_idle : resultsFor [0xFF#8, 0x00#8] = some [.idle] := by decide
theorem test_addrIdleInvalid : resultsFor [0xFF#8, 0x00#8, 0x00#8] = some [.unknownPacket [0xFF#8, 0x00#8, 0x00#8]] := by
  decide
theorem test_addrLong_largest : resultsFor [0xFE#8, 0xFF#8, 0x60#8] = some [.speed28 (.long 16127#14) .fwd .stop] := by
  decide
theorem test_addrLong_zero_not_broadcast :
    resultsFor [0xC0#8, 0x00#8, 0x00#8] = some [.unknownPacket [0xC0#8, 0x00#8, 0x00#8]] := by decide
theorem test_addrAccessory : resultsFor [0x81#8, 0xF8#8] = some [.unknownPacket [0x81#8, 0xF8#8]] := by decide
theorem test_addrShort : resultsFor [0x03#8] = some [] := by decide
theorem test_addrUnknown : resultsFor [0xC4#8] = some [.unknownPacket [0xC4#8]] := by decide
theorem test_speed128_eStop : resultsFor [0x03#8, 0x3F#8, 0x81#8] = some [.speed128 (.short 3#7) .fwd .eStop] := by decide
theorem test_speed128_top : resultsFor [0x03#8, 0x3F#8, 0x7F#8] = some [.speed128 (.short 3#7) .rev (.step 126)] := by
  decide
theorem test_speed28_stopI : resultsFor [0x03#8, 0x50#8] = some [.speed28 (.short 3#7) .rev .stopI] := by decide
theorem test_speed28_top : resultsFor [0x03#8, 0x5F#8] = some [.speed28 (.short 3#7) .rev (.step 28)] := by decide
theorem test_fg1 : resultsFor [0x03#8, 0x85#8] = some [.funcGroup1 (.short 3#7) false true false true false] := by decide
theorem test_fg2Hi : resultsFor [0x03#8, 0xB5#8] = some [.funcGroup2 (.short 3#7) 5 true false true false] := by decide
theorem test_fg2Lo : resultsFor [0x03#8, 0xA5#8] = some [.funcGroup2 (.short 3#7) 9 true false true false] := by decide
theorem test_resetAll_twice : resultsFor [0x00#8, 0x00#8, 0x00#8] = some [.resetAll, .resetAll] := by decide
theorem test_resetAll_not_all : resultsFor [0x03#8, 0x00#8] = some [.unknownPacket [0x03#8, 0x00#8]] := by decide
theorem test_unknownInstr_stops : resultsFor [0x03#8, 0x90#8, 0xC1#8, 0x65#8] =
    some [.funcGroup1 (.short 3#7) true false false false false, .unknownPacket [0x03#8, 0x90#8, 0xC1#8, 0x65#8]] := by
  decide
theorem test_unknownInstr_lone_3F : resultsFor [0x03#8, 0x3F#8, 0x80#8, 0x3F#8] =
    some [.speed128 (.short 3#7) .fwd .stop, .unknownPacket [0x03#8, 0x3F#8, 0x80#8, 0x3F#8]] := by decide

/-! ## One step on a sample or on End (P0, V-BC, V-FD, V-CK, V-AN, V-RS) -/

/-- P0, step 4. -/
theorem test_step_one : eventsOf (before 50 1 .low 1 (some 2) (.sample 7)) =
    some [.tap (.run .low 1), .tap (.pair 2 1), .stat (.oneWidth ⟨100, 1⟩), .tap (.bit .one)] := by decide
/-- P0, step 3: the closed high run is parked. -/
theorem test_step_park : (next? (step (before 50 1 .high 2 none (.sample (-1))))).map State.dpPend = some (some 2) := by
  decide
/-- V-EE3: zero is high. -/
theorem test_sample_zero_high : polarity 0 = .high := by decide
/-- V-BC at TB = 1: (58, 67) is a mismatched One, (58, 66) is not. -/
theorem test_mismatch_edge : eventsOf (before 1 1 .low 67 (some 58) (.sample 0)) =
    some [.tap (.run .low 67), .tap (.pair 58 67), .diag (.mismatchedPair 58 67), .stat (.oneWidth ⟨58, 1⟩),
      .tap (.bit .one)] := by decide
theorem test_no_mismatch_edge : (State.reset.mismatched 58 66) = false := by decide
theorem test_zero_edge : (State.reset.classify 95 95, State.reset.classify 95 94) = (.zero, .unknown) := by decide
theorem test_one_edges : (State.reset.classify 52 52, State.reset.classify 65 65, State.reset.classify 66 66) =
    (.one, .one, .unknown) := by decide
/-- V-BC at TB = 32: One wins where both fit. -/
theorem test_one_before_zero : ({ State.reset with tbNum := 32 } : State).classify 3 3 = .one := by decide
/-- V-AN: an Unknown pair while SEEK, count 3. -/
theorem test_anomaly_garbage : eventsOf { before 1 1 .low 30 (some 30) (.sample 0) with fdCnt := 3 } =
    some [.tap (.run .low 30), .tap (.pair 30 30), .diag (.unknownBit 30 30), .tap (.bit .unknown), .diag .garbage] := by
  decide
/-- V-AN: an Unknown pair while READ. -/
theorem test_anomaly_corrupt : eventsOf (beforeReading 30 30 [] 0#8 3 (.sample 0)) =
    some [.tap (.run .low 30), .tap (.pair 30 30), .diag (.unknownBit 30 30), .tap (.bit .unknown),
      .diag .corruptPacket] := by decide
/-- P1, step 6223. -/
theorem test_step_packet : eventsOf (beforeReading 100 100 [0x03#8, 0x65#8] 0x66#8 8 (.sample 50)) =
    some [.tap (.run .low 100), .tap (.pair 100 100), .stat (.zeroWidth ⟨100, 1⟩), .tap (.bit .zero),
      .tap (.packet [0x03#8, 0x65#8, 0x66#8]), .result (.speed28 (.short 3#7) .fwd (.step 7))] := by decide
/-- V-CK: a packet that fails. -/
theorem test_step_bad_packet : eventsOf (beforeReading 100 100 [0x03#8, 0x65#8] 0x67#8 8 (.sample 50)) =
    some [.tap (.run .low 100), .tap (.pair 100 100), .stat (.zeroWidth ⟨100, 1⟩), .tap (.bit .zero),
      .tap (.packet [0x03#8, 0x65#8, 0x67#8]), .diag (.checksumMismatch 0x66#8 0x67#8),
      .result (.checksumError [0x03#8, 0x65#8, 0x67#8])] := by decide
/-- V-FD13 to V-FD15 and V-FD20 in one step each: the seventh bit, the append, the silent count. -/
theorem test_read_data : (fdBit .one (reading [] 0x2#8 2)).1 = reading [] 0x5#8 3 := by decide
theorem test_read_more : (fdBit .one (reading [0x03#8] 0x65#8 8)).1 = reading [0x03#8, 0x65#8] 0#8 0 := by decide
theorem test_seek_start_at_ten : (fdBit .zero (seeking 10)).1.fdState = .read := by decide
theorem test_seek_garbage_at_nine : (fdBit .zero (seeking 9)).1.outEvents = [.diag .garbage] := by decide
/-- P0, step 9. -/
theorem test_end : eventsOf { before 50 1 .high 1 none .endOfInput with fdCnt := 2 } =
    some [.tap (.run .high 1), .diag .partialAtEnd] := by decide
/-- P0, step 10. -/
theorem test_after_end : next? (step { State.reset with done := true, inEvents := [.sample 9] }) =
    some { State.reset with done := true } := by decide
/-- V-RS. -/
theorem test_reset_coarse : (next? (resetWith 81 2)).map State.outEvents = some [.diag (.timebaseCoarse 81 2)] := by decide
theorem test_reset_forty : (next? (resetWith 40 1)).map State.outEvents = some [] := by decide
theorem test_reset_refused : refusal? (resetWith 1 0) = some .illegalTimebase := by decide
theorem test_reset_state : next? (resetWith 1 1) = some State.reset := by decide
/-- R56: the port's byte is two's complement. -/
theorem test_port : (eventOfPort false 0x80#8, eventOfPort true 0x80#8) = (.sample (-128), .endOfInput) := by decide
/-- E9 and R104: text of a result. -/
theorem test_text : (Result.speed28 (.short 3#7) .fwd (.step 7)).line = "Loco 3: fwd 7/28" := by decide
theorem test_finite_refuses : refusal? (stepFinite { durW := some 2, cntW := some 8, pktMax := some 6 }
    (before 1 1 .high 3 none (.sample 1))) = some .beyondWidths := by decide
theorem test_finite_conforms : next? (stepFinite { durW := some 2, cntW := some 8, pktMax := some 6 }
    (before 1 1 .high 2 none (.sample 1))) = next? (step (before 1 1 .high 2 none (.sample 1))) := by decide

/-! ## Witnesses: for every statement with hypotheses, values that meet them, clause by clause at the edges -/

theorem inv_of {s : State} (ht : 1 ≤ s.tbNum ∧ 1 ≤ s.tbDen) (hr : s.eeValid = true → 1 ≤ s.eeDur)
    (hp : s.dpPend.all (fun h => decide (1 ≤ h)) = true) (hf : s.FrameOk) (hb : s.fdPkt.wf) (hs : s.Between) :
    s.Inv :=
  ⟨ht, hr, fun h hh => by rw [hh] at hp; simpa using hp, hf, hb, hs⟩

theorem test_witness_EncodedFormDecodesToItself :
    (WellFormed .address (.addrLong 62#6 0xFF#8) = true ∧ (Instr.addrLong 62#6 0xFF#8).takesAll = false) ∧
    (WellFormed (.instruction true) (.unknownInstr 0xFF#8 [0x65#8]) = true ∧
      (Instr.unknownInstr 0xFF#8 [0x65#8]).takesAll = true) := by decide

theorem test_witness_DecodedBytesAreTheFormsEncoding :
    (decode .address [0x03#8, 0x65#8]).toOption = some (.addrShort 3#7) ∧
    (decode (.instruction true) [0x00#8, 0x00#8]).toOption = some .resetAll := by decide

theorem test_witness_AddrUnknownIsALoneByteC0ToFE :
    (decode .address [0xC0#8]).toOption = some (.addrUnknown 0#6) ∧
    (decode .address [0xFE#8]).toOption = some (.addrUnknown 62#6) := by decide

/-- The edges of every range of R102, and the forms they decode to. -/
theorem test_witness_UnknownEncodingsAreExactlyThoseListed :
    ([0x01#8, 0x1F#8, 0x20#8, 0x3E#8, 0xC0#8, 0xDF#8, 0xE0#8, 0xFF#8].all fun b =>
      (decode (.instruction true) [b, 0x65#8]).toOption == some (.unknownInstr b [0x65#8])) = true ∧
    (decode (.instruction false) [0x00#8]).toOption = some (.unknownInstr 0x00#8 []) ∧
    (decode (.instruction false) [0x3F#8]).toOption = some (.unknownInstr 0x3F#8 []) ∧
    (decode .address [0xFF#8]).toOption = some (.addrIdleInvalid []) ∧
    (decode .address [0x80#8]).toOption = some (.addrAccessory 0#6 []) ∧
    (decode .address [0xBF#8, 0x00#8]).toOption = some (.addrAccessory 63#6 [0x00#8]) ∧
    unknownForm (.unknownInstr 0x00#8 []) = true ∧
    unknownForm .resetAll = false ∧ (inLoop .all 1 [0x00#8, 0x00#8]).tgt = .all ∧
    (next? (exec .resetAll (inLoop .all 1 [0x00#8, 0x00#8]))).isSome = true := by decide

theorem test_witness_EmptyPayloadIsReportedUnknown : (atPayload []).ciPayload = [] := by decide
theorem test_witness_IdleOnlyForFF00 : ([] : List Byte) ≠ [0x00#8] ∧ [0x00#8, 0x00#8] ≠ [0x00#8] := by decide
theorem test_witness_LongAddressIsFirstByteHigh :
    (0xC0 ≤ (0xC0#8).toNat ∧ (0xC0#8).toNat ≤ 0xFE) ∧ (0xC0 ≤ (0xFE#8).toNat ∧ (0xFE#8).toNat ≤ 0xFE) := by decide
theorem test_witness_AccessoryIsReportedUnknown :
    (0x80 ≤ (0x80#8).toNat ∧ (0x80#8).toNat ≤ 0xBF) ∧ (0x80 ≤ (0xBF#8).toNat ∧ (0xBF#8).toNat ≤ 0xBF) := by decide
theorem test_witness_ShortAddressIsTheFirstByte :
    (1 ≤ (0x01#8).toNat ∧ (0x01#8).toNat ≤ 127) ∧ (1 ≤ (0x7F#8).toNat ∧ (0x7F#8).toNat ≤ 127) := by decide
theorem test_witness_LoneLongAddressByteIsReportedUnknown :
    (0xC0 ≤ (0xC0#8).toNat ∧ (0xC0#8).toNat ≤ 0xFE) ∧ (0xC0 ≤ (0xFE#8).toNat ∧ (0xFE#8).toNat ≤ 0xFE) := by decide
theorem test_witness_Speed128ReportsStepMinusOne :
    (0x20 ≤ (0x20#8).toNat ∧ (0x20#8).toNat ≤ 0x3E) ∧ (0x20 ≤ (0x3E#8).toNat ∧ (0x3E#8).toNat ≤ 0x3E) ∧
    ((0x3F#8 : Byte) = 0x3F#8 ∧ ([] : List Byte) = []) := by decide
theorem test_witness_Speed28ReadsBitFourAsTheLowBit :
    (0x40 ≤ (0x40#8).toNat ∧ (0x40#8).toNat ≤ 0x7F) ∧ (0x40 ≤ (0x7F#8).toNat ∧ (0x7F#8).toNat ≤ 0x7F) := by decide
theorem test_witness_FunctionGroupOneReportsFLAndF1ToF4 :
    (0x80 ≤ (0x80#8).toNat ∧ (0x80#8).toNat ≤ 0x9F) ∧ (0x80 ≤ (0x9F#8).toNat ∧ (0x9F#8).toNat ≤ 0x9F) := by decide
theorem test_witness_FunctionGroupTwoHighReportsF5ToF8 :
    (0xB0 ≤ (0xB0#8).toNat ∧ (0xB0#8).toNat ≤ 0xBF) ∧ (0xB0 ≤ (0xBF#8).toNat ∧ (0xBF#8).toNat ≤ 0xBF) := by decide
theorem test_witness_FunctionGroupTwoLowReportsF9ToF12 :
    (0xA0 ≤ (0xA0#8).toNat ∧ (0xA0#8).toNat ≤ 0xAF) ∧ (0xA0 ≤ (0xAF#8).toNat ∧ (0xAF#8).toNat ≤ 0xAF) := by decide
theorem test_witness_ResetAllOnlyUnderTheTargetAll :
    (inLoop .all 1 [0x00#8, 0x00#8]).tgt = .all ∧ (inLoop (.short 3#7) 1 [0x03#8, 0x00#8]).tgt ≠ .all := by decide

/-- One instruction form that reports its own result and one that reports the payload. -/
theorem test_witness_InstructionFormsChangeOnlyCursorPhaseAndOutput :
    ((Instr.speed28 true false 5#4).isAddress = false ∧
      ∃ t, exec (.speed28 true false 5#4) (inLoop (.short 3#7) 1 [0x03#8, 0x65#8]) = .next t) ∧
    (Instr.resetAll.isAddress = false ∧ ∃ t, exec .resetAll (inLoop (.short 3#7) 1 [0x03#8, 0x00#8]) = .next t) :=
  ⟨⟨rfl, _, rfl⟩, rfl, _, rfl⟩

/-- One address form that gives a target and one that reports. -/
theorem test_witness_AddressFormsChangeOnlyTargetCursorPhaseAndOutput :
    ((Instr.addrShort 3#7).isAddress = true ∧ ∃ t, exec (.addrShort 3#7) (atPayload [0x03#8]) = .next t) ∧
    (Instr.idle.isAddress = true ∧ ∃ t, exec .idle (atPayload [0xFF#8, 0x00#8]) = .next t) :=
  ⟨⟨rfl, _, rfl⟩, rfl, _, rfl⟩

theorem test_witness_StepRunsTheDecodedForm :
    ((atPayload [0x03#8, 0x65#8]).ciPhase = .address ∧
      (decode .address (atPayload [0x03#8, 0x65#8]).ciPayload).toOption = some (.addrShort 3#7)) ∧
    ((inLoop (.short 3#7) 1 [0x03#8, 0x65#8]).ciPhase = .instruction ∧
      (decode (.instruction (decide ((inLoop (.short 3#7) 1 [0x03#8, 0x65#8]).tgt = .all)))
        ((inLoop (.short 3#7) 1 [0x03#8, 0x65#8]).ciPayload.drop (inLoop (.short 3#7) 1 [0x03#8, 0x65#8]).cur)).toOption =
          some (.speed28 true false 5#4)) := by decide

theorem test_witness_EncodedCommandListRunsItsForms :
    (WellFormed .address .addrBroadcast = true ∧ Instr.addrBroadcast.takesAll = false ∧
      (true = true ↔ Instr.addrBroadcast = .addrBroadcast) ∧
      ∀ i ∈ [Instr.resetAll, .speed128 true 5#7], WellFormed (.instruction true) i = true ∧ i.takesAll = false) ∧
    (WellFormed .address (.addrShort 3#7) = true ∧ (Instr.addrShort 3#7).takesAll = false ∧
      (false = true ↔ Instr.addrShort 3#7 = .addrBroadcast) ∧
      ∀ i ∈ [Instr.speed28 true false 5#4], WellFormed (.instruction false) i = true ∧ i.takesAll = false) := by decide

/-- Each of the three address forms that give a target, at an edge of its operands. -/
theorem test_witness_AddressOnlyPayloadGivesNoResult :
    (WellFormed .address .addrBroadcast = true ∧ Instr.addrBroadcast.takesAll = false) ∧
    (WellFormed .address (.addrLong 62#6 0xFF#8) = true ∧ (Instr.addrLong 62#6 0xFF#8).takesAll = false) ∧
    (WellFormed .address (.addrShort 127#7) = true ∧ (Instr.addrShort 127#7).takesAll = false) := by decide

theorem test_witness_ResultsOfOnePacketShareTheirTarget :
    ∃ t, interpretPayload [0xC4#8, 0xD2#8, 0x3F#8, 0x85#8, 0x90#8] State.reset = .next t := ⟨_, rfl⟩

theorem test_witness_CursorMovesForwardInsideThePayload :
    ((inLoop (.short 3#7) 1 [0x03#8, 0x3F#8, 0x85#8]).ciPhase = .instruction ∧
      (inLoop (.short 3#7) 1 [0x03#8, 0x3F#8, 0x85#8]).fetch = some (.speed128 true 5#7) ∧
      (next? (exec (.speed128 true 5#7) (inLoop (.short 3#7) 1 [0x03#8, 0x3F#8, 0x85#8]))).isSome = true) ∧
    ((inLoop (.short 3#7) 1 [0x03#8]).ciPhase = .instruction ∧
      (inLoop (.short 3#7) 1 [0x03#8]).ciPayload.length ≤ (inLoop (.short 3#7) 1 [0x03#8]).cur) := by decide

theorem test_witness_EdgeExtractorSample :
    State.reset.eeValid = false ∧
    ((before 1 1 .high 1 none .endOfInput).eeValid = true ∧ polarity 0 = (before 1 1 .high 1 none .endOfInput).eePol) ∧
    ((before 1 1 .high 1 none .endOfInput).eeValid = true ∧
      polarity (-1) ≠ (before 1 1 .high 1 none .endOfInput).eePol) := by decide

theorem test_witness_EdgeExtractorEnd :
    (before 1 1 .high 1 none .endOfInput).eeValid = true ∧ State.reset.eeValid = false := by decide

theorem test_witness_DurationPairerRun :
    (before 1 1 .low 1 (some 1) .endOfInput).dpPend = some 1 ∧ State.reset.dpPend = none := by decide

theorem test_witness_StepSeesOnlyTheSignOfASample :
    State.reset.ciPhase = .idle ∧ ((0 : Int) ≤ 0 ↔ (0 : Int) ≤ 127) ∧ ((0 : Int) ≤ -1 ↔ (0 : Int) ≤ -128) := by decide

/-- A low run of 3 is in progress after a high run of 2 was emitted and parked; a high sample arrives. -/
def midPass : State :=
  { before 1 1 .low 3 (some 2) (.sample 0) with outEvents := [.tap (.run .high 2)] }

theorem test_witness_RunsHaveSamplesAndAlternate : midPass.RunsOk ∧ ∃ t, step midPass = .next t :=
  ⟨by unfold State.RunsOk; decide, _, rfl⟩

theorem test_witness_RunsReconstructTheSampleCount :
    midPass.ciPhase = .idle ∧ midPass.done = false ∧ ∃ t, step midPass = .next t :=
  ⟨by decide, by decide, _, rfl⟩

theorem test_witness_PendingHighOnlyWhileItsLowRunLasts :
    midPass.dpPend ≠ none ∧ midPass.PendingOk ∧ ∃ t, step midPass = .next t :=
  ⟨by decide, by unfold State.PendingOk; decide, _, rfl⟩

theorem test_witness_ThresholdsAreExactFloors : 1 ≤ State.reset.tbNum ∧ 1 ≤ State.reset.tbDen := by decide

/-- R133 and R134 at TB = 1: the edges of the One window, of the tolerance, and of the long region. -/
theorem test_witness_BitClassifierEvents :
    (State.reset.oneLo ≤ 52 ∧ 52 ≤ State.reset.oneHi) ∧ (State.reset.oneLo ≤ 65 ∧ 65 ≤ State.reset.oneHi) ∧
    (¬ (State.reset.oneLo ≤ 95 ∧ 95 ≤ State.reset.oneHi) ∧ State.reset.isLong 95 = true) ∧
    (¬ (State.reset.oneLo ≤ 51 ∧ 51 ≤ State.reset.oneHi) ∧
      ¬ (State.reset.isLong 51 = true ∧ State.reset.isLong 100 = true)) ∧
    (¬ (State.reset.oneLo ≤ 95 ∧ 95 ≤ State.reset.oneHi) ∧
      ¬ (State.reset.isLong 95 = true ∧ State.reset.isLong 94 = true)) := by decide

/-- R134 at TB = 32, where the window meets the long region. -/
theorem test_witness_OneWindowMeetsLongRegionExactly :
    ({ State.reset with tbNum := 32 } : State).oneHi = 3 ∧
    ({ State.reset with tbNum := 32 } : State).isLong 3 = true := by decide

theorem test_witness_SeekTransitions :
    ((seeking 9).fdState = .seek ∧ (seeking 9).fdCnt < 10) ∧
    ((seeking 10).fdState = .seek ∧ 10 ≤ (seeking 10).fdCnt ∧ (seeking 10).fdPkt = [] ∧ (seeking 10).fdByte = 0#8 ∧
      (seeking 10).fdNbits = 0) := by decide

theorem test_witness_ReadTransitions :
    ((reading [] 0x7F#8 7).fdState = .read ∧ (reading [] 0x7F#8 7).fdNbits < 8) ∧
    ((reading [0x03#8] 0x65#8 8).fdState = .read ∧ (reading [0x03#8] 0x65#8 8).fdNbits = 8) := by decide

theorem test_witness_FramedPacketComesBackWhole :
    ((seeking 0).fdState = .seek ∧ 10 ≤ (seeking 0).fdCnt + 10) ∧
    ((seeking 1).fdState = .seek ∧ 10 ≤ (seeking 1).fdCnt + 9) ∧ [0xFF#8] ≠ [] := by decide

theorem test_witness_ShortPreambleIsGarbage :
    ((seeking 0).fdState = .seek ∧ (seeking 0).fdCnt + 9 < 10) ∧
    ((seeking 1).fdState = .seek ∧ (seeking 1).fdCnt + 8 < 10) := by decide

theorem test_witness_EndInsidePreambleOrPacketIsReported :
    ((reading [] 0#8 0).fdState = .read ∨ 0 < (reading [] 0#8 0).fdCnt) ∧
    ((seeking 1).fdState = .read ∨ 0 < (seeking 1).fdCnt) ∧
    ¬ ((seeking 0).fdState = .read ∨ 0 < (seeking 0).fdCnt) := by decide

/-- A Zero at a count of 0, before and after garbage has been reported. -/
theorem test_witness_GarbageReportedAtMostOncePerPass :
    ((anomaliesOf (before 1 1 .low 100 (some 100) (.sample 0)).outEvents).count .garbage = 0 ∧
      (before 1 1 .low 100 (some 100) (.sample 0)).fdGlog = false ∧
      ∃ t, step (before 1 1 .low 100 (some 100) (.sample 0)) = .next t) ∧
    (anomaliesOf [OutEvent.diag .garbage]).count .garbage = 1 ∧
    ∃ t, step { before 1 1 .low 100 (some 100) (.sample 0) with fdGlog := true, outEvents := [.diag .garbage] } =
      .next t :=
  ⟨⟨by decide, by decide, _, rfl⟩, by decide, _, rfl⟩

theorem test_witness_PacketBufferOnlyGrowsOrEmpties :
    ∃ t, step (beforeReading 58 58 [0x03#8] 0x65#8 8 (.sample 0)) = .next t := ⟨_, rfl⟩

/-- V-CK and E4: a packet that passes, a data byte of it and a bit. -/
theorem test_witness_ChecksumProperties :
    checksumOk [0x03#8, 0x65#8, 0x66#8] = true ∧ 1 + 1 < [0x03#8, 0x65#8, 0x66#8].length ∧ 7 < 8 ∧
    [0x03#8, 0x65#8, 0x66#8][1]? = some 0x65#8 ∧ checksumOk [0x03#8, 0x64#8, 0x66#8] = false ∧
    [0x01#8] ≠ [] ∧ 1 ≤ 1 := by decide

theorem test_witness_ChecksumRoutesThePacket :
    0x66#8 = [0x03#8, 0x65#8].foldl (· ^^^ ·) 0#8 ∧ 0x67#8 ≠ [0x03#8, 0x65#8].foldl (· ^^^ ·) 0#8 ∧
    0x00#8 = ([] : List Byte).foldl (· ^^^ ·) 0#8 := by decide

theorem midPass_inv : midPass.Inv :=
  inv_of (by decide) (by decide) (by decide) (by decide) (by decide) (by decide)

theorem test_witness_StepIsTotalOnLegalStates : midPass.Inv := midPass_inv
theorem test_witness_EveryStepKeepsTheStateLegal : midPass.Inv ∧ ∃ t, step midPass = .next t := ⟨midPass_inv, _, rfl⟩
theorem test_witness_ResetStateIsLegal : 1 ≤ 81 ∧ 1 ≤ 2 := by decide

theorem test_witness_SampleStepsWithoutAPair :
    ((deliver [.sample 0] State.reset).Inv ∧ (deliver [.sample 0] State.reset).eeValid = false) ∧
    ((before 1 1 .high 1 none (.sample 0)).Inv ∧ ((before 1 1 .high 1 none (.sample 0)).eePol = .high ↔ (0 : Int) ≤ 0)) ∧
    ((before 1 1 .high 1 none (.sample (-1))).Inv ∧ (before 1 1 .high 1 none (.sample (-1))).eePol = .high) ∧
    ((before 1 1 .low 1 none (.sample 0)).Inv ∧ (before 1 1 .low 1 none (.sample 0)).eePol = .low ∧
      (before 1 1 .low 1 none (.sample 0)).dpPend = none) :=
  ⟨⟨inv_of (by decide) (by decide) (by decide) (by decide) (by decide) (by decide), by decide⟩,
   ⟨inv_of (by decide) (by decide) (by decide) (by decide) (by decide) (by decide), by decide⟩,
   ⟨inv_of (by decide) (by decide) (by decide) (by decide) (by decide) (by decide), by decide⟩,
   ⟨inv_of (by decide) (by decide) (by decide) (by decide) (by decide) (by decide), by decide, by decide⟩⟩

/-- The state before step 6223 of program P1. -/
def lastBit : State := beforeReading 100 100 [0x03#8, 0x65#8] 0x66#8 8 (.sample 0)

theorem test_witness_StepThatCompletesAPair :
    lastBit.Inv ∧ lastBit.done = false ∧ lastBit.inEvents = [.sample 0] ∧ lastBit.eeValid = true ∧ lastBit.eePol = .low ∧
    lastBit.dpPend = some 100 ∧ ¬ (lastBit.oneLo ≤ 100 ∧ 100 ≤ lastBit.oneHi) ∧
    (lastBit.isLong 100 = true ∧ lastBit.isLong lastBit.eeDur = true) ∧ lastBit.fdState = .read ∧ lastBit.fdNbits = 8 :=
  ⟨inv_of (by decide) (by decide) (by decide) (by decide) (by decide) (by decide), by decide⟩

/-- The other transitions of that statement: a One, a Zero and an Unknown pair, seeking with a count of 9 and of 10, and
reading with 7 bits and with 8. -/
theorem test_witness_StepThatCompletesAPair_transitions :
    (∀ d ∈ [(58, BitVal.one), (95, .zero), (30, .unknown)], ∀ n ∈ [9, 10],
      ({ before 1 1 .low d.1 (some d.1) (.sample 0) with fdCnt := n } : State).Inv ∧
      (before 1 1 .low d.1 (some d.1) (.sample 0)).classify d.1 d.1 = d.2) ∧
    (∀ d ∈ [58, 95, 30], ∀ n ∈ [7, 8], (beforeReading d d [0x03#8] 0x65#8 n (.sample 0)).Inv ∧
      (beforeReading d d [0x03#8] 0x65#8 n (.sample 0)).fdState = .read) := by
  constructor
  · intro d hd n hn
    simp only [List.mem_cons, List.not_mem_nil, or_false] at hd hn
    rcases hd with rfl | rfl | rfl <;> rcases hn with rfl | rfl <;>
      exact ⟨inv_of (by decide) (by decide) (by decide) (by decide) (by decide) (by decide), by decide⟩
  · intro d hd n hn
    simp only [List.mem_cons, List.not_mem_nil, or_false] at hd hn
    rcases hd with rfl | rfl | rfl <;> rcases hn with rfl | rfl <;>
      exact ⟨inv_of (by decide) (by decide) (by decide) (by decide) (by decide) (by decide), by decide⟩

/-- V-FD: the whole step of a data bit and of a continuation One. -/
theorem test_step_data_bit : (next? (step (beforeReading 58 58 [] 0x2#8 2 (.sample 0)))).map
    (fun t => (t.fdByte, t.fdNbits, t.fdPkt.bytes)) = some (0x5#8, 3, []) := by decide
theorem test_step_continuation : (next? (step (beforeReading 58 58 [0x03#8] 0x65#8 8 (.sample 0)))).map
    (fun t => (t.fdByte, t.fdNbits, t.fdPkt.bytes)) = some (0#8, 0, [0x03#8, 0x65#8]) := by decide

/-- A sample step and the End step. -/
theorem test_witness_AnomaliesOfOneStep :
    (lastBit.Inv ∧ lastBit.done = false ∧ lastBit.inEvents = [.sample 0] ∧ ∃ t, step lastBit = .next t) ∧
    ((before 1 1 .high 1 none .endOfInput).Inv ∧ (before 1 1 .high 1 none .endOfInput).done = false ∧
      (before 1 1 .high 1 none .endOfInput).inEvents = [.endOfInput] ∧
      ∃ t, step (before 1 1 .high 1 none .endOfInput) = .next t) :=
  ⟨⟨inv_of (by decide) (by decide) (by decide) (by decide) (by decide) (by decide), by decide, by decide, _, rfl⟩,
   inv_of (by decide) (by decide) (by decide) (by decide) (by decide) (by decide), by decide, by decide, _, rfl⟩

theorem test_witness_UnknownPacketIsThePacketsLastResult :
    (next? (interpretPayload [0x03#8, 0x90#8, 0xC1#8] State.reset)).map State.outEvents =
      some (([.funcGroup1 (.short 3#7) true false false false false] ++
        .unknownPacket [0x03#8, 0x90#8, 0xC1#8] :: [] : List Result).map .result) := by decide

/-- R266: End with a high run in progress, once inside a preamble and once not; End before the first sample; End in the low
half of a packet's last bit, beside the sample that would have ended it. -/
theorem test_witness_EndStepFinishesThePass :
    ((before 1 1 .high 1 none .endOfInput).Inv ∧ (before 1 1 .high 1 none .endOfInput).done = false ∧
      (before 1 1 .high 1 none .endOfInput).inEvents = [.endOfInput] ∧
      (before 1 1 .high 1 none .endOfInput).eeValid = true ∧ (before 1 1 .high 1 none .endOfInput).eePol = .high ∧
      (next? (step (before 1 1 .high 1 none .endOfInput))).map State.fdCnt = some 0) ∧
    (({ before 1 1 .high 1 none .endOfInput with fdCnt := 1 } : State).Inv ∧
      (next? (step { before 1 1 .high 1 none .endOfInput with fdCnt := 1 })).map State.fdCnt = some 1) ∧
    ((deliver [.endOfInput] State.reset).Inv ∧ (deliver [.endOfInput] State.reset).eeValid = false ∧
      (deliver [.endOfInput] State.reset).inEvents = [.endOfInput]) ∧
    ({ lastBit with inEvents := [.endOfInput] } : State).Inv ∧ (lastBit.eePol = .high ↔ (0 : Int) < 0) :=
  ⟨⟨inv_of (by decide) (by decide) (by decide) (by decide) (by decide) (by decide), by decide⟩,
   ⟨inv_of (by decide) (by decide) (by decide) (by decide) (by decide) (by decide), by decide⟩,
   ⟨inv_of (by decide) (by decide) (by decide) (by decide) (by decide) (by decide), by decide⟩,
   inv_of (by decide) (by decide) (by decide) (by decide) (by decide) (by decide), by decide⟩

/-- R266's example: the flush ends the packet, its result follows, and then PartialAtEnd because FD_CNT = 1. -/
theorem test_end_completes_packet : eventsOf { lastBit with inEvents := [.endOfInput] } =
    some [.tap (.run .low 100), .tap (.pair 100 100), .stat (.zeroWidth ⟨100, 1⟩), .tap (.bit .zero),
      .tap (.packet [0x03#8, 0x65#8, 0x66#8]), .result (.speed28 (.short 3#7) .fwd (.step 7)),
      .diag .partialAtEnd] := by decide

/-- A pass that is over, with an event delivered. -/
def afterEnd : State := { State.reset with done := true, inEvents := [.endOfInput] }

theorem test_witness_InputAfterEndIsIgnored :
    afterEnd.ciPhase = .idle ∧ afterEnd.done = true ∧ afterEnd.inEvents = [.endOfInput] := by decide

theorem test_witness_StepTakesOneEventAndAppendsOutput : midPass.ciPhase = .idle ∧ ∃ t, step midPass = .next t :=
  ⟨by decide, _, rfl⟩

theorem test_witness_LatchedBitsAndTimebaseStay :
    (∃ t, step midPass = .next t) ∧ midPass.eeValid = true ∧ afterEnd.done = true ∧ (∃ t, step afterEnd = .next t) ∧
    ∃ t, step { midPass with fdGlog := true } = .next t :=
  ⟨⟨_, rfl⟩, by decide, by decide, ⟨_, rfl⟩, _, rfl⟩

theorem test_witness_ResetLoadsTheRegisters :
    (1 ≤ 1 ∧ 1 ≤ 1) ∧ (40 * 2 < 81 ∧ ¬ 40 * 1 < 40) ∧ ((0 : Nat) = 0 ∨ 1 = 0) := by decide

/-- Each clause at its edge, every width finite. Inside: a run of 3 and a preamble of 3 in 2 bits, a packet of 3 in a buffer
of 3. Outside: a run of 4 and a parked run of 4 in 2 bits, a preamble of 4 in 2 bits, a second byte in a buffer of one, a
packet of 3 in a buffer of 2. -/
theorem test_witness_FiniteWidthsConformOrRefuse :
    ((next? (step (before 1 1 .high 2 none (.sample 1)))).map fun t => decide (t.eeDur ≤ 2 ^ 2 - 1)) = some true ∧
    ((next? (step { before 1 1 .low 58 (some 58) (.sample 1) with fdCnt := 2 })).map fun t => decide (t.fdCnt ≤ 2 ^ 2 - 1)) =
      some true ∧
    ((next? (step lastBit)).map fun t => (packetsOf (newEvents lastBit t)).all fun p => decide (p.length ≤ 3)) =
      some true ∧
    ((next? (step (before 1 1 .high 3 none (.sample 1)))).map fun t => decide (2 ^ 2 - 1 < t.eeDur)) = some true ∧
    ((next? (step (before 1 1 .high 4 none (.sample (-1))))).map fun t => decide (2 ^ 2 - 1 < t.dpPend.getD 0)) =
      some true ∧
    ((next? (step { before 1 1 .low 58 (some 58) (.sample 1) with fdCnt := 3 })).map fun t => decide (2 ^ 2 - 1 < t.fdCnt)) =
      some true ∧
    ((next? (step (beforeReading 58 58 [0x03#8] 0x65#8 8 (.sample 0)))).map fun t => decide (1 < t.fdPkt.length)) =
      some true ∧
    ((next? (step lastBit)).map fun t => (packetsOf (newEvents lastBit t)).any fun p => decide (2 < p.length)) =
      some true := by decide

end Sys2Proof.Tests
end

section
/-! The Edge Extractor and the Duration Pairer (40_edge_and_pairer.md): one equation for each case of their reactions,
read off `eeSample_cases`, `eeEnd_cases` and `dpRun_cases`, and the obligations assembled from them. -/

namespace Sys2Proof.Machine

/-! ## The Edge Extractor on a sample -/

theorem eeSample_of_not_eeValid {v : Int} {s : State} (hv : s.eeValid = false) :
    eeSample v s = (startRun v s, none) := by
  simpa [hv] using eeSample_cases v s

theorem eeSample_of_same_polarity {v : Int} {s : State} (hv : s.eeValid = true) (hp : polarity v = s.eePol) :
    eeSample v s = ({ s with eeDur := s.eeDur + 1 }, none) := by
  simpa [hv, hp] using eeSample_cases v s

theorem eeSample_of_polarity_change {v : Int} {s : State} (hv : s.eeValid = true) (hp : polarity v ≠ s.eePol) :
    eeSample v s = (startRun v (emit (.tap (.run s.eePol s.eeDur)) s), some ⟨s.eePol, s.eeDur⟩) := by
  simpa [hv, hp] using eeSample_cases v s

/-- While a run is in progress, starting the next one writes EE_POL and EE_DUR only: EE_VALID is already 1. -/
theorem startRun_of_eeValid {v : Int} {s : State} (hv : s.eeValid = true) :
    startRun v s = { s with eePol := polarity v, eeDur := 1 } := by
  simp [startRun, hv]

/-- Settles O28: the three cases of a sample, and R110's polarity. -/
theorem edgeExtractorSample : Obligations.EdgeExtractorSample := by
  intro v s
  refine ⟨polarity_high, eeSample_of_not_eeValid, eeSample_of_same_polarity, fun hv hp => ?closes⟩
  case closes =>
    rw [eeSample_of_polarity_change hv hp, startRun_of_eeValid (by simpa using hv)]
    rfl

/-! ## The Edge Extractor at End -/

theorem eeEnd_of_eeValid {s : State} (hv : s.eeValid = true) :
    eeEnd s = (emit (.tap (.run s.eePol s.eeDur)) s, some ⟨s.eePol, s.eeDur⟩) := by
  simpa [hv] using eeEnd_cases s

theorem eeEnd_of_not_eeValid {s : State} (hv : s.eeValid = false) : eeEnd s = (s, none) := by
  simpa [hv] using eeEnd_cases s

/-- Settles O29: the flush only appends the run to the output. -/
theorem edgeExtractorEnd : Obligations.EdgeExtractorEnd :=
  fun _ => ⟨eeEnd_of_eeValid, eeEnd_of_not_eeValid⟩

/-! ## The Duration Pairer on a run -/

theorem dpRun_high (d : Nat) (s : State) : dpRun ⟨.high, d⟩ s = (dpHigh d s, none) := by
  simpa using dpRun_cases ⟨.high, d⟩ s

theorem dpRun_low_of_pending {d h : Nat} {s : State} (hd : s.dpPend = some h) :
    dpRun ⟨.low, d⟩ s = ({ emit (.tap (.pair h d)) s with dpPend := none }, some ⟨h, d⟩) := by
  simpa [hd] using dpRun_cases ⟨.low, d⟩ s

theorem dpRun_low_of_no_pending {d : Nat} {s : State} (hd : s.dpPend = none) : dpRun ⟨.low, d⟩ s = (s, none) := by
  simpa [hd] using dpRun_cases ⟨.low, d⟩ s

/-- Settles O30: a high run is parked whatever the slot held; a low run takes the slot's high with it or is dropped. -/
theorem durationPairerRun : Obligations.DurationPairerRun :=
  fun d s => ⟨dpRun_high d s, fun _ => dpRun_low_of_pending, dpRun_low_of_no_pending⟩

end Sys2Proof.Machine
end

section
/-! The Frame Decoder in READ (42_frame_decoder.md R155 to R158): one equation for each transition, read off
`fdBit_cases`, and the obligation assembled from them. -/

namespace Sys2Proof.Machine

/-- R155 with the byte in progress read as a number: it is doubled, the bit is its new lowest, and the width takes the
result modulo 256. -/
theorem fdReadData_eq_ofNat (v : Bool) (s : State) :
    fdReadData v s =
      { s with fdByte := BitVec.ofNat 8 (s.fdByte.toNat * 2 + v.toNat), fdNbits := s.fdNbits + 1 } := by
  have hb : s.fdByte * 2#8 + (BitVec.ofBool v).setWidth 8 = BitVec.ofNat 8 (s.fdByte.toNat * 2 + v.toNat) := by
    apply BitVec.eq_of_toNat_eq
    cases v <;> simp
  simp [fdReadData, hb]

theorem fdBit_read_data {v : Bool} {s : State} (hs : s.fdState = .read) (hn : s.fdNbits < 8) :
    fdBit (if v then .one else .zero) s = (fdReadData v s, none) := by
  cases v with
  | true => simpa [hs, hn, Nat.not_le.2 hn] using fdBit_cases .one s
  | false => simpa [hs, hn, Nat.not_le.2 hn] using fdBit_cases .zero s

theorem fdBit_read_one_of_full {s : State} (hs : s.fdState = .read) (hn : s.fdNbits = 8) :
    fdBit .one s = ({ s with fdPkt := s.fdPkt.append s.fdByte, fdByte := 0#8, fdNbits := 0 }, none) := by
  simpa [hs, hn] using fdBit_cases .one s

theorem fdBit_read_zero_of_full {s : State} (hs : s.fdState = .read) (hn : s.fdNbits = 8) :
    fdBit .zero s = ({ s with
      fdPkt := [], fdByte := 0#8, fdNbits := 0, fdState := .seek, fdCnt := 1
      outEvents := s.outEvents ++ [.tap (.packet (s.fdPkt.bytes ++ [s.fdByte]))] },
      some (s.fdPkt.bytes ++ [s.fdByte])) := by
  simpa [hs, hn] using fdBit_cases .zero s

theorem fdBit_read_unknown {s : State} (hs : s.fdState = .read) :
    fdBit .unknown s = ({ s with
      fdPkt := [], fdByte := 0#8, fdNbits := 0, fdState := .seek, fdCnt := 0
      outEvents := s.outEvents ++ [.diag .corruptPacket] }, none) := by
  simpa [hs] using fdBit_cases .unknown s

/-- Settles O39: a data bit is shifted in, a continuation bit appends the byte and goes on or ends the packet, an Unknown
discards it. -/
theorem readTransitions : Obligations.ReadTransitions := by
  intro s hs
  refine ⟨?data, fdBit_read_one_of_full hs, fdBit_read_zero_of_full hs, fdBit_read_unknown hs⟩
  case data =>
    rintro hn b v (⟨rfl, rfl⟩ | ⟨rfl, rfl⟩)
    · simpa [fdReadData_eq_ofNat] using fdBit_read_data (v := true) hs hn
    · simpa [fdReadData_eq_ofNat] using fdBit_read_data (v := false) hs hn

end Sys2Proof.Machine
end

section
/-! Address dispatch (44_command_interpreter.md R193, R196 to R198): the tests on the first byte as ranges
of its number, one equation for each form those ranges give, and the obligations assembled from them. -/

namespace Sys2Proof

/-- The two highest bits of a byte, compared as numbers. -/
theorem slice_six_two_eq_iff {b : Byte} {n : BitVec 2} : b.slice 6 2 = n ↔ b.toNat / 64 = n.toNat := by
  have hb : b.toNat / 64 < 4 := by omega
  simp [Byte.slice, ← BitVec.toNat_inj, Nat.shiftRight_eq_div_pow, Nat.mod_eq_of_lt hb]

theorem decodeAddress_zero (rest : List Byte) : decodeAddress (0x00#8 :: rest) = .addrBroadcast := by
  simp [decodeAddress]

/-- A first byte from 0x01 to 0xFE passes the two tests for a whole byte. -/
theorem ne_zero_and_ne_FF_of_range {b : Byte} (hlo : 1 ≤ b.toNat) (hhi : b.toNat ≤ 0xFE) :
    b ≠ 0x00#8 ∧ b ≠ 0xFF#8 := by
  constructor <;> bv_omega

theorem decodeAddress_lone_long {b : Byte} (hlo : 0xC0 ≤ b.toNat) (hhi : b.toNat ≤ 0xFE) :
    decodeAddress [b] = .addrUnknown (b.slice 0 6) := by
  have hb := ne_zero_and_ne_FF_of_range (by omega) hhi
  have htop : b.toNat / 64 = 3 := by omega
  simp [decodeAddress, slice_six_two_eq_iff, hb, htop]

theorem decodeAddress_accessory {b : Byte} (rest : List Byte) (hlo : 0x80 ≤ b.toNat) (hhi : b.toNat ≤ 0xBF) :
    decodeAddress (b :: rest) = .addrAccessory (b.slice 0 6) rest := by
  have hb := ne_zero_and_ne_FF_of_range (b := b) (by omega) (by omega)
  have htop : b.toNat / 64 = 2 := by omega
  simp [decodeAddress, slice_six_two_eq_iff, hb, htop]

theorem decodeAddress_short {b : Byte} (rest : List Byte) (hlo : 1 ≤ b.toNat) (hhi : b.toNat ≤ 127) :
    decodeAddress (b :: rest) = .addrShort (b.slice 0 7) := by
  have hb := ne_zero_and_ne_FF_of_range hlo (by omega)
  have htop : b.toNat / 64 ≠ 3 ∧ b.toNat / 64 ≠ 2 := by omega
  simp [decodeAddress, slice_six_two_eq_iff, hb, htop]

/-- The seven low bits of a byte below 0x80 are its number. -/
theorem toNat_slice_zero_seven {b : Byte} (hb : b.toNat ≤ 127) : (b.slice 0 7).toNat = b.toNat := by
  simp [Byte.slice]; omega

end Sys2Proof

namespace Sys2Proof.Machine

/-- Settles O7: 0x00 is the first test of the dispatch, and the form sets the target All and the cursor 1. -/
theorem broadcastTargetsAll : Obligations.BroadcastTargetsAll :=
  ⟨fun rest => congrArg Except.ok (decodeAddress_zero rest), fun _ => rfl⟩

/-- Settles O10: the highest bits 10 are ADDR_ACCESSORY with any rest, which reports the payload unknown. -/
theorem accessoryIsReportedUnknown : Obligations.AccessoryIsReportedUnknown :=
  ⟨fun _ rest hlo hhi => congrArg Except.ok (decodeAddress_accessory rest hlo hhi),
    fun _ _ s => congrArg Host.Outcome.next (reportUnknown_eq s)⟩

/-- Settles O11: the address is the byte's seven low bits, whose number is the byte's because its highest bit is 0. -/
theorem shortAddressIsTheFirstByte : Obligations.ShortAddressIsTheFirstByte :=
  ⟨fun b rest hlo hhi =>
      ⟨b.slice 0 7, toNat_slice_zero_seven hhi, congrArg Except.ok (decodeAddress_short rest hlo hhi)⟩,
    fun _ _ => rfl⟩

/-- Settles O12: the highest bits 11 without a second byte are ADDR_UNKNOWN, which reports the payload unknown. -/
theorem loneLongAddressByteIsReportedUnknown : Obligations.LoneLongAddressByteIsReportedUnknown :=
  ⟨fun _ hlo hhi => congrArg Except.ok (decodeAddress_lone_long hlo hhi),
    fun _ s => congrArg Host.Outcome.next (reportUnknown_eq s)⟩

end Sys2Proof.Machine
end

section
/-! The target of a packet's results (44_command_interpreter.md R210). Address dispatch gives a target or a result that
carries none, and leaves address dispatch; from there on only instruction forms run, which keep the target and report
under it. -/

namespace Sys2Proof.Machine

/-! ## What a form does with the target -/

/-- An address form sets a target, or reports the payload unknown, or reports an idle packet (R191 to R198). -/
theorem exec_address_cases {i : Instr} (hi : i.isAddress = true) (s : State) :
    (∃ tgt c, exec i s = .next (setTarget tgt c s)) ∨
    exec i s = .next (reportUnknown s) ∨
    exec i s = .next (stopInterpreting (emit (.result .idle) s)) := by
  cases i with
  | addrEmpty => exact .inr (.inl rfl)
  | addrBroadcast => exact .inl ⟨_, _, rfl⟩
  | idle => exact .inr (.inr rfl)
  | addrIdleInvalid _ => exact .inr (.inl rfl)
  | addrLong _ _ => exact .inl ⟨_, _, rfl⟩
  | addrAccessory _ _ => exact .inr (.inl rfl)
  | addrShort _ => exact .inl ⟨_, _, rfl⟩
  | addrUnknown _ => exact .inr (.inl rfl)
  | _ => cases hi

/-- An instruction form reports a result that carries the target, or reports the payload unknown (R202 to R208). -/
theorem exec_instruction_cases {i : Instr} (hi : i.isAddress = false) (s : State) :
    (∃ r k, r.target? = some s.tgt ∧ exec i s = .next (report r k s)) ∨ exec i s = .next (reportUnknown s) := by
  cases i with
  | speed128 _ _ => exact .inl ⟨_, _, rfl, rfl⟩
  | speed28 _ _ _ => exact .inl ⟨_, _, rfl, rfl⟩
  | fg1 _ _ _ _ _ => exact .inl ⟨_, _, rfl, rfl⟩
  | fg2Hi _ _ _ _ => exact .inl ⟨_, _, rfl, rfl⟩
  | fg2Lo _ _ _ _ => exact .inl ⟨_, _, rfl, rfl⟩
  | resetAll =>
    by_cases h : s.tgt = .all
    · exact .inl ⟨.resetAll, 1, congrArg some h.symm, if_pos h⟩
    · exact .inr (if_neg h)
  | unknownInstr _ _ => exact .inr rfl
  | _ => cases hi

/-! ## Results under a target -/

/-- From `s` to `t` only results were appended, and each carries no target or `tgt`. -/
def ResultsUnder (tgt : Target) (s t : State) : Prop :=
  ∃ rs : List Result, t.outEvents = s.outEvents ++ rs.map .result ∧
    ∀ r ∈ rs, r.target? = none ∨ r.target? = some tgt

theorem ResultsUnder.of_outEvents_eq {tgt : Target} {s t : State} (h : t.outEvents = s.outEvents) :
    ResultsUnder tgt s t :=
  ⟨[], by simp [h], by simp⟩

theorem ResultsUnder.of_one {tgt : Target} {s t : State} {r : Result}
    (h : t.outEvents = s.outEvents ++ [.result r]) (hr : r.target? = none ∨ r.target? = some tgt) :
    ResultsUnder tgt s t :=
  ⟨[r], h, by simpa using hr⟩

theorem ResultsUnder.trans {tgt : Target} {s t u : State} (h : ResultsUnder tgt s t) (h' : ResultsUnder tgt t u) :
    ResultsUnder tgt s u := by
  obtain ⟨rs, ht, hrs⟩ := h
  obtain ⟨rs', hu, hrs'⟩ := h'
  refine ⟨rs ++ rs', by simp [hu, ht], fun r hr => ?_⟩
  exact (List.mem_append.1 hr).elim (hrs r) (hrs' r)

/-! ## From one form to the whole payload -/

/-- An address form leaves address dispatch, and what it reports carries no target. -/
theorem exec_address_resultsUnder {i : Instr} (hi : i.isAddress = true) {s t : State} (h : exec i s = .next t) :
    t.ciPhase ≠ .address ∧ ResultsUnder t.tgt s t := by
  rcases exec_address_cases hi s with ⟨tgt, c, he⟩ | he | he <;> cases h.symm.trans he
  · exact ⟨nofun, .of_outEvents_eq rfl⟩
  · exact ⟨nofun, .of_one rfl (.inl rfl)⟩
  · exact ⟨nofun, .of_one rfl (.inl rfl)⟩

/-- An instruction form keeps the target, does not return to address dispatch, and reports under the target. -/
theorem exec_instruction_resultsUnder {i : Instr} (hi : i.isAddress = false) {s t : State}
    (hs : s.ciPhase ≠ .address) (h : exec i s = .next t) :
    t.ciPhase ≠ .address ∧ t.tgt = s.tgt ∧ ResultsUnder s.tgt s t := by
  rcases exec_instruction_cases hi s with ⟨r, k, hr, he⟩ | he <;> cases h.symm.trans he
  · exact ⟨hs, rfl, .of_one rfl (.inr hr)⟩
  · exact ⟨nofun, rfl, .of_one rfl (.inl rfl)⟩

/-- Past address dispatch only instruction forms are fetched. -/
theorem fetch_isAddress {s : State} {i : Instr} (hs : s.ciPhase ≠ .address) (h : s.fetch = some i) :
    i.isAddress = false := by
  cases hp : s.ciPhase with
  | idle => rw [fetch_idle hp] at h; cases h
  | address => exact absurd hp hs
  | instruction =>
    rw [fetch_instruction hp] at h
    cases hd : decodeInstruction (decide (s.tgt = .all)) (s.ciPayload.drop s.cur) with
    | error e => rw [hd] at h; cases h
    | ok j => rw [hd] at h; cases h; exact decodeInstruction_isAddress hd

/-- Past address dispatch the loop keeps the target and reports under it. -/
theorem interpretLoop_resultsUnder {n : Nat} {s t : State} (hs : s.ciPhase ≠ .address)
    (h : interpretLoop n s = .next t) : t.tgt = s.tgt ∧ ResultsUnder s.tgt s t := by
  induction n generalizing s with
  | zero => cases h; exact ⟨rfl, .of_outEvents_eq rfl⟩
  | succ n ih =>
    cases hf : s.fetch with
    | none =>
      cases (interpretLoop_none hf (n + 1)).symm.trans h
      exact ⟨rfl, .of_outEvents_eq rfl⟩
    | some i =>
      rw [interpretLoop_some hf] at h
      obtain ⟨u, he, hl⟩ := andThen_eq_next h
      obtain ⟨hu, htgt, hr⟩ := exec_instruction_resultsUnder (fetch_isAddress hs hf) hs he
      obtain ⟨htgt', hr'⟩ := ih hu hl
      exact ⟨htgt'.trans htgt, hr.trans (htgt ▸ hr')⟩

/-- A payload is interpreted by its address form and then the loop (R190, R192). -/
theorem interpretPayload_eq (p : List Byte) (s : State) :
    interpretPayload p s = andThen (exec (decodeAddress p) (enterInterpreter p s)) (interpretLoop p.length) :=
  interpretLoop_some (fetch_address (enterInterpreter_ciPhase p s)) p.length

/-- Settles O26: address dispatch decides the target, and every instruction after it reports under that target. -/
theorem resultsOfOnePacketShareTheirTarget : Obligations.ResultsOfOnePacketShareTheirTarget := by
  intro payload s t h
  rw [interpretPayload_eq] at h
  obtain ⟨u, he, hl⟩ := andThen_eq_next h
  obtain ⟨hu, hr⟩ := exec_address_resultsUnder (decodeAddress_isAddress payload) he
  obtain ⟨htgt, hr'⟩ := interpretLoop_resultsUnder hu hl
  exact htgt ▸ hr.trans hr'

end Sys2Proof.Machine
end

section
/-! Instruction dispatch (30_encoding.md R94 to R102): the tests on the byte under the cursor as ranges of its number,
one equation for each form those ranges give. -/

namespace Sys2Proof

/-- The three highest bits of a byte, compared as numbers. -/
theorem slice_five_three_eq_iff {b : Byte} {n : BitVec 3} : b.slice 5 3 = n ↔ b.toNat / 32 = n.toNat := by
  have hb : b.toNat / 32 < 8 := by omega
  simp [Byte.slice, ← BitVec.toNat_inj, Nat.shiftRight_eq_div_pow, Nat.mod_eq_of_lt hb]

/-- Bit 4 of a byte, read off its number. -/
theorem bit_four_eq_true_iff {b : Byte} : b.bit 4 = true ↔ b.toNat / 16 % 2 = 1 := by
  simp [Byte.bit, BitVec.getLsbD, Nat.testBit_eq_decide_div_mod_eq]

theorem decodeInstrByte_speed28 {b : Byte} (toAll : Bool) (rest : List Byte)
    (hlo : 0x40 ≤ b.toNat) (hhi : b.toNat ≤ 0x7F) :
    decodeInstrByte toAll b rest = .speed28 (b.bit 5) (b.bit 4) (b.slice 0 4) := by
  have htop : b.toNat / 32 = 2 ∨ b.toNat / 32 = 3 := by omega
  simp [decodeInstrByte, slice_five_three_eq_iff, htop]

theorem decodeInstrByte_fg1 {b : Byte} (toAll : Bool) (rest : List Byte)
    (hlo : 0x80 ≤ b.toNat) (hhi : b.toNat ≤ 0x9F) :
    decodeInstrByte toAll b rest = .fg1 (b.bit 4) (b.bit 3) (b.bit 2) (b.bit 1) (b.bit 0) := by
  have htop : b.toNat / 32 = 4 := by omega
  simp [decodeInstrByte, slice_five_three_eq_iff, htop]

theorem decodeInstrByte_fg2Lo {b : Byte} (toAll : Bool) (rest : List Byte)
    (hlo : 0xA0 ≤ b.toNat) (hhi : b.toNat ≤ 0xAF) :
    decodeInstrByte toAll b rest = .fg2Lo (b.bit 3) (b.bit 2) (b.bit 1) (b.bit 0) := by
  have htop : b.toNat / 32 = 5 ∧ b.toNat / 16 % 2 = 0 := by omega
  simp [decodeInstrByte, slice_five_three_eq_iff, bit_four_eq_true_iff, htop]

theorem decodeInstrByte_fg2Hi {b : Byte} (toAll : Bool) (rest : List Byte)
    (hlo : 0xB0 ≤ b.toNat) (hhi : b.toNat ≤ 0xBF) :
    decodeInstrByte toAll b rest = .fg2Hi (b.bit 3) (b.bit 2) (b.bit 1) (b.bit 0) := by
  have htop : b.toNat / 32 = 5 ∧ b.toNat / 16 % 2 = 1 := by omega
  simp [decodeInstrByte, slice_five_three_eq_iff, bit_four_eq_true_iff, htop]

theorem decodeInstrByte_resetAll (rest : List Byte) : decodeInstrByte true 0x00#8 rest = .resetAll := by
  simp [decodeInstrByte, slice_five_three_eq_iff]

theorem decodeInstrByte_unknown {toAll : Bool} {b : Byte} (rest : List Byte)
    (hb : b.toNat < 0x40 ∨ 0xC0 ≤ b.toNat) (hz : toAll = true → b ≠ 0x00#8) :
    decodeInstrByte toAll b rest = .unknownInstr b rest := by
  have htop : b.toNat / 32 ≠ 2 ∧ b.toNat / 32 ≠ 3 ∧ b.toNat / 32 ≠ 4 ∧ b.toNat / 32 ≠ 5 := by omega
  have hr : ¬ (toAll = true ∧ b = 0x00#8) := fun h => hz h.1 h.2
  simp only [decodeInstrByte, slice_five_three_eq_iff, htop, hr, BitVec.reduceToNat, or_self, if_false]

/-- SPEED128: the byte 0x3F and a byte after it (R95). -/
theorem decodeInstruction_speed128 (toAll : Bool) (d : Byte) (rest : List Byte) :
    decodeInstruction toAll (0x3F#8 :: d :: rest) = .ok (.speed128 (d.bit 7) (d.slice 0 7)) := by
  obtain ⟨i, hi⟩ := decodeInstruction_cons toAll 0x3F#8 (d :: rest)
  rcases decodeInstruction_cases hi with ⟨d', rest', hbs, rfl⟩ | ⟨b, rest', hbs, hlast, -⟩ <;> cases hbs
  · exact hi
  · cases hlast rfl

/-- Where no SPEED128 stands, the first byte decides (R94). -/
theorem decodeInstruction_of_not_speed128 {toAll : Bool} {b : Byte} {rest : List Byte} (hb : b = 0x3F#8 → rest = []) :
    decodeInstruction toAll (b :: rest) = .ok (decodeInstrByte toAll b rest) := by
  obtain ⟨i, hi⟩ := decodeInstruction_cons toAll b rest
  rcases decodeInstruction_cases hi with ⟨d, rest', hbs, -⟩ | ⟨b', rest', hbs, -, rfl⟩ <;> cases hbs
  · cases hb rfl
  · exact hi

/-- Instruction dispatch, exhaustively: the bytes shown, as ranges of the first one's number, and the form they give. -/
theorem decodeInstruction_ranges {toAll : Bool} {bs : List Byte} {i : Instr} (h : decodeInstruction toAll bs = .ok i) :
    (∃ (d : Byte) (rest : List Byte), bs = 0x3F#8 :: d :: rest ∧ i = .speed128 (d.bit 7) (d.slice 0 7)) ∨
    ∃ b rest, bs = b :: rest ∧
      ((0x40 ≤ b.toNat ∧ b.toNat ≤ 0x7F ∧ i = .speed28 (b.bit 5) (b.bit 4) (b.slice 0 4)) ∨
       (0x80 ≤ b.toNat ∧ b.toNat ≤ 0x9F ∧ i = .fg1 (b.bit 4) (b.bit 3) (b.bit 2) (b.bit 1) (b.bit 0)) ∨
       (0xA0 ≤ b.toNat ∧ b.toNat ≤ 0xAF ∧ i = .fg2Lo (b.bit 3) (b.bit 2) (b.bit 1) (b.bit 0)) ∨
       (0xB0 ≤ b.toNat ∧ b.toNat ≤ 0xBF ∧ i = .fg2Hi (b.bit 3) (b.bit 2) (b.bit 1) (b.bit 0)) ∨
       (toAll = true ∧ b = 0x00#8 ∧ i = .resetAll) ∨
       ((b = 0x3F#8 → rest = []) ∧ (b.toNat < 0x40 ∨ 0xC0 ≤ b.toNat) ∧ (toAll = true → b ≠ 0x00#8) ∧
         i = .unknownInstr b rest)) := by
  rcases decodeInstruction_cases h with h128 | ⟨b, rest, rfl, hlast, rfl⟩
  · exact .inl h128
  refine .inr ⟨b, rest, rfl, ?_⟩
  by_cases hout : b.toNat < 0x40 ∨ 0xC0 ≤ b.toNat
  · by_cases hz : toAll = true ∧ b = 0x00#8
    · obtain ⟨rfl, rfl⟩ := hz
      exact .inr (.inr (.inr (.inr (.inl ⟨rfl, rfl, decodeInstrByte_resetAll rest⟩))))
    · have hz' : toAll = true → b ≠ 0x00#8 := fun ht hb => hz ⟨ht, hb⟩
      exact .inr (.inr (.inr (.inr (.inr ⟨hlast, hout, hz', decodeInstrByte_unknown rest hout hz'⟩))))
  · have hin : (0x40 ≤ b.toNat ∧ b.toNat ≤ 0x7F) ∨ (0x80 ≤ b.toNat ∧ b.toNat ≤ 0x9F) ∨
        (0xA0 ≤ b.toNat ∧ b.toNat ≤ 0xAF) ∨ (0xB0 ≤ b.toNat ∧ b.toNat ≤ 0xBF) := by omega
    rcases hin with ⟨hlo, hhi⟩ | ⟨hlo, hhi⟩ | ⟨hlo, hhi⟩ | ⟨hlo, hhi⟩
    · exact .inl ⟨hlo, hhi, decodeInstrByte_speed28 toAll rest hlo hhi⟩
    · exact .inr (.inl ⟨hlo, hhi, decodeInstrByte_fg1 toAll rest hlo hhi⟩)
    · exact .inr (.inr (.inl ⟨hlo, hhi, decodeInstrByte_fg2Lo toAll rest hlo hhi⟩))
    · exact .inr (.inr (.inr (.inl ⟨hlo, hhi, decodeInstrByte_fg2Hi toAll rest hlo hhi⟩)))

/-! ## The rest of address dispatch -/

theorem decodeAddress_idle : decodeAddress [0xFF#8, 0x00#8] = .idle := by decide

theorem decodeAddress_idleInvalid {rest : List Byte} (hr : rest ≠ [0x00#8]) :
    decodeAddress (0xFF#8 :: rest) = .addrIdleInvalid rest := by
  simp [decodeAddress, hr]

theorem decodeAddress_long {b : Byte} (l : Byte) (rest : List Byte) (hlo : 0xC0 ≤ b.toNat) (hhi : b.toNat ≤ 0xFE) :
    decodeAddress (b :: l :: rest) = .addrLong (b.slice 0 6) l := by
  have hb := ne_zero_and_ne_FF_of_range (by omega) hhi
  have htop : b.toNat / 64 = 3 := by omega
  simp [decodeAddress, slice_six_two_eq_iff, hb, htop]

/-- Address dispatch, exhaustively: the payload, as ranges of the first byte's number, and the form it gives. -/
theorem decodeAddress_ranges (bs : List Byte) :
    (bs = [] ∧ decodeAddress bs = .addrEmpty) ∨
    (∃ rest, bs = 0x00#8 :: rest ∧ decodeAddress bs = .addrBroadcast) ∨
    (bs = [0xFF#8, 0x00#8] ∧ decodeAddress bs = .idle) ∨
    (∃ rest, bs = 0xFF#8 :: rest ∧ rest ≠ [0x00#8] ∧ decodeAddress bs = .addrIdleInvalid rest) ∨
    (∃ (b l : Byte) (rest : List Byte), bs = b :: l :: rest ∧ 0xC0 ≤ b.toNat ∧ b.toNat ≤ 0xFE ∧
      decodeAddress bs = .addrLong (b.slice 0 6) l) ∨
    (∃ b : Byte, bs = [b] ∧ 0xC0 ≤ b.toNat ∧ b.toNat ≤ 0xFE ∧ decodeAddress bs = .addrUnknown (b.slice 0 6)) ∨
    (∃ (b : Byte) (rest : List Byte), bs = b :: rest ∧ 0x80 ≤ b.toNat ∧ b.toNat ≤ 0xBF ∧
      decodeAddress bs = .addrAccessory (b.slice 0 6) rest) ∨
    (∃ (b : Byte) (rest : List Byte), bs = b :: rest ∧ 1 ≤ b.toNat ∧ b.toNat ≤ 0x7F ∧
      decodeAddress bs = .addrShort (b.slice 0 7)) := by
  cases bs with
  | nil => exact .inl ⟨rfl, rfl⟩
  | cons b rest =>
    have hb : b = 0x00#8 ∨ b = 0xFF#8 ∨ (0xC0 ≤ b.toNat ∧ b.toNat ≤ 0xFE) ∨ (0x80 ≤ b.toNat ∧ b.toNat ≤ 0xBF) ∨
        (1 ≤ b.toNat ∧ b.toNat ≤ 0x7F) := by
      simp only [← BitVec.toNat_inj, BitVec.reduceToNat]
      omega
    rcases hb with rfl | rfl | ⟨hlo, hhi⟩ | ⟨hlo, hhi⟩ | ⟨hlo, hhi⟩
    · exact .inr (.inl ⟨rest, rfl, decodeAddress_zero rest⟩)
    · by_cases hr : rest = [0x00#8]
      · subst hr
        exact .inr (.inr (.inl ⟨rfl, decodeAddress_idle⟩))
      · exact .inr (.inr (.inr (.inl ⟨rest, rfl, hr, decodeAddress_idleInvalid hr⟩)))
    · cases rest with
      | nil => exact .inr (.inr (.inr (.inr (.inr (.inl ⟨b, rfl, hlo, hhi, decodeAddress_lone_long hlo hhi⟩)))))
      | cons l rest =>
        exact .inr (.inr (.inr (.inr (.inl ⟨b, l, rest, rfl, hlo, hhi, decodeAddress_long l rest hlo hhi⟩))))
    · exact .inr (.inr (.inr (.inr (.inr (.inr (.inl ⟨b, rest, rfl, hlo, hhi, decodeAddress_accessory rest hlo hhi⟩))))))
    · exact .inr (.inr (.inr (.inr (.inr (.inr (.inr ⟨b, rest, rfl, hlo, hhi, decodeAddress_short rest hlo hhi⟩))))))

end Sys2Proof
end

section
/-! Decode and encode agree (30_encoding.md R87 to R102): the bytes of each form packed from its operands and the
operands read back, and the two round trips assembled from them and the ranges of dispatch. -/

namespace Sys2Proof

/-! ## Bytes packed from fields, and the fields of bytes in a range -/

theorem longByte_fields (h : BitVec 6) (hh : h ≠ 63#6) :
    0xC0 ≤ (0b11#2 ++ h).toNat ∧ (0b11#2 ++ h).toNat ≤ 0xFE ∧ Byte.slice (0b11#2 ++ h) 0 6 = h := by
  revert h; decide

theorem longByte_of_range {b : Byte} (hlo : 0xC0 ≤ b.toNat) (hhi : b.toNat ≤ 0xFE) :
    0b11#2 ++ b.slice 0 6 = b ∧ b.slice 0 6 ≠ 63#6 := by
  revert b; decide

theorem accessoryByte_fields (x : BitVec 6) :
    0x80 ≤ (0b10#2 ++ x).toNat ∧ (0b10#2 ++ x).toNat ≤ 0xBF ∧ Byte.slice (0b10#2 ++ x) 0 6 = x := by
  revert x; decide

theorem accessoryByte_of_range {b : Byte} (hlo : 0x80 ≤ b.toNat) (hhi : b.toNat ≤ 0xBF) :
    0b10#2 ++ b.slice 0 6 = b := by
  revert b; decide

theorem shortByte_fields (a : BitVec 7) (ha : a ≠ 0#7) :
    1 ≤ (0b0#1 ++ a).toNat ∧ (0b0#1 ++ a).toNat ≤ 0x7F ∧ Byte.slice (0b0#1 ++ a) 0 7 = a := by
  revert a; decide

theorem shortByte_of_range {b : Byte} (hlo : 1 ≤ b.toNat) (hhi : b.toNat ≤ 0x7F) :
    0b0#1 ++ b.slice 0 7 = b ∧ b.slice 0 7 ≠ 0#7 := by
  revert b; decide

theorem speed128Byte_fields (d : Bool) (s : BitVec 7) :
    Byte.bit (BitVec.ofBool d ++ s) 7 = d ∧ Byte.slice (BitVec.ofBool d ++ s) 0 7 = s := by
  revert d s; decide

theorem speed128Byte_of_fields (b : Byte) : BitVec.ofBool (b.bit 7) ++ b.slice 0 7 = b := by
  revert b; decide

theorem speed28Byte_fields (d c : Bool) (s : BitVec 4) :
    let b : Byte := 0b01#2 ++ BitVec.ofBool d ++ BitVec.ofBool c ++ s
    0x40 ≤ b.toNat ∧ b.toNat ≤ 0x7F ∧ b.bit 5 = d ∧ b.bit 4 = c ∧ b.slice 0 4 = s := by
  revert d c s; decide

theorem speed28Byte_of_range {b : Byte} (hlo : 0x40 ≤ b.toNat) (hhi : b.toNat ≤ 0x7F) :
    0b01#2 ++ BitVec.ofBool (b.bit 5) ++ BitVec.ofBool (b.bit 4) ++ b.slice 0 4 = b := by
  revert b; decide

theorem fg1Byte_fields (fl f4 f3 f2 f1 : Bool) :
    let b : Byte :=
      0b100#3 ++ BitVec.ofBool fl ++ BitVec.ofBool f4 ++ BitVec.ofBool f3 ++ BitVec.ofBool f2 ++ BitVec.ofBool f1
    0x80 ≤ b.toNat ∧ b.toNat ≤ 0x9F ∧ b.bit 4 = fl ∧ b.bit 3 = f4 ∧ b.bit 2 = f3 ∧ b.bit 1 = f2 ∧ b.bit 0 = f1 := by
  revert fl f4 f3 f2 f1; decide

theorem fg1Byte_of_range {b : Byte} (hlo : 0x80 ≤ b.toNat) (hhi : b.toNat ≤ 0x9F) :
    0b100#3 ++ BitVec.ofBool (b.bit 4) ++ BitVec.ofBool (b.bit 3) ++ BitVec.ofBool (b.bit 2) ++
      BitVec.ofBool (b.bit 1) ++ BitVec.ofBool (b.bit 0) = b := by
  revert b; decide

theorem fg2HiByte_fields (f8 f7 f6 f5 : Bool) :
    let b : Byte := 0b1011#4 ++ BitVec.ofBool f8 ++ BitVec.ofBool f7 ++ BitVec.ofBool f6 ++ BitVec.ofBool f5
    0xB0 ≤ b.toNat ∧ b.toNat ≤ 0xBF ∧ b.bit 3 = f8 ∧ b.bit 2 = f7 ∧ b.bit 1 = f6 ∧ b.bit 0 = f5 := by
  revert f8 f7 f6 f5; decide

theorem fg2HiByte_of_range {b : Byte} (hlo : 0xB0 ≤ b.toNat) (hhi : b.toNat ≤ 0xBF) :
    0b1011#4 ++ BitVec.ofBool (b.bit 3) ++ BitVec.ofBool (b.bit 2) ++ BitVec.ofBool (b.bit 1) ++
      BitVec.ofBool (b.bit 0) = b := by
  revert b; decide

theorem fg2LoByte_fields (f12 f11 f10 f9 : Bool) :
    let b : Byte := 0b1010#4 ++ BitVec.ofBool f12 ++ BitVec.ofBool f11 ++ BitVec.ofBool f10 ++ BitVec.ofBool f9
    0xA0 ≤ b.toNat ∧ b.toNat ≤ 0xAF ∧ b.bit 3 = f12 ∧ b.bit 2 = f11 ∧ b.bit 1 = f10 ∧ b.bit 0 = f9 := by
  revert f12 f11 f10 f9; decide

theorem fg2LoByte_of_range {b : Byte} (hlo : 0xA0 ≤ b.toNat) (hhi : b.toNat ≤ 0xAF) :
    0b1010#4 ++ BitVec.ofBool (b.bit 3) ++ BitVec.ofBool (b.bit 2) ++ BitVec.ofBool (b.bit 1) ++
      BitVec.ofBool (b.bit 0) = b := by
  revert b; decide

/-! ## Known bytes as ranges -/

/-- The masks of the rows of fixed first bits, as one range of numbers. -/
theorem knownInstrByte_masks (b : Byte) :
    (b &&& 0xC0#8 = 0x40#8 ∨ b &&& 0xE0#8 = 0x80#8 ∨ b &&& 0xF0#8 = 0xB0#8 ∨ b &&& 0xF0#8 = 0xA0#8) ↔
      0x40 ≤ b.toNat ∧ b.toNat ≤ 0xBF := by
  revert b; decide

theorem knownInstrByte_eq_false_iff {toAll : Bool} {b : Byte} {rest : List Byte} :
    knownInstrByte toAll b rest = false ↔
      (b = 0x3F#8 → rest = []) ∧ (b.toNat < 0x40 ∨ 0xC0 ≤ b.toNat) ∧ (toAll = true → b ≠ 0x00#8) := by
  have hm : ¬ (b &&& 0xC0#8 = 0x40#8 ∨ b &&& 0xE0#8 = 0x80#8 ∨ b &&& 0xF0#8 = 0xB0#8 ∨ b &&& 0xF0#8 = 0xA0#8) ↔
      b.toNat < 0x40 ∨ 0xC0 ≤ b.toNat := by
    rw [knownInstrByte_masks]; omega
  rw [← hm]
  simp [knownInstrByte]
  tauto

/-! ## The two round trips -/

theorem decodeAddress_encode {i : Instr} {tail : List Byte} (hw : WellFormed .address i = true)
    (ht : i.takesAll = true → tail = []) : decodeAddress (encode i ++ tail) = i := by
  cases i with
  | addrEmpty => cases ht rfl; rfl
  | addrBroadcast => exact decodeAddress_zero tail
  | idle => cases ht rfl; exact decodeAddress_idle
  | addrIdleInvalid rest =>
    cases ht rfl
    simpa [encode] using decodeAddress_idleInvalid (bne_iff_ne.1 hw)
  | addrLong h l =>
    obtain ⟨hlo, hhi, hs⟩ := longByte_fields h (bne_iff_ne.1 hw)
    simpa [encode, hs] using decodeAddress_long l tail hlo hhi
  | addrAccessory x rest =>
    cases ht rfl
    obtain ⟨hlo, hhi, hs⟩ := accessoryByte_fields x
    simpa [encode, hs] using decodeAddress_accessory rest hlo hhi
  | addrShort a =>
    obtain ⟨hlo, hhi, hs⟩ := shortByte_fields a (bne_iff_ne.1 hw)
    simpa [encode, hs] using decodeAddress_short tail hlo hhi
  | addrUnknown x =>
    cases ht rfl
    obtain ⟨hlo, hhi, hs⟩ := longByte_fields x (bne_iff_ne.1 hw)
    simpa [encode, hs] using decodeAddress_lone_long hlo hhi
  | _ => cases hw

/-- A first byte that is not 0x3F decides alone. -/
theorem decodeInstruction_of_forty_le {toAll : Bool} {b : Byte} (rest : List Byte) (hlo : 0x40 ≤ b.toNat) :
    decodeInstruction toAll (b :: rest) = .ok (decodeInstrByte toAll b rest) :=
  decodeInstruction_of_not_speed128 fun hb => by subst hb; simp at hlo

theorem decodeInstruction_encode {toAll : Bool} {i : Instr} {tail : List Byte}
    (hw : WellFormed (.instruction toAll) i = true) (ht : i.takesAll = true → tail = []) :
    decodeInstruction toAll (encode i ++ tail) = .ok i := by
  cases i with
  | speed128 d s =>
    obtain ⟨hd, hs⟩ := speed128Byte_fields d s
    simpa [encode, hd, hs] using decodeInstruction_speed128 toAll (BitVec.ofBool d ++ s) tail
  | speed28 d c s =>
    obtain ⟨hlo, hhi, hd, hc, hs⟩ := speed28Byte_fields d c s
    have h := decodeInstruction_of_forty_le (toAll := toAll) tail hlo
    rwa [decodeInstrByte_speed28 toAll tail hlo hhi, hd, hc, hs] at h
  | fg1 fl f4 f3 f2 f1 =>
    obtain ⟨hlo, hhi, h4, h3, h2, h1, h0⟩ := fg1Byte_fields fl f4 f3 f2 f1
    have h := decodeInstruction_of_forty_le (toAll := toAll) tail (Nat.le_trans (by decide) hlo)
    rwa [decodeInstrByte_fg1 toAll tail hlo hhi, h4, h3, h2, h1, h0] at h
  | fg2Hi f8 f7 f6 f5 =>
    obtain ⟨hlo, hhi, h3, h2, h1, h0⟩ := fg2HiByte_fields f8 f7 f6 f5
    have h := decodeInstruction_of_forty_le (toAll := toAll) tail (Nat.le_trans (by decide) hlo)
    rwa [decodeInstrByte_fg2Hi toAll tail hlo hhi, h3, h2, h1, h0] at h
  | fg2Lo f12 f11 f10 f9 =>
    obtain ⟨hlo, hhi, h3, h2, h1, h0⟩ := fg2LoByte_fields f12 f11 f10 f9
    have h := decodeInstruction_of_forty_le (toAll := toAll) tail (Nat.le_trans (by decide) hlo)
    rwa [decodeInstrByte_fg2Lo toAll tail hlo hhi, h3, h2, h1, h0] at h
  | resetAll =>
    obtain rfl : toAll = true := hw
    have hb : (0x00#8 : Byte) = 0x3F#8 → tail = [] := fun h => absurd h (by decide)
    exact (decodeInstruction_of_not_speed128 hb).trans (congrArg Except.ok (decodeInstrByte_resetAll tail))
  | unknownInstr b rest =>
    cases ht rfl
    obtain ⟨hlast, hout, hz⟩ := knownInstrByte_eq_false_iff.1 ((Bool.not_eq_true' _).mp hw)
    have h := decodeInstruction_of_not_speed128 (toAll := toAll) hlast
    simpa [encode, decodeInstrByte_unknown rest hout hz] using h
  | _ => cases hw

theorem decodeAddress_wellFormed (bs : List Byte) :
    WellFormed .address (decodeAddress bs) = true ∧
      ∃ tail, bs = encode (decodeAddress bs) ++ tail ∧ ((decodeAddress bs).takesAll = true → tail = []) := by
  rcases decodeAddress_ranges bs with ⟨rfl, e⟩ | ⟨rest, rfl, e⟩ | ⟨rfl, e⟩ | ⟨rest, rfl, hr, e⟩ |
    ⟨b, l, rest, rfl, hlo, hhi, e⟩ | ⟨b, rfl, hlo, hhi, e⟩ | ⟨b, rest, rfl, hlo, hhi, e⟩ | ⟨b, rest, rfl, hlo, hhi, e⟩ <;>
    rw [e]
  · exact ⟨rfl, [], rfl, fun _ => rfl⟩
  · exact ⟨rfl, rest, rfl, nofun⟩
  · exact ⟨rfl, [], rfl, fun _ => rfl⟩
  · exact ⟨bne_iff_ne.2 hr, [], by simp [encode], fun _ => rfl⟩
  · obtain ⟨hb, hne⟩ := longByte_of_range hlo hhi
    exact ⟨bne_iff_ne.2 hne, rest, by simp [encode, hb], nofun⟩
  · obtain ⟨hb, hne⟩ := longByte_of_range hlo hhi
    exact ⟨bne_iff_ne.2 hne, [], by simp [encode, hb], fun _ => rfl⟩
  · exact ⟨rfl, [], by simp [encode, accessoryByte_of_range hlo hhi], fun _ => rfl⟩
  · obtain ⟨hb, hne⟩ := shortByte_of_range hlo hhi
    exact ⟨bne_iff_ne.2 hne, rest, by simp [encode, hb], nofun⟩

theorem decodeInstruction_wellFormed {toAll : Bool} {bs : List Byte} {i : Instr}
    (h : decodeInstruction toAll bs = .ok i) :
    WellFormed (.instruction toAll) i = true ∧ ∃ tail, bs = encode i ++ tail ∧ (i.takesAll = true → tail = []) := by
  rcases decodeInstruction_ranges h with ⟨d, rest, rfl, rfl⟩ | ⟨b, rest, rfl, ⟨hlo, hhi, rfl⟩ | ⟨hlo, hhi, rfl⟩ |
    ⟨hlo, hhi, rfl⟩ | ⟨hlo, hhi, rfl⟩ | ⟨rfl, rfl, rfl⟩ | ⟨hlast, hout, hz, rfl⟩⟩
  · exact ⟨rfl, rest, by simp [encode, speed128Byte_of_fields], nofun⟩
  · exact ⟨rfl, rest, by simp [encode, speed28Byte_of_range hlo hhi], nofun⟩
  · exact ⟨rfl, rest, by simp [encode, fg1Byte_of_range hlo hhi], nofun⟩
  · exact ⟨rfl, rest, by simp [encode, fg2LoByte_of_range hlo hhi], nofun⟩
  · exact ⟨rfl, rest, by simp [encode, fg2HiByte_of_range hlo hhi], nofun⟩
  · exact ⟨rfl, rest, rfl, nofun⟩
  · exact ⟨(Bool.not_eq_true' _).mpr (knownInstrByte_eq_false_iff.2 ⟨hlast, hout, hz⟩), [], by simp [encode], fun _ => rfl⟩

/-- Settles O1: form by form, the packed bytes fall into the range of the form, and its fields are read back. -/
theorem encodedFormDecodesToItself : Obligations.EncodedFormDecodesToItself := by
  intro lv i tail hw ht
  cases lv with
  | address => exact congrArg Except.ok (decodeAddress_encode hw ht)
  | instruction toAll => exact decodeInstruction_encode hw ht

/-- Settles O2: range by range, the bytes dispatch has taken are the form's fields packed again. -/
theorem decodedBytesAreTheFormsEncoding : Obligations.DecodedBytesAreTheFormsEncoding := by
  intro lv bs i h
  cases lv with
  | address =>
    cases h
    exact decodeAddress_wellFormed bs
  | instruction toAll => exact decodeInstruction_wellFormed h

/-- Settles O3: fifteen closed words, each evaluated. -/
theorem specWordsDecodeToTheirForms : Obligations.SpecWordsDecodeToTheirForms :=
  ⟨rfl, rfl, rfl, rfl, rfl, rfl, rfl, rfl, rfl, rfl, rfl, rfl, rfl, rfl, rfl⟩

end Sys2Proof
end

section
/-! The forms one by one (44_command_interpreter.md R191 to R208): what decodes to each, from the ranges of dispatch, and
what its exec is. -/

namespace Sys2Proof.Machine

/-! ## Address forms -/

/-- A payload that decodes to a form that takes it all is the form's encoding. -/
theorem eq_encode_of_decodeAddress_eq {bs : List Byte} {i : Instr} (h : decodeAddress bs = i) (hi : i.takesAll = true) :
    WellFormed .address i = true ∧ bs = encode i := by
  subst h
  obtain ⟨hw, tail, hbs, ht⟩ := decodeAddress_wellFormed bs
  rw [ht hi, List.append_nil] at hbs
  exact ⟨hw, hbs⟩

/-- Settles O4: the form's encoding is one byte, of the range because its six bits are not all ones. -/
theorem addrUnknownIsALoneByteC0ToFE : Obligations.AddrUnknownIsALoneByteC0ToFE := by
  intro bs
  constructor
  · rintro ⟨x, hx⟩
    obtain ⟨hw, hbs⟩ := eq_encode_of_decodeAddress_eq (Except.ok.inj hx) rfl
    obtain ⟨hlo, hhi, -⟩ := longByte_fields x (bne_iff_ne.1 hw)
    exact ⟨0b11#2 ++ x, hbs, hlo, hhi⟩
  · rintro ⟨b, rfl, hlo, hhi⟩
    exact ⟨b.slice 0 6, congrArg Except.ok (decodeAddress_lone_long hlo hhi)⟩

/-- Settles O6: the form's encoding is no byte at all, and it reports the payload in hand. -/
theorem emptyPayloadIsReportedUnknown : Obligations.EmptyPayloadIsReportedUnknown := by
  refine ⟨fun bs => ⟨fun h => (eq_encode_of_decodeAddress_eq (Except.ok.inj h) rfl).2, ?nil⟩, fun _ => rfl, ?hand⟩
  case nil => rintro rfl; rfl
  case hand =>
    intro s hs
    rw [← hs]
    rfl

/-- Settles O8: 0xFF is tested as a whole byte, before the 14-bit addresses, and [00] alone after it is the idle packet. -/
theorem idleOnlyForFF00 : Obligations.IdleOnlyForFF00 :=
  ⟨congrArg Except.ok decodeAddress_idle, fun _ hr => congrArg Except.ok (decodeAddress_idleInvalid hr),
    fun _ => rfl, fun _ s => congrArg Host.Outcome.next (reportUnknown_eq s)⟩

/-- The first byte's six bits are the high ones (R90). -/
theorem toNat_longAddress (h : BitVec 6) (l : BitVec 8) : (longAddress h l).toNat = h.toNat * 256 + l.toNat := by
  have hl : l.toNat < 2 ^ 8 := l.isLt
  simp only [longAddress, BitVec.toNat_append, Nat.shiftLeft_eq]
  rw [Nat.mul_comm, ← Nat.two_pow_add_eq_or_of_lt hl]

/-- Settles O9: highest bits 11 with a second byte are ADDR_LONG, whose target is the two parts as one number. -/
theorem longAddressIsFirstByteHigh : Obligations.LongAddressIsFirstByteHigh :=
  ⟨fun _ l rest hlo hhi => congrArg Except.ok (decodeAddress_long l rest hlo hhi),
    fun h l _ => ⟨longAddress h l, toNat_longAddress h l, rfl⟩⟩

/-! ## Instruction forms -/

/-- `S` as a number and as seven bits (R202). -/
theorem speed128Of_toNat (v : BitVec 7) :
    speed128Of v.toNat = if v = 0#7 then .stop else if v = 1#7 then .eStop else .step (v.toNat - 1) := by
  simp [speed128Of, ← BitVec.toNat_inj]

/-- Settles O13: 0x3F needs a second byte; without it, and below it, the byte is unknown. -/
theorem speed128ReportsStepMinusOne : Obligations.Speed128ReportsStepMinusOne := by
  refine ⟨fun toAll d rest => decodeInstruction_speed128 toAll d rest, ?unknown, ?exec⟩
  case unknown =>
    intro toAll b rest h
    have hlast : b = 0x3F#8 → rest = [] := by
      rintro rfl
      exact h.elim And.right fun hr => absurd hr.2 (by decide)
    have hrange : 0x20 ≤ b.toNat ∧ b.toNat ≤ 0x3F := by
      rcases h with ⟨rfl, -⟩ | hr
      · decide
      · omega
    have hz : b ≠ 0x00#8 := by rintro rfl; exact absurd hrange.1 (by decide)
    exact (decodeInstruction_of_not_speed128 hlast).trans
      (congrArg Except.ok (decodeInstrByte_unknown rest (by omega) fun _ => hz))
  case exec =>
    intro d v s
    rw [← speed128Of_toNat]
    rfl

/-- Settles O14: the number of a speed is read off its range of bytes, and its five cases are those of the rule. -/
theorem speed28ReadsBitFourAsTheLowBit : Obligations.Speed28ReadsBitFourAsTheLowBit := by
  refine ⟨fun toAll b rest hlo hhi => ?decode, fun d c v s => ?exec⟩
  case decode =>
    exact (decodeInstruction_of_forty_le rest hlo).trans
      (congrArg Except.ok (decodeInstrByte_speed28 toAll rest hlo hhi))
  case exec =>
    have hc : c.toNat = if c = true then 1 else 0 := by cases c <;> rfl
    simp only [exec, execSpeed28, report_eq, speed28Value, hc]
    rcases v.toNat * 2 + (if c = true then 1 else 0) with _ | _ | _ | _ | n <;> rfl

/-- Settles O15: the highest bits 100. -/
theorem functionGroupOneReportsFLAndF1ToF4 : Obligations.FunctionGroupOneReportsFLAndF1ToF4 :=
  ⟨fun toAll _ rest hlo hhi => (decodeInstruction_of_forty_le rest (Nat.le_trans (by decide) hlo)).trans
      (congrArg Except.ok (decodeInstrByte_fg1 toAll rest hlo hhi)),
    fun _ _ _ _ _ _ => rfl⟩

/-- Settles O16: the highest bits 101 and then 1. -/
theorem functionGroupTwoHighReportsF5ToF8 : Obligations.FunctionGroupTwoHighReportsF5ToF8 :=
  ⟨fun toAll _ rest hlo hhi => (decodeInstruction_of_forty_le rest (Nat.le_trans (by decide) hlo)).trans
      (congrArg Except.ok (decodeInstrByte_fg2Hi toAll rest hlo hhi)),
    fun _ _ _ _ _ => rfl⟩

/-- Settles O17: the highest bits 101 and then 0. -/
theorem functionGroupTwoLowReportsF9ToF12 : Obligations.FunctionGroupTwoLowReportsF9ToF12 :=
  ⟨fun toAll _ rest hlo hhi => (decodeInstruction_of_forty_le rest (Nat.le_trans (by decide) hlo)).trans
      (congrArg Except.ok (decodeInstrByte_fg2Lo toAll rest hlo hhi)),
    fun _ _ _ _ _ => rfl⟩

theorem execResetAll_of_all {s : State} (h : s.tgt = .all) : exec .resetAll s = .next (report .resetAll 1 s) := if_pos h

theorem execResetAll_of_ne_all {s : State} (h : s.tgt ≠ .all) : exec .resetAll s = .next (reportUnknown s) := if_neg h

/-- Settles O18: the decoder asks for the target All, and so does the form itself. -/
theorem resetAllOnlyUnderTheTargetAll : Obligations.ResetAllOnlyUnderTheTargetAll := by
  have hne : (0x00#8 : Byte) ≠ 0x3F#8 := by decide
  refine ⟨fun rest => ?all, fun rest => ?other, fun _ h => execResetAll_of_all h, fun _ h => execResetAll_of_ne_all h⟩
  case all =>
    exact (decodeInstruction_of_not_speed128 (absurd · hne)).trans (congrArg Except.ok (decodeInstrByte_resetAll rest))
  case other =>
    exact (decodeInstruction_of_not_speed128 (absurd · hne)).trans
      (congrArg Except.ok (decodeInstrByte_unknown rest (.inl (by decide)) nofun))

/-- Settles O19: the report stops the interpretation, and an idle interpreter fetches nothing. -/
theorem unknownInstructionReportsThePayloadAndStops : Obligations.UnknownInstructionReportsThePayloadAndStops :=
  fun _ _ s => ⟨reportUnknown s, rfl, reportUnknown_eq s, fetch_idle rfl⟩

end Sys2Proof.Machine
end

section
/-! What a form does, by its class (44_command_interpreter.md R191 to R208): an unknown form reports the payload, an
address form that gives a target sets it and passes its bytes, a known instruction reports one result and passes its
bytes. The frames, the unknown encodings and the cursor follow. -/

namespace Sys2Proof.Machine

/-! ## The classes of forms -/

theorem exec_of_unknownForm {i : Instr} (hi : unknownForm i = true) (s : State) :
    exec i s = .next (reportUnknown s) := by
  cases i with
  | addrEmpty => rfl
  | addrIdleInvalid _ => rfl
  | addrAccessory _ _ => rfl
  | addrUnknown _ => rfl
  | unknownInstr _ _ => rfl
  | _ => cases hi

/-- The target an address form gives (R193, R195, R197). -/
def targetOf : Instr → Target
  | .addrLong h l => .long (longAddress h l)
  | .addrShort a  => .short a
  | _             => .all

theorem exec_of_target_form {a : Instr} (ha : a.isAddress = true) (ht : a.takesAll = false) (s : State) :
    exec a s = .next (setTarget (targetOf a) (encode a).length s) := by
  cases a with
  | addrBroadcast => rfl
  | addrLong _ _ => rfl
  | addrShort _ => rfl
  | addrEmpty => cases ht
  | idle => cases ht
  | addrIdleInvalid _ => cases ht
  | addrAccessory _ _ => cases ht
  | addrUnknown _ => cases ht
  | _ => cases ha

theorem targetOf_eq_all_iff {a : Instr} (ha : a.isAddress = true) (ht : a.takesAll = false) :
    targetOf a = .all ↔ a = .addrBroadcast := by
  cases a with
  | addrBroadcast => simp [targetOf]
  | addrLong _ _ => simp [targetOf]
  | addrShort _ => simp [targetOf]
  | addrEmpty => cases ht
  | idle => cases ht
  | addrIdleInvalid _ => cases ht
  | addrAccessory _ _ => cases ht
  | addrUnknown _ => cases ht
  | _ => cases ha

/-- At the instruction level the form that takes the rest of the payload is the unknown one. -/
theorem takesAll_eq_unknownForm {i : Instr} (hi : i.isAddress = false) : i.takesAll = unknownForm i := by
  cases i with
  | addrEmpty => cases hi
  | addrBroadcast => cases hi
  | idle => cases hi
  | addrIdleInvalid _ => cases hi
  | addrLong _ _ => cases hi
  | addrAccessory _ _ => cases hi
  | addrShort _ => cases hi
  | addrUnknown _ => cases hi
  | _ => rfl

/-- A known instruction, RESET_ALL under the target All, reports one result of its target and passes its bytes. -/
theorem exec_of_known_instruction {i : Instr} {s : State} (hi : i.isAddress = false) (hk : i.takesAll = false)
    (hr : i = .resetAll → s.tgt = .all) :
    ∃ r, r.target? = some s.tgt ∧ exec i s = .next (report r (encode i).length s) := by
  cases i with
  | speed128 _ _ => exact ⟨_, rfl, rfl⟩
  | speed28 _ _ _ => exact ⟨_, rfl, rfl⟩
  | fg1 _ _ _ _ _ => exact ⟨_, rfl, rfl⟩
  | fg2Hi _ _ _ _ => exact ⟨_, rfl, rfl⟩
  | fg2Lo _ _ _ _ => exact ⟨_, rfl, rfl⟩
  | resetAll => exact ⟨.resetAll, congrArg some (hr rfl).symm, execResetAll_of_all (hr rfl)⟩
  | unknownInstr _ _ => cases hk
  | _ => cases hi

theorem encode_instruction_ne_nil {i : Instr} (hi : i.isAddress = false) : encode i ≠ [] := by
  cases i with
  | speed128 _ _ => exact nofun
  | speed28 _ _ _ => exact nofun
  | fg1 _ _ _ _ _ => exact nofun
  | fg2Hi _ _ _ _ => exact nofun
  | fg2Lo _ _ _ _ => exact nofun
  | resetAll => exact nofun
  | unknownInstr _ _ => exact nofun
  | _ => cases hi

/-- An instruction form reports a result of its target and passes its bytes, of which it has some, or it reports the
payload unknown. -/
theorem exec_instruction_advances {i : Instr} (hi : i.isAddress = false) (s : State) :
    (∃ r, r.target? = some s.tgt ∧ exec i s = .next (report r (encode i).length s)) ∨
      exec i s = .next (reportUnknown s) := by
  cases hk : i.takesAll with
  | false =>
    by_cases hr : i = .resetAll → s.tgt = .all
    · exact .inl (exec_of_known_instruction hi hk hr)
    · obtain ⟨rfl, hne⟩ := Classical.not_imp.1 hr
      exact .inr (execResetAll_of_ne_all hne)
  | true => exact .inr (exec_of_unknownForm ((takesAll_eq_unknownForm hi).symm.trans hk) s)

/-! ## Frames -/

/-- What only reports leaves the stages alone. -/
theorem ReportsOnly.sameStages {rs : List Result} {s t : State} (h : ReportsOnly rs s t) : s.SameStages t := by
  refine ⟨?_, ?_, ?_, ?_, ?_, ?_, ?_, ?_, ?_, ?_, ?_, ?_, ?_, ?_, fun _ => ?_⟩ <;> rw [h]

theorem exec_sameStages {i : Instr} {s t : State} (h : exec i s = .next t) :
    s.SameStages t ∧ t.ciPayload = s.ciPayload := by
  obtain ⟨rs, hr, -⟩ := exec_frame h
  exact ⟨hr.sameStages, hr.ciPayload⟩

/-- Settles O20: a report moves the cursor past at least one byte and is no UnknownPacket, which carries no target. -/
theorem instructionFormsChangeOnlyCursorPhaseAndOutput : Obligations.InstructionFormsChangeOnlyCursorPhaseAndOutput := by
  intro i s t hi h
  obtain ⟨hstages, hpayload⟩ := exec_sameStages h
  refine ⟨hstages, hpayload, ?_⟩
  rcases exec_instruction_advances hi s with ⟨r, hr, he⟩ | he <;> cases h.symm.trans he
  · have hne : r ≠ .unknownPacket s.ciPayload := by rintro rfl; cases hr
    have hpos : 0 < (encode i).length := List.length_pos_iff.2 (encode_instruction_ne_nil hi)
    exact ⟨rfl, r, rfl, fun h => absurd h hne, fun _ => ⟨Nat.lt_add_of_pos_right hpos, rfl⟩⟩
  · exact ⟨rfl, _, rfl, fun _ => ⟨rfl, rfl⟩, fun h => absurd rfl h⟩

/-- Settles O21: an address form sets a target and reports nothing, or reports and stops. -/
theorem addressFormsChangeOnlyTargetCursorPhaseAndOutput :
    Obligations.AddressFormsChangeOnlyTargetCursorPhaseAndOutput := by
  intro i s t hi h
  obtain ⟨hstages, hpayload⟩ := exec_sameStages h
  refine ⟨hstages, hpayload, ?_⟩
  rcases exec_address_cases hi s with ⟨tgt, c, he⟩ | he | he <;> cases h.symm.trans he
  · exact .inl ⟨rfl, rfl⟩
  · exact .inr ⟨rfl, rfl, rfl, _, rfl⟩
  · exact .inr ⟨rfl, rfl, rfl, _, rfl⟩

/-! ## The unknown encodings -/

/-- The unknown instruction is the one form of its level that stands for an unknown encoding. -/
theorem unknownForm_of_decodeInstruction {toAll : Bool} {b : Byte} {rest : List Byte} {i : Instr}
    (h : decodeInstruction toAll (b :: rest) = .ok i) :
    unknownForm i = true ↔
      (b = 0x3F#8 → rest = []) ∧ (b.toNat < 0x40 ∨ 0xC0 ≤ b.toNat) ∧ (toAll = true → b ≠ 0x00#8) := by
  rcases decodeInstruction_ranges h with ⟨d, rest', hbs, rfl⟩ | ⟨b', rest', hbs, ⟨hlo, hhi, rfl⟩ | ⟨hlo, hhi, rfl⟩ |
    ⟨hlo, hhi, rfl⟩ | ⟨hlo, hhi, rfl⟩ | ⟨rfl, rfl, rfl⟩ | ⟨hlast, hout, hz, rfl⟩⟩ <;> cases hbs
  · exact ⟨nofun, fun h => absurd (h.1 rfl) nofun⟩
  · exact ⟨nofun, fun h => by omega⟩
  · exact ⟨nofun, fun h => by omega⟩
  · exact ⟨nofun, fun h => by omega⟩
  · exact ⟨nofun, fun h => by omega⟩
  · exact ⟨nofun, fun h => absurd rfl (h.2.2 rfl)⟩
  · exact ⟨fun _ => ⟨hlast, hout, hz⟩, fun _ => rfl⟩

/-- At the address level the unknown forms are four, each known by its bytes. -/
theorem unknownForm_decodeAddress (bs : List Byte) :
    unknownForm (decodeAddress bs) = true ↔
      bs = [] ∨ (∃ rest, bs = 0xFF#8 :: rest ∧ rest ≠ [0x00#8]) ∨
      (∃ (b : Byte) (rest : List Byte), bs = b :: rest ∧ 0x80 ≤ b.toNat ∧ b.toNat ≤ 0xBF) ∨
      (∃ b : Byte, bs = [b] ∧ 0xC0 ≤ b.toNat ∧ b.toNat ≤ 0xFE) := by
  constructor
  · intro h
    rcases decodeAddress_ranges bs with ⟨hbs, e⟩ | ⟨rest, hbs, e⟩ | ⟨hbs, e⟩ | ⟨rest, hbs, hr, e⟩ |
      ⟨b, l, rest, hbs, hlo, hhi, e⟩ | ⟨b, hbs, hlo, hhi, e⟩ | ⟨b, rest, hbs, hlo, hhi, e⟩ |
      ⟨b, rest, hbs, hlo, hhi, e⟩ <;> rw [e] at h
    · exact .inl hbs
    · cases h
    · cases h
    · exact .inr (.inl ⟨rest, hbs, hr⟩)
    · cases h
    · exact .inr (.inr (.inr ⟨b, hbs, hlo, hhi⟩))
    · exact .inr (.inr (.inl ⟨b, rest, hbs, hlo, hhi⟩))
    · cases h
  · rintro (rfl | ⟨rest, rfl, hr⟩ | ⟨b, rest, rfl, hlo, hhi⟩ | ⟨b, rfl, hlo, hhi⟩)
    · rfl
    · rw [decodeAddress_idleInvalid hr]; rfl
    · rw [decodeAddress_accessory rest hlo hhi]; rfl
    · rw [decodeAddress_lone_long hlo hhi]; rfl

theorem newEvents_eq {s t : State} {es : List OutEvent} (h : t.outEvents = s.outEvents ++ es) : newEvents s t = es := by
  rw [newEvents, h, List.drop_left]

/-- A form that stands for no unknown encoding reports no UnknownPacket. -/
theorem unknownPacket_notMem_of_known {i : Instr} {s t : State} (hi : unknownForm i = false)
    (hr : i = .resetAll → s.tgt = .all) (h : exec i s = .next t) (p : List Byte) :
    .result (.unknownPacket p) ∉ newEvents s t := by
  cases ha : i.isAddress with
  | false =>
    obtain ⟨r, htgt, he⟩ := exec_of_known_instruction ha ((takesAll_eq_unknownForm ha).trans hi) hr
    cases h.symm.trans he
    rw [newEvents_eq (es := [.result r]) rfl]
    rintro hmem
    cases List.mem_singleton.1 hmem
    cases htgt
  | true =>
    by_cases ht : i.takesAll = false
    · cases h.symm.trans (exec_of_target_form ha ht s)
      rw [newEvents_eq (es := []) (by simp)]
      exact List.not_mem_nil
    · have hidle : i = .idle := by
        cases i with
        | idle => rfl
        | _ => simp_all [Instr.takesAll, Instr.isAddress, unknownForm]
      subst hidle
      cases h
      rw [newEvents_eq (es := [.result .idle]) rfl]
      simp

/-- Settles O5: the unknown ranges are what dispatch leaves; their forms report the payload, and no other form does. -/
theorem unknownEncodingsAreExactlyThoseListed : Obligations.UnknownEncodingsAreExactlyThoseListed := by
  refine ⟨?instruction, ?address, ?reported, fun _ _ _ hi hr h p => unknownPacket_notMem_of_known hi hr h p⟩
  case instruction =>
    intro toAll b rest i h
    rw [unknownForm_of_decodeInstruction h]
    have hb : b.toNat < 256 := b.isLt
    simp only [ne_eq, ← BitVec.toNat_inj, BitVec.reduceToNat]
    by_cases hz : b.toNat = 0
    · simp [hz]
    by_cases hl : b.toNat = 63
    · simp [hl]
    · simp [hz, hl]
      omega
  case address =>
    intro bs i h
    cases h
    exact unknownForm_decodeAddress bs
  case reported =>
    intro i s hi
    rw [exec_of_unknownForm hi, reportUnknown_eq]

/-! ## The step and the loop -/

/-- With a payload in hand the step is the loop and then the end of the step. -/
theorem step_of_fetch {s : State} {i : Instr} (hs : s.ciPhase ≠ .idle) (hf : s.fetch = some i) :
    step s = andThen (exec i s) fun t =>
      andThen (interpretLoop s.ciPayload.length t) fun u => .next (endStep u) := by
  rw [step, if_neg hs, finishInterpretation, runInterpreter, interpretLoop_some hf, andThen_assoc]

/-- Settles O22: in both phases the form the bytes decode to is the one fetched. -/
theorem stepRunsTheDecodedForm : Obligations.StepRunsTheDecodedForm := by
  constructor
  · intro s i hs hd
    refine step_of_fetch (by simp [hs]) ?_
    rw [fetch_address hs, Except.ok.inj hd]
  · intro s i hs hd
    refine step_of_fetch (by simp [hs]) ?_
    rw [fetch_instruction hs, show decodeInstruction _ _ = .ok i from hd]
    rfl

/-- In the loop, the fetched form is the one its bytes decode to, and these stand under the cursor. -/
theorem fetch_instruction_encode {s : State} {i : Instr} (hs : s.ciPhase = .instruction) (hf : s.fetch = some i) :
    i.isAddress = false ∧ s.cur + (encode i).length ≤ s.ciPayload.length := by
  rw [fetch_instruction hs] at hf
  cases hd : decodeInstruction (decide (s.tgt = .all)) (s.ciPayload.drop s.cur) with
  | error e => rw [hd] at hf; cases hf
  | ok j =>
    rw [hd] at hf
    cases hf
    have ha := decodeInstruction_isAddress hd
    obtain ⟨-, tail, hbs, -⟩ := decodeInstruction_wellFormed hd
    have hlen := congrArg List.length hbs
    have hpos := List.length_pos_iff.2 (encode_instruction_ne_nil ha)
    rw [List.length_drop, List.length_append] at hlen
    exact ⟨ha, by omega⟩

/-- Settles O27: the bytes passed are bytes of the payload, and there is at least one. -/
theorem cursorMovesForwardInsideThePayload : Obligations.CursorMovesForwardInsideThePayload := by
  refine ⟨fun s t i hs hf h => ?_, fun _ => fetch_at_end⟩
  obtain ⟨ha, hlen⟩ := fetch_instruction_encode hs hf
  have hpos := List.length_pos_iff.2 (encode_instruction_ne_nil ha)
  rcases exec_instruction_advances ha s with ⟨r, -, he⟩ | he <;> cases h.symm.trans he
  · exact ⟨hlen, .inl (Nat.lt_add_of_pos_right hpos)⟩
  · exact ⟨Nat.le_trans (Nat.le_add_right _ _) hlen, .inr (fetch_idle rfl)⟩

end Sys2Proof.Machine
end

section
/-! The whole interpretation (44_command_interpreter.md R190 to R215): a command list runs its forms, and a payload gives
the results that the rules give its bytes. -/

namespace Sys2Proof.Machine

/-! ## A command list runs its forms -/

/-- In the loop, under the target the level says, the forms whose bytes stand from the cursor to the payload's end are
run one after the other. -/
theorem interpretLoop_eq_execAll {toAll : Bool} {is : List Instr} {n : Nat} {s : State}
    (his : ∀ i ∈ is, WellFormed (.instruction toAll) i = true ∧ i.takesAll = false)
    (hs : s.ciPhase = .instruction) (htgt : s.tgt = .all ↔ toAll = true)
    (hbs : s.ciPayload.drop s.cur = is.flatMap encode) (hn : is.length ≤ n) :
    interpretLoop n s = execAll is s := by
  induction is generalizing n s with
  | nil =>
    have hf : s.fetch = none := fetch_at_end hs (List.drop_eq_nil_iff.1 hbs)
    exact interpretLoop_none hf n
  | cons i is ih =>
    obtain ⟨hw, hk⟩ := his i (.head is)
    rw [List.flatMap_cons] at hbs
    have hdec := decodeInstruction_encode (tail := is.flatMap encode) hw (by simp [hk])
    have hf : s.fetch = some i := by
      rw [fetch_instruction hs, hbs, show decide (s.tgt = .all) = toAll by cases toAll <;> simp [htgt], hdec]
      rfl
    have hreset : i = .resetAll → s.tgt = .all := by
      rintro rfl
      exact htgt.2 hw
    obtain ⟨r, -, he⟩ := exec_of_known_instruction (decodeInstruction_isAddress hdec) hk hreset
    obtain ⟨n, rfl⟩ := Nat.exists_eq_add_of_le' hn
    rw [List.length_cons, ← Nat.add_assoc, interpretLoop_some hf, execAll, he, andThen_next, andThen_next]
    refine ih (fun j hj => his j (.tail i hj)) hs htgt ?_ (Nat.le_add_left _ _)
    show s.ciPayload.drop (s.cur + (encode i).length) = _
    rw [← List.drop_drop, hbs, List.drop_left]

theorem length_le_length_flatMap_encode {toAll : Bool} {is : List Instr}
    (his : ∀ i ∈ is, WellFormed (.instruction toAll) i = true ∧ i.takesAll = false) :
    is.length ≤ (is.flatMap encode).length := by
  induction is with
  | nil => exact Nat.zero_le _
  | cons i is ih =>
    obtain ⟨hw, hk⟩ := his i (.head is)
    have ha := decodeInstruction_isAddress (decodeInstruction_encode (tail := []) hw fun _ => rfl)
    have hpos := List.length_pos_iff.2 (encode_instruction_ne_nil ha)
    have htail := ih fun j hj => his j (.tail i hj)
    rw [List.flatMap_cons, List.length_append, List.length_cons]
    omega

/-- Settles O24: the address form gives the target and stands before the forms' bytes, which the loop runs. -/
theorem encodedCommandListRunsItsForms : Obligations.EncodedCommandListRunsItsForms := by
  intro a is toAll s hw ht htoAll his
  have hdec : decodeAddress (payloadOf a is) = a := decodeAddress_encode hw (by simp [ht])
  have ha : a.isAddress = true := hdec ▸ decodeAddress_isAddress _
  rw [interpretPayload_eq, hdec, execAll, exec_of_target_form ha ht, andThen_next, andThen_next]
  refine interpretLoop_eq_execAll his rfl ((targetOf_eq_all_iff ha ht).trans htoAll.symm) List.drop_left ?_
  have hlen := length_le_length_flatMap_encode his
  rw [payloadOf, List.length_append]
  omega

/-- Settles O25: after the address form the cursor is at the payload's end, where the loop fetches nothing. -/
theorem addressOnlyPayloadGivesNoResult : Obligations.AddressOnlyPayloadGivesNoResult := by
  intro a s hw ht
  have hdec : decodeAddress (encode a) = a := by
    simpa using decodeAddress_encode (tail := []) hw fun _ => rfl
  have ha : a.isAddress = true := hdec ▸ decodeAddress_isAddress _
  refine ⟨targetOf a, ?_, ?broadcast, ?long, ?short⟩
  · rw [interpretPayload_eq, hdec, exec_of_target_form ha ht, andThen_next,
      interpretLoop_none (fetch_at_end rfl (Nat.le_refl _))]
    rfl
  case broadcast => rintro rfl; rfl
  case long => rintro h l rfl; exact ⟨longAddress h l, toNat_longAddress h l, rfl⟩
  case short => rintro x rfl; rfl

/-! ## The results of a payload -/

/-- The speed value of a byte, by numbers (R203). -/
theorem speed28Value_of_byte (b : Byte) :
    speed28Value (b.bit 4) (b.slice 0 4) = b.toNat % 16 * 2 + b.toNat / 16 % 2 := by
  revert b; decide

/-- What one byte in the loop does is what its number says (R203 to R208). -/
theorem exec_decodeInstrByte (b : Byte) (rest : List Byte) (s : State) :
    exec (decodeInstrByte (decide (s.tgt = .all)) b rest) s =
      .next ((byteResult s.tgt b).elim (reportUnknown s) fun r => report r 1 s) := by
  have hranges : (0x40 ≤ b.toNat ∧ b.toNat ≤ 0x7F) ∨ (0x80 ≤ b.toNat ∧ b.toNat ≤ 0x9F) ∨
      (0xA0 ≤ b.toNat ∧ b.toNat ≤ 0xAF) ∨ (0xB0 ≤ b.toNat ∧ b.toNat ≤ 0xBF) ∨
      (b.toNat < 0x40 ∨ 0xC0 ≤ b.toNat) := by omega
  rcases hranges with ⟨hlo, hhi⟩ | ⟨hlo, hhi⟩ | ⟨hlo, hhi⟩ | ⟨hlo, hhi⟩ | hout
  · rw [decodeInstrByte_speed28 _ _ hlo hhi, byteResult, if_pos (by omega), ← speed28Value_of_byte]
    rfl
  · rw [decodeInstrByte_fg1 _ _ hlo hhi, byteResult, if_neg (by omega), if_pos (by omega)]
    rfl
  · rw [decodeInstrByte_fg2Lo _ _ hlo hhi, byteResult, if_neg (by omega), if_neg (by omega), if_pos (by omega)]
    rfl
  · rw [decodeInstrByte_fg2Hi _ _ hlo hhi, byteResult, if_neg (by omega), if_neg (by omega), if_neg (by omega),
      if_pos (by omega)]
    rfl
  · rw [byteResult, if_neg (by omega), if_neg (by omega), if_neg (by omega), if_neg (by omega)]
    by_cases hreset : s.tgt = .all ∧ b = 0x00#8
    · obtain ⟨htgt, rfl⟩ := hreset
      rw [htgt, if_pos ⟨rfl, rfl⟩, decide_eq_true rfl, decodeInstrByte_resetAll, execResetAll_of_all htgt]
      rfl
    · rw [if_neg hreset, decodeInstrByte_unknown rest hout fun ht hb => hreset ⟨of_decide_eq_true ht, hb⟩]
      rfl

/-- One turn of the loop on a byte that begins no SPEED128. -/
theorem interpretLoop_byte {n : Nat} {b : Byte} {rest : List Byte} {s : State} (hs : s.ciPhase = .instruction)
    (hbs : s.ciPayload.drop s.cur = b :: rest) (hlast : b = 0x3F#8 → rest = []) :
    interpretLoop (n + 1) s =
      (byteResult s.tgt b).elim (.next (reportUnknown s)) fun r => interpretLoop n (report r 1 s) := by
  have hf : s.fetch = some (decodeInstrByte (decide (s.tgt = .all)) b rest) := by
    rw [fetch_instruction hs, hbs, decodeInstruction_of_not_speed128 hlast]
    rfl
  rw [interpretLoop_some hf, exec_decodeInstrByte]
  cases byteResult s.tgt b with
  | none => exact interpretLoop_none (fetch_idle rfl) n
  | some r => rfl

/-- The fields of a speed byte, by numbers (R202). -/
theorem speed128_of_byte (d : Byte) :
    directionOf (d.bit 7) = (if 128 ≤ d.toNat then .fwd else .rev) ∧ (d.slice 0 7).toNat = d.toNat % 128 := by
  revert d; decide

/-- One turn of the loop on a SPEED128. -/
theorem interpretLoop_speed128 {n : Nat} {d : Byte} {rest : List Byte} {s : State} (hs : s.ciPhase = .instruction)
    (hbs : s.ciPayload.drop s.cur = 0x3F#8 :: d :: rest) :
    interpretLoop (n + 1) s =
      interpretLoop n (report (.speed128 s.tgt (if 128 ≤ d.toNat then .fwd else .rev) (speed128Of (d.toNat % 128))) 2 s) := by
  have hf : s.fetch = some (.speed128 (d.bit 7) (d.slice 0 7)) := by
    rw [fetch_instruction hs, hbs, decodeInstruction_speed128]
    rfl
  obtain ⟨hdir, hval⟩ := speed128_of_byte d
  rw [interpretLoop_some hf, ← hdir, ← hval]
  rfl

/-- The bytes under the cursor after a report are those after the bytes it passed. -/
theorem drop_report {r : Result} {bs rest : List Byte} {s : State} (h : s.ciPayload.drop s.cur = bs ++ rest) :
    (report r bs.length s).ciPayload.drop (report r bs.length s).cur = rest := by
  show s.ciPayload.drop (s.cur + bs.length) = rest
  rw [← List.drop_drop, h, List.drop_left]

/-- The loop over the bytes from the cursor on gives the results the rules give these bytes. -/
theorem interpretLoop_instrResults {payload bs : List Byte} {tgt : Target} {n : Nat} {s : State}
    (hs : s.ciPhase = .instruction) (hp : s.ciPayload = payload) (ht : s.tgt = tgt)
    (hbs : s.ciPayload.drop s.cur = bs) (hn : bs.length ≤ n) :
    ∃ t, interpretLoop n s = .next t ∧ ReportsOnly (instrResults payload tgt bs) s t := by
  fun_induction instrResults payload tgt bs generalizing n s with
  | case1 => exact ⟨s, interpretLoop_none (fetch_at_end hs (List.drop_eq_nil_iff.1 hbs)) n, .refl s⟩
  | case2 b r hr =>
    obtain ⟨n, rfl⟩ := Nat.exists_eq_add_of_le' hn
    refine ⟨report r 1 s, ?_, report_reportsOnly r 1 s⟩
    have hend : (report r 1 s).fetch = none :=
      fetch_at_end hs (List.drop_eq_nil_iff.1 (drop_report (bs := [b]) hbs))
    rw [List.length_singleton, interpretLoop_byte hs hbs fun _ => rfl, ht, hr]
    exact interpretLoop_none hend n
  | case3 b hr =>
    obtain ⟨n, rfl⟩ := Nat.exists_eq_add_of_le' hn
    subst hp
    refine ⟨reportUnknown s, ?_, reportUnknown_reportsOnly s⟩
    rw [List.length_singleton, interpretLoop_byte hs hbs fun _ => rfl, ht, hr]
    rfl
  | case4 d bs ih =>
    obtain ⟨n, rfl⟩ := Nat.exists_eq_add_of_le' hn
    subst ht
    obtain ⟨t, hl, hrep⟩ := ih (s := report _ 2 s) (n := n + bs.length + 1) hs hp rfl
      (drop_report (bs := [0x3F#8, d]) hbs) (by omega)
    exact ⟨t, (interpretLoop_speed128 hs hbs).trans hl, (report_reportsOnly _ 2 s).trans hrep⟩
  | case5 b d bs hb r hr ih =>
    obtain ⟨n, rfl⟩ := Nat.exists_eq_add_of_le' hn
    subst ht
    obtain ⟨t, hl, hrep⟩ := ih (s := report r 1 s) (n := n + (d :: bs).length) hs hp rfl
      (drop_report (bs := [b]) hbs) (Nat.le_add_left _ _)
    refine ⟨t, ?_, (report_reportsOnly r 1 s).trans hrep⟩
    rw [List.length_cons, ← Nat.add_assoc, interpretLoop_byte hs hbs (absurd · hb), hr]
    exact hl
  | case6 b d bs hb hr =>
    obtain ⟨n, rfl⟩ := Nat.exists_eq_add_of_le' hn
    subst hp ht
    refine ⟨reportUnknown s, ?_, reportUnknown_reportsOnly s⟩
    rw [List.length_cons, ← Nat.add_assoc, interpretLoop_byte hs hbs (absurd · hb), hr]
    rfl

/-- A payload whose address form gives a target runs the loop from the cursor on. -/
theorem interpretPayload_of_target {p : List Byte} {tgt : Target} {c : Nat} {s : State}
    (he : exec (decodeAddress p) (enterInterpreter p s) = .next (setTarget tgt c (enterInterpreter p s))) :
    ∃ t, interpretPayload p s = .next t ∧ ReportsOnly (instrResults p tgt (p.drop c)) (enterInterpreter p s) t := by
  obtain ⟨t, hl, hr⟩ := interpretLoop_instrResults (s := setTarget tgt c (enterInterpreter p s)) (n := p.length)
    rfl rfl rfl rfl (List.drop_sublist c p).length_le
  exact ⟨t, by rw [interpretPayload_eq, he]; exact hl, (setTarget_reportsOnly tgt c _).trans hr⟩

/-- A payload whose address form stands for an unknown encoding is reported, and that is all. -/
theorem interpretPayload_of_unknown {p : List Byte} (s : State) (hu : unknownForm (decodeAddress p) = true) :
    ∃ t, interpretPayload p s = .next t ∧ ReportsOnly [.unknownPacket p] (enterInterpreter p s) t := by
  refine ⟨reportUnknown (enterInterpreter p s), ?_, reportUnknown_reportsOnly _⟩
  rw [interpretPayload_eq, exec_of_unknownForm hu]
  exact interpretLoop_none (fetch_idle rfl) _

/-- The two target addresses, by numbers (R195, R197). -/
theorem longAddress_of_byte {b : Byte} (l : Byte) (hlo : 0xC0 ≤ b.toNat) :
    longAddress (b.slice 0 6) l = BitVec.ofNat 14 ((b.toNat - 192) * 256 + l.toNat) := by
  have hb : (b.slice 0 6).toNat = b.toNat - 192 := by
    revert b; decide
  apply BitVec.eq_of_toNat_eq
  rw [toNat_longAddress, hb, BitVec.toNat_ofNat, Nat.mod_eq_of_lt (by omega)]

theorem shortAddress_of_byte {b : Byte} (hhi : b.toNat ≤ 0x7F) : b.slice 0 7 = BitVec.ofNat 7 b.toNat := by
  apply BitVec.eq_of_toNat_eq
  rw [toNat_slice_zero_seven hhi, BitVec.toNat_ofNat, Nat.mod_eq_of_lt (by omega)]

/-- Every payload's interpretation comes to its end with the results the rules give it. -/
theorem interpretPayload_results (p : List Byte) (s : State) :
    ∃ t, interpretPayload p s = .next t ∧ ReportsOnly (payloadResults p) (enterInterpreter p s) t := by
  rcases decodeAddress_ranges p with ⟨rfl, e⟩ | ⟨rest, rfl, e⟩ | ⟨rfl, e⟩ | ⟨rest, rfl, hr, e⟩ |
    ⟨b, l, rest, rfl, hlo, hhi, e⟩ | ⟨b, rfl, hlo, hhi, e⟩ | ⟨b, rest, rfl, hlo, hhi, e⟩ | ⟨b, rest, rfl, hlo, hhi, e⟩
  · exact interpretPayload_of_unknown s (by rw [e]; rfl)
  · exact interpretPayload_of_target (tgt := .all) (c := 1) (by rw [e]; rfl)
  · refine ⟨stopInterpreting (emit (.result .idle) (enterInterpreter _ s)), ?_, rfl⟩
    rw [interpretPayload_eq, e]
    exact interpretLoop_none (fetch_idle rfl) _
  · have h := interpretPayload_of_unknown s (p := 0xFF#8 :: rest) (by rw [e]; rfl)
    simpa [payloadResults, hr] using h
  · have h := interpretPayload_of_target (p := b :: l :: rest) (s := s) (c := 2) (by rw [e]; rfl)
    rw [longAddress_of_byte l hlo] at h
    simp only [payloadResults]
    rwa [if_neg (by omega), if_neg (by omega), if_pos hlo]
  · have h := interpretPayload_of_unknown s (p := [b]) (by rw [e]; rfl)
    simp only [payloadResults]
    rwa [if_neg (by omega), if_neg (by omega), if_pos hlo]
  · have h := interpretPayload_of_unknown s (p := b :: rest) (by rw [e]; rfl)
    rw [payloadResults.eq_def]
    dsimp only
    rwa [if_neg (by omega), if_neg (by omega), if_neg (by omega), if_pos hlo]
  · have h := interpretPayload_of_target (p := b :: rest) (s := s) (c := 1) (by rw [e]; rfl)
    rw [shortAddress_of_byte hhi] at h
    rw [payloadResults.eq_def]
    dsimp only
    rwa [if_neg (by omega), if_neg (by omega), if_neg (by omega), if_neg (by omega)]

/-- Settles O23: what only reports is, with the step's own registers gone, the results appended. -/
theorem interpreterGivesExactlyTheRulesResults : Obligations.InterpreterGivesExactlyTheRulesResults := by
  intro payload s
  obtain ⟨t, ht, hr⟩ := interpretPayload_results payload s
  rw [ht, andThen_next, hr.endStep]
  rfl

/-! ## The UnknownPacket of a payload -/

/-- A result of one byte carries the target, so it is no UnknownPacket. -/
theorem byteResult_target {tgt : Target} {b : Byte} {r : Result} (h : byteResult tgt b = some r) :
    r.target? = some tgt := by
  unfold byteResult at h
  split at h
  · cases h; rfl
  split at h
  · cases h; rfl
  split at h
  · cases h; rfl
  split at h
  · cases h; rfl
  split at h
  · rename_i hreset; cases h; exact congrArg some hreset.1.symm
  · cases h

/-- Results none of which is an UnknownPacket, and after them the payload's UnknownPacket or nothing. -/
def UnknownPacketLast (payload : List Byte) (rs : List Result) : Prop :=
  ∃ known : List Result, (∀ p, .unknownPacket p ∉ known) ∧ (rs = known ∨ rs = known ++ [.unknownPacket payload])

theorem UnknownPacketLast.nil (payload : List Byte) : UnknownPacketLast payload [] :=
  ⟨[], fun _ => List.not_mem_nil, .inl rfl⟩

theorem UnknownPacketLast.unknown (payload : List Byte) : UnknownPacketLast payload [.unknownPacket payload] :=
  ⟨[], fun _ => List.not_mem_nil, .inr rfl⟩

theorem UnknownPacketLast.cons {payload : List Byte} {rs : List Result} {r : Result}
    (hr : ∀ p, r ≠ .unknownPacket p) (h : UnknownPacketLast payload rs) : UnknownPacketLast payload (r :: rs) := by
  obtain ⟨known, hk, hrs⟩ := h
  refine ⟨r :: known, fun p hp => ?_, hrs.imp (congrArg (r :: ·)) (congrArg (r :: ·))⟩
  rcases List.mem_cons.1 hp with h | h
  · exact hr p h.symm
  · exact hk p h

theorem instrResults_unknownPacketLast (payload : List Byte) (tgt : Target) (bs : List Byte) :
    UnknownPacketLast payload (instrResults payload tgt bs) := by
  have hbyte {b : Byte} {r : Result} (hr : byteResult tgt b = some r) (p : List Byte) : r ≠ .unknownPacket p := by
    rintro rfl
    cases byteResult_target hr
  fun_induction instrResults payload tgt bs with
  | case1 => exact .nil payload
  | case2 b r hr => exact .cons (hbyte hr) (.nil payload)
  | case3 => exact .unknown payload
  | case4 d bs ih => exact .cons nofun ih
  | case5 b d bs hb r hr ih => exact .cons (hbyte hr) ih
  | case6 => exact .unknown payload

theorem payloadResults_unknownPacketLast (p : List Byte) : UnknownPacketLast p (payloadResults p) := by
  fun_cases payloadResults p with
  | case1 => exact .unknown []
  | case2 => exact instrResults_unknownPacketLast ..
  | case3 => exact .cons nofun (.nil _)
  | case4 => exact .unknown _
  | case5 => exact instrResults_unknownPacketLast ..
  | case6 => exact .unknown _
  | case7 => exact .unknown _
  | case8 => exact instrResults_unknownPacketLast ..

/-- An UnknownPacket in such results is the payload's and the last. -/
theorem UnknownPacketLast.eq_last {payload p : List Byte} {pre post : List Result}
    (h : UnknownPacketLast payload (pre ++ .unknownPacket p :: post)) :
    p = payload ∧ post = [] ∧ ∀ p', .unknownPacket p' ∉ pre := by
  obtain ⟨known, hk, hrs | hrs⟩ := h
  · exact absurd (hrs ▸ List.mem_append_right pre (.head post)) (hk p)
  · rcases List.eq_nil_or_concat post with rfl | ⟨post, r, rfl⟩
    · obtain ⟨rfl, hp⟩ := List.append_inj' hrs rfl
      cases hp
      exact ⟨rfl, rfl, hk⟩
    · rw [List.concat_eq_append, ← List.cons_append, ← List.append_assoc] at hrs
      obtain ⟨rfl, -⟩ := List.append_inj' hrs rfl
      exact absurd (List.mem_append_right pre (.head post)) (hk p)

/-- Settles O53: the results are those of the rules, which report the payload only where they stop. -/
theorem unknownPacketIsThePacketsLastResult : Obligations.UnknownPacketIsThePacketsLastResult := by
  intro payload s
  obtain ⟨t, ht, hr⟩ := interpretPayload_results payload s
  refine ⟨t, payloadResults payload, ht, hr.outEvents, fun pre post p h => ?_⟩
  exact (h ▸ payloadResults_unknownPacketLast payload).eq_last

end Sys2Proof.Machine
end

section
/-! The Bit Classifier (41_bit_classifier.md): its thresholds as floors of exact quotients, where the One window meets the
long region, and the events of each bit. -/

namespace Sys2Proof.Machine

/-! ## Thresholds -/

/-- The floor of a natural number of microseconds by a rational timebase is the division of naturals. -/
theorem floor_div_timebase (c n d : Nat) : ⌊(c : ℚ) / ((n : ℚ) / (d : ℚ))⌋ = ((c * d / n : Nat) : ℤ) := by
  rw [div_div_eq_mul_div, ← Nat.cast_mul, Rat.floor_natCast_div_natCast, Int.natCast_div]

/-- A bound on the timebase from below, as an inequality of naturals. -/
theorem div_le_timebase_iff {a k n d : Nat} (hk : 0 < k) (hd : 0 < d) :
    (a : ℚ) / (k : ℚ) ≤ (n : ℚ) / (d : ℚ) ↔ a * d ≤ k * n := by
  rw [div_le_div_iff₀ (Nat.cast_pos.2 hk) (Nat.cast_pos.2 hd), mul_comm (n : ℚ)]
  exact_mod_cast Iff.rfl

/-- A bound on the timebase from above, as an inequality of naturals. -/
theorem timebase_le_iff {a n d : Nat} (hd : 0 < d) : (n : ℚ) / (d : ℚ) ≤ (a : ℚ) ↔ n ≤ a * d := by
  rw [div_le_iff₀ (Nat.cast_pos.2 hd)]
  exact_mod_cast Iff.rfl

theorem isLong_iff_le_mul_timebase {s : State} (hd : 1 ≤ s.tbDen) (k : Nat) :
    s.isLong k = true ↔ (95 : ℚ) ≤ k * ((s.tbNum : ℚ) / (s.tbDen : ℚ)) := by
  rw [isLong_eq_true, ← mul_div_assoc, le_div_iff₀ (Nat.cast_pos.2 hd)]
  exact_mod_cast Iff.rfl

/-- Settles O35: the three floors are one lemma, the exact product the fourth clause. -/
theorem thresholdsAreExactFloors : Obligations.ThresholdsAreExactFloors := by
  rintro s - hd tb rfl
  refine ⟨(floor_div_timebase 52 _ _).symm, ?high, ?tolerance, isLong_iff_le_mul_timebase hd⟩
  case high =>
    rw [oneHi_eq, Nat.cast_add]
    exact congrArg (· + 1) (floor_div_timebase 64 _ _).symm
  case tolerance =>
    rw [misTol_eq, Nat.cast_add]
    exact congrArg (· + 2) (floor_div_timebase 6 _ _).symm

/-- A longer duration is long where a shorter one is. -/
theorem isLong_mono {s : State} {h k : Nat} (hk : h ≤ k) (hl : s.isLong h = true) : s.isLong k = true :=
  isLong_eq_true.2 (Nat.le_trans (isLong_eq_true.1 hl) (Nat.mul_le_mul_right _ hk))

theorem oneLo_le_oneHi (s : State) : s.oneLo ≤ s.oneHi :=
  Nat.le_succ_of_le (Nat.div_le_div_right (Nat.mul_le_mul_right _ (by decide)))

/-- The window meets the long region if and only if its upper end is long. -/
theorem exists_one_and_long_iff (s : State) :
    (∃ h, s.oneLo ≤ h ∧ h ≤ s.oneHi ∧ s.isLong h = true) ↔ s.isLong s.oneHi = true :=
  ⟨fun ⟨_, _, hhi, hl⟩ => isLong_mono hhi hl, fun hl => ⟨_, oneLo_le_oneHi s, le_rfl, hl⟩⟩

/-- The upper end of the window is long exactly for three ranges of the timebase: with `k = floor(64 / TB)` it is long if
`95 <= (k + 1) * TB`, which together with `k * TB <= 64` leaves `k` no value above 2. -/
theorem isLong_oneHi_iff {s : State} (hn : 1 ≤ s.tbNum) :
    s.isLong s.oneHi = true ↔
      (95 * s.tbDen ≤ 3 * s.tbNum ∧ s.tbNum ≤ 32 * s.tbDen) ∨
      (95 * s.tbDen ≤ 2 * s.tbNum ∧ s.tbNum ≤ 64 * s.tbDen) ∨ 95 * s.tbDen ≤ s.tbNum := by
  rw [isLong_eq_true, oneHi_eq]
  have hlo : 64 * s.tbDen / s.tbNum * s.tbNum ≤ 64 * s.tbDen := Nat.div_mul_le_self _ _
  have hhi : 64 * s.tbDen < (64 * s.tbDen / s.tbNum + 1) * s.tbNum := by
    exact (Nat.lt_mul_div_succ _ hn).trans_eq (Nat.mul_comm _ _)
  generalize 64 * s.tbDen / s.tbNum = k at hlo hhi ⊢
  rcases k with _ | _ | _ | k
  · omega
  · omega
  · omega
  · have hk : (k + 3) * s.tbNum = k * s.tbNum + 3 * s.tbNum := Nat.add_mul _ _ _
    have hk' : (k + 3 + 1) * s.tbNum = k * s.tbNum + 4 * s.tbNum := Nat.add_mul k 4 _
    rw [show k + 1 + 1 + 1 = k + 3 from rfl] at hlo hhi ⊢
    rw [hk] at hlo
    rw [hk'] at hhi ⊢
    omega

/-- Settles O37: the window's upper end decides, and the bounds on TB are inequalities of naturals. -/
theorem oneWindowMeetsLongRegionExactly : Obligations.OneWindowMeetsLongRegionExactly := by
  rintro s hn hd tb rfl
  have h3 := div_le_timebase_iff (a := 95) (k := 3) (n := s.tbNum) (by decide) hd
  have h2 := div_le_timebase_iff (a := 95) (k := 2) (n := s.tbNum) (by decide) hd
  have h1 := div_le_timebase_iff (a := 95) (k := 1) (n := s.tbNum) (by decide) hd
  have h32 := timebase_le_iff (a := 32) (n := s.tbNum) hd
  have h64 := timebase_le_iff (a := 64) (n := s.tbNum) hd
  push_cast at h1 h2 h3 h32 h64
  rw [div_one, Nat.one_mul] at h1
  rw [exists_one_and_long_iff, isLong_oneHi_iff hn, h3, h2, h1, h32, h64]

/-! ## The events of each bit -/

/-- The tolerance is on the distance, on whichever side it lies. -/
theorem mismatched_iff {s : State} {h l : Nat} :
    s.mismatched h l = true ↔ s.misTol < h - l ∨ s.misTol < l - h := by
  rw [mismatched_eq_true]; omega

theorem classifierEvents_one {s : State} {h l : Nat} (hw : s.oneLo ≤ h ∧ h ≤ s.oneHi) :
    classifierEvents s h l =
      (if s.misTol < h - l ∨ s.misTol < l - h then [.diag (.mismatchedPair h l)] else []) ++
        [.stat (.oneWidth { num := h * s.tbNum, den := s.tbDen }), .tap (.bit .one)] := by
  simp only [classifierEvents, classify_one.2 hw, mismatched_iff]
  rfl

theorem classifierEvents_zero {s : State} {h l : Nat} (hw : ¬ (s.oneLo ≤ h ∧ h ≤ s.oneHi))
    (hl : s.isLong h = true ∧ s.isLong l = true) :
    classifierEvents s h l =
      [.stat (.zeroWidth { num := h * s.tbNum, den := s.tbDen }), .tap (.bit .zero)] := by
  simp only [classifierEvents, classify_zero.2 ⟨hw, hl⟩]
  rfl

theorem classifierEvents_unknown {s : State} {h l : Nat} (hw : ¬ (s.oneLo ≤ h ∧ h ≤ s.oneHi))
    (hl : ¬ (s.isLong h = true ∧ s.isLong l = true)) :
    classifierEvents s h l = [.diag (.unknownBit h l), .tap (.bit .unknown)] := by
  simp only [classifierEvents, classify_unknown.2 ⟨hw, hl⟩]

/-- Settles O36: the classifier appends its events and gives its bit, case by case. -/
theorem bitClassifierEvents : Obligations.BitClassifierEvents := by
  intro h l s
  refine ⟨fun hw => ?_, fun hw hh hl => ?_, fun hw hl => ?_⟩ <;> rw [bcClassify_eq]
  · rw [classifierEvents_one hw, classify_one.2 hw, List.append_assoc]
  · rw [classifierEvents_zero hw ⟨hh, hl⟩, classify_zero.2 ⟨hw, hh, hl⟩]
  · rw [classifierEvents_unknown hw hl, classify_unknown.2 ⟨hw, hl⟩]

end Sys2Proof.Machine
end

section
/-! The Frame Decoder in SEEK and over a sequence of bits (42_frame_decoder.md R151 to R163, 30_encoding.md R82). -/

namespace Sys2Proof.Machine

/-! ## The transitions in SEEK -/

theorem fdBit_seek_one {s : State} (hs : s.fdState = .seek) :
    fdBit .one s = ({ s with fdCnt := s.fdCnt + 1 }, none) := by
  simpa [hs] using fdBit_cases .one s

theorem fdBit_seek_garbage {b : BitVal} {s : State} (hs : s.fdState = .seek) (hb : b ≠ .one) (hc : s.fdCnt < 10) :
    fdBit b s = ({ s with
      fdCnt := 0, fdGlog := true
      outEvents := s.outEvents ++ (if s.fdGlog = true then [] else [.diag .garbage]) }, none) := by
  have h := fdBit_cases b s
  cases hg : s.fdGlog <;> simpa [hs, hb, hc, Nat.not_le.2 hc, hg] using h

theorem fdBit_seek_start {s : State} (hs : s.fdState = .seek) (hc : 10 ≤ s.fdCnt) :
    fdBit .zero s = ({ s with
      fdState := .read, fdCnt := 0, fdByte := 0#8, fdNbits := 0, fdPkt := []
      outEvents := s.outEvents ++ [.stat (.preambleLen s.fdCnt)] }, none) := by
  simpa [hs, hc, Nat.not_lt.2 hc] using fdBit_cases .zero s

/-- An Unknown in place of the start bit: what resynchronisation clears is clear already in SEEK (R162 a). -/
theorem fdBit_seek_corrupt_start {s : State} (hs : s.fdState = .seek) (hc : 10 ≤ s.fdCnt)
    (hp : s.fdPkt = []) (hb : s.fdByte = 0#8) (hn : s.fdNbits = 0) :
    fdBit .unknown s = ({ s with fdCnt := 0, outEvents := s.outEvents ++ [.diag .corruptPacket] }, none) := by
  have h : fdBit .unknown s = ({ s with
      fdState := .seek, fdCnt := 0, fdByte := 0#8, fdNbits := 0, fdPkt := []
      outEvents := s.outEvents ++ [.diag .corruptPacket] }, none) := by
    simpa [hs, hc, Nat.not_lt.2 hc] using fdBit_cases .unknown s
  rw [h, ← hs, ← hp, ← hb]
  simp only [hn]

/-- Settles O38: the four entries of the table's row SEEK. -/
theorem seekTransitions : Obligations.SeekTransitions := by
  intro s hs
  refine ⟨fdBit_seek_one hs, fun hc b hb => fdBit_seek_garbage hs ?_ hc, fdBit_seek_start hs,
    fdBit_seek_corrupt_start hs⟩
  rcases hb with rfl | rfl <;> exact nofun

theorem fdEnd_of_inside {s : State} (h : s.fdState = .read ∨ 0 < s.fdCnt) :
    fdEnd s = { s with outEvents := s.outEvents ++ [.diag .partialAtEnd] } := by
  rw [fdEnd_eq, if_pos h]

theorem fdEnd_of_outside {s : State} (h : ¬ (s.fdState = .read ∨ 0 < s.fdCnt)) : fdEnd s = s := if_neg h

/-- Settles O42: the two cases of FD.end. -/
theorem endInsidePreambleOrPacketIsReported : Obligations.EndInsidePreambleOrPacketIsReported :=
  fun _ => ⟨fdEnd_of_inside, fdEnd_of_outside⟩

/-! ## Sequences of bits -/

theorem fdBits_append (as bs : List BitVal) (s : State) :
    fdBits (as ++ bs) s = ((fdBits bs (fdBits as s).1).1, (fdBits as s).2 ++ (fdBits bs (fdBits as s).1).2) := by
  induction as generalizing s with
  | nil => rfl
  | cons b as ih => simp [fdBits, ih]

/-- Bits that complete no packet, and the bits after them. -/
theorem fdBits_append_of_nil {as : List BitVal} {s t : State} (h : fdBits as s = (t, [])) (bs : List BitVal) :
    fdBits (as ++ bs) s = fdBits bs t := by
  rw [fdBits_append, h]
  rfl

/-- A bit that completes no packet, and the bits after it. -/
theorem fdBits_cons_of_none {b : BitVal} {bs : List BitVal} {s t : State} (h : fdBit b s = (t, none)) :
    fdBits (b :: bs) s = fdBits bs t := by
  simp [fdBits, h]

/-- Ones are counted while seeking. -/
theorem fdBits_replicate_one {s : State} (hs : s.fdState = .seek) (p : Nat) :
    fdBits (List.replicate p .one) s = ({ s with fdCnt := s.fdCnt + p }, []) := by
  induction p generalizing s with
  | zero => rfl
  | succ p ih =>
    rw [List.replicate_succ, fdBits_cons_of_none (fdBit_seek_one hs), ih (s := { s with fdCnt := s.fdCnt + 1 }) hs,
      Nat.add_assoc, Nat.add_comm 1 p]

/-- Settles O41: the Ones are counted, and the Zero finds too few of them. -/
theorem shortPreambleIsGarbage : Obligations.ShortPreambleIsGarbage := by
  intro s p hs hc
  have hzero := fdBit_seek_garbage (b := .zero) (s := { s with fdCnt := s.fdCnt + p }) hs nofun hc
  rw [fdBits_append_of_nil (fdBits_replicate_one hs p), fdBits_cons_of_none hzero]
  rfl

/-- The byte in progress after one more data bit (R155). -/
def shiftIn (b : Byte) (v : Bool) : Byte := b * 2#8 + (BitVec.ofBool v).setWidth 8

/-- Data bits up to the eighth are shifted in one after the other. -/
theorem fdBits_dataBits {vs : List Bool} {s : State} (hs : s.fdState = .read) (hn : s.fdNbits + vs.length ≤ 8) :
    fdBits (vs.map dataBit) s =
      ({ s with fdByte := vs.foldl shiftIn s.fdByte, fdNbits := s.fdNbits + vs.length }, []) := by
  induction vs generalizing s with
  | nil => rfl
  | cons v vs ih =>
    rw [List.length_cons] at hn
    have hbit : fdBit (dataBit v) s = (fdReadData v s, none) := fdBit_read_data hs (by omega)
    have hrest := ih (s := fdReadData v s) hs (by show s.fdNbits + 1 + vs.length ≤ 8; omega)
    rw [List.map_cons, fdBits_cons_of_none hbit, hrest, List.length_cons, Nat.add_comm vs.length, ← Nat.add_assoc]
    rfl

/-- The eight bits of a byte, most significant first, make the byte again (R64). -/
theorem foldl_shiftIn_bits (b : Byte) :
    [b.getLsbD 7, b.getLsbD 6, b.getLsbD 5, b.getLsbD 4, b.getLsbD 3, b.getLsbD 2, b.getLsbD 1, b.getLsbD 0].foldl
      shiftIn 0#8 = b := by
  revert b; decide

/-- The data bits of a byte, from its beginning, leave the byte complete. -/
theorem fdBits_byteBits {s : State} (hs : s.fdState = .read) (hb : s.fdByte = 0#8) (hn : s.fdNbits = 0) (b : Byte) :
    fdBits (byteBits b) s = ({ s with fdByte := b, fdNbits := 8 }, []) := by
  have h := fdBits_dataBits (vs := [b.getLsbD 7, b.getLsbD 6, b.getLsbD 5, b.getLsbD 4, b.getLsbD 3, b.getLsbD 2,
    b.getLsbD 1, b.getLsbD 0]) hs (by simp [hn])
  rw [hb, hn, foldl_shiftIn_bits] at h
  exact h

/-- The bytes of a packet, from the beginning of one, complete the packet read so far with them. -/
theorem fdBits_packetBits {packet : List Byte} {s : State} (hne : packet ≠ []) (hs : s.fdState = .read)
    (hb : s.fdByte = 0#8) (hn : s.fdNbits = 0) :
    fdBits (packetBits packet) s = ({ s with
      fdState := .seek, fdCnt := 1, fdByte := 0#8, fdNbits := 0, fdPkt := []
      outEvents := s.outEvents ++ [.tap (.packet (s.fdPkt.bytes ++ packet))] }, [s.fdPkt.bytes ++ packet]) := by
  induction packet generalizing s with
  | nil => exact absurd rfl hne
  | cons b packet ih =>
    cases packet with
    | nil =>
      rw [packetBits, fdBits_append_of_nil (fdBits_byteBits hs hb hn b), fdBits,
        fdBit_read_zero_of_full (s := { s with fdByte := b, fdNbits := 8 }) hs rfl]
      rfl
    | cons c packet =>
      have hcont := fdBit_read_one_of_full (s := { s with fdByte := b, fdNbits := 8 }) hs rfl
      have hrest := ih (s := { s with fdPkt := s.fdPkt.append b, fdByte := 0#8, fdNbits := 0 }) nofun hs rfl rfl
      rw [packetBits, fdBits_append_of_nil (fdBits_byteBits hs hb hn b), fdBits_cons_of_none hcont, hrest]
      · simp
      · exact nofun

/-- Settles O40: the Ones are counted, the start bit enters READ, and the bytes complete the packet. -/
theorem framedPacketComesBackWhole : Obligations.FramedPacketComesBackWhole := by
  intro s p packet hs hc hne
  have hstart := fdBit_seek_start (s := { s with fdCnt := s.fdCnt + p }) hs hc
  rw [frameBits, fdBits_append_of_nil (fdBits_replicate_one hs p), fdBits_cons_of_none hstart,
    fdBits_packetBits hne rfl rfl rfl]
  simp

end Sys2Proof.Machine
end

section
/-! The Checksum Validator (43_checksum.md R180 to R184): the exclusive-or of a packet's bytes decides. -/

namespace Sys2Proof.Machine

/-- An exclusive-or begun with a value is the exclusive-or with that value. -/
theorem foldl_xor_eq (bs : List Byte) (a : Byte) : bs.foldl (· ^^^ ·) a = a ^^^ xorBytes bs := by
  induction bs generalizing a with
  | nil => simp [xorBytes]
  | cons b bs ih =>
    rw [xorBytes, List.foldl_cons, List.foldl_cons, ih, ih, BitVec.zero_xor, BitVec.xor_assoc]

theorem xorBytes_append (as bs : List Byte) : xorBytes (as ++ bs) = xorBytes as ^^^ xorBytes bs := by
  rw [xorBytes, List.foldl_append, foldl_xor_eq]
  rfl

@[simp] theorem xorBytes_cons (b : Byte) (bs : List Byte) : xorBytes (b :: bs) = b ^^^ xorBytes bs := by
  rw [xorBytes, List.foldl_cons, foldl_xor_eq, BitVec.zero_xor]

theorem xorBytes_concat (bs : List Byte) (c : Byte) : xorBytes (bs ++ [c]) = xorBytes bs ^^^ c := by
  rw [xorBytes_append, xorBytes_cons, show xorBytes [] = 0#8 from rfl, BitVec.xor_zero]

/-- Changing one byte changes the exclusive-or by the change. -/
theorem xorBytes_set {bs : List Byte} {k : Nat} {b m : Byte} (hb : bs[k]? = some b) :
    xorBytes (bs.set k (b ^^^ m)) = xorBytes bs ^^^ m := by
  induction bs generalizing k with
  | nil => cases hb
  | cons a bs ih =>
    cases k with
    | zero =>
      cases hb
      rw [List.set_cons_zero, xorBytes_cons, xorBytes_cons, BitVec.xor_assoc, BitVec.xor_comm m, BitVec.xor_assoc]
    | succ k => rw [List.set_cons_succ, xorBytes_cons, xorBytes_cons, ih hb, BitVec.xor_assoc]

theorem xorBytes_replicate_zero (m : Nat) : xorBytes (List.replicate m 0#8) = 0#8 := by
  induction m with
  | zero => rfl
  | succ m ih => rw [List.replicate_succ, xorBytes_cons, ih, BitVec.xor_zero]

theorem checksumComputed_concat (payload : List Byte) (c : Byte) :
    checksumComputed (payload ++ [c]) = xorBytes payload := by
  rw [checksumComputed, List.dropLast_concat]

theorem checksumReceived_concat (payload : List Byte) (c : Byte) : checksumReceived (payload ++ [c]) = c := by
  simp [checksumReceived]

/-- A packet passes if its last byte is the exclusive-or of the bytes before it (R180). -/
theorem checksumOk_concat {payload : List Byte} {c : Byte} :
    checksumOk (payload ++ [c]) = true ↔ c = xorBytes payload := by
  rw [checksumOk, checksumComputed_concat, checksumReceived_concat, beq_iff_eq, eq_comm]

/-- A packet passes if the exclusive-or of all its bytes is 0 (R184). -/
theorem checksumOk_iff {packet : List Byte} (hne : packet ≠ []) : checksumOk packet = true ↔ xorBytes packet = 0#8 := by
  obtain ⟨payload, c, rfl⟩ := (List.eq_nil_or_concat packet).resolve_left hne
  rw [List.concat_eq_append, checksumOk_concat, xorBytes_concat, BitVec.xor_eq_zero_iff, eq_comm]

/-- Settles O45: a packet passes if the exclusive-or of all its bytes is 0, and a flipped bit makes this the bit. -/
theorem checksumProperties : Obligations.ChecksumProperties := by
  refine ⟨fun payload => checksumOk_concat.2 rfl, ?flip, fun packet hne => ?fails, fun m hm => ?zeros⟩
  case flip =>
    intro packet k j b hok hk hj hb
    have hne : packet ≠ [] := by rintro rfl; cases hb
    have hbit : 1#8 <<< j ≠ 0#8 := by interval_cases j <;> decide
    rw [← Bool.not_eq_true, checksumOk_iff (by simpa using hne), xorBytes_set hb, (checksumOk_iff hne).1 hok,
      BitVec.zero_xor]
    exact hbit
  case fails => rw [← Bool.not_eq_true, checksumOk_iff hne]
  case zeros =>
    have hne : List.replicate m 0#8 ≠ [] := by rw [Ne, List.replicate_eq_nil_iff]; omega
    exact (checksumOk_iff hne).2 (xorBytes_replicate_zero m)

/-- Settles O46: the packet is split at its last byte, and the check decides between the two routes. -/
theorem checksumRoutesThePacket : Obligations.ChecksumRoutesThePacket := by
  intro payload c s
  constructor
  · intro hc
    have hok : checksumOk (payload ++ [c]) = true := checksumOk_concat.2 hc
    rw [ckPacket, ckValidate_ckOk, if_pos hok, List.dropLast_concat, ckValidate, hok]
  · intro hc
    have hok : checksumOk (payload ++ [c]) = false := (Bool.not_eq_true _).mp (mt checksumOk_concat.1 hc)
    rw [ckPacket, ckValidate_ckOk, if_neg (by simp [hok]), ckFail_eq, checksumComputed_concat, checksumReceived_concat,
      ckValidate, hok]
    rfl

end Sys2Proof.Machine
end

section
/-! What a step does to the registers one by one (70_reset_and_hazards.md R264 to R267): its end written out, the runs, the
pending high, the frame registers and the output, and the invariants that every step keeps. -/

namespace Sys2Proof.Machine

/-! ## The end of a step -/

/-- DONE after an event (R266). -/
def doneAfter : InEvent → Bool → Bool
  | .sample _, d   => d
  | .endOfInput, _ => true

/-- What the end of a step emits: in the End step, PartialAtEnd inside a preamble or a packet (R236). -/
def closingEvents : InEvent → State → List OutEvent
  | .sample _, _   => []
  | .endOfInput, s => if s.fdState = .read ∨ 0 < s.fdCnt then [.diag .partialAtEnd] else []

theorem closeStep_eq (ev : InEvent) (s : State) :
    closeStep ev s =
      { endStep s with done := doneAfter ev s.done, outEvents := s.outEvents ++ closingEvents ev s } := by
  cases ev with
  | sample v => simp [closeStep, closingEvents, doneAfter, endStep]
  | endOfInput => exact closeStep_endOfInput (.refl s)

/-- The end of a step sees only what is there after the step. -/
theorem closeStep_congr {s t : State} (h : SameAfterStep s t) (ev : InEvent) : closeStep ev t = closeStep ev s := by
  cases ev with
  | sample v => exact closeStep_sample h
  | endOfInput => rw [closeStep_endOfInput h, closeStep_endOfInput (.refl s)]

section
variable (ev : InEvent) (s : State)

@[simp] theorem closeStep_tbNum : (closeStep ev s).tbNum = s.tbNum := by rw [closeStep_eq]; rfl
@[simp] theorem closeStep_tbDen : (closeStep ev s).tbDen = s.tbDen := by rw [closeStep_eq]; rfl
@[simp] theorem closeStep_eeValid : (closeStep ev s).eeValid = s.eeValid := by rw [closeStep_eq]; rfl
@[simp] theorem closeStep_eePol : (closeStep ev s).eePol = s.eePol := by rw [closeStep_eq]; rfl
@[simp] theorem closeStep_eeDur : (closeStep ev s).eeDur = s.eeDur := by rw [closeStep_eq]; rfl
@[simp] theorem closeStep_dpPend : (closeStep ev s).dpPend = s.dpPend := by rw [closeStep_eq]; rfl
@[simp] theorem closeStep_fdState : (closeStep ev s).fdState = s.fdState := by rw [closeStep_eq]; rfl
@[simp] theorem closeStep_fdCnt : (closeStep ev s).fdCnt = s.fdCnt := by rw [closeStep_eq]; rfl
@[simp] theorem closeStep_fdByte : (closeStep ev s).fdByte = s.fdByte := by rw [closeStep_eq]; rfl
@[simp] theorem closeStep_fdNbits : (closeStep ev s).fdNbits = s.fdNbits := by rw [closeStep_eq]; rfl
@[simp] theorem closeStep_fdPkt : (closeStep ev s).fdPkt = s.fdPkt := by rw [closeStep_eq]; rfl
@[simp] theorem closeStep_fdGlog : (closeStep ev s).fdGlog = s.fdGlog := by rw [closeStep_eq]; rfl
@[simp] theorem closeStep_done : (closeStep ev s).done = doneAfter ev s.done := by rw [closeStep_eq]
@[simp] theorem closeStep_inEvents : (closeStep ev s).inEvents = s.inEvents := by rw [closeStep_eq]; rfl
@[simp] theorem closeStep_outEvents : (closeStep ev s).outEvents = s.outEvents ++ closingEvents ev s := by
  rw [closeStep_eq]

theorem closeStep_between : (closeStep ev s).Between := by
  rw [closeStep_eq]
  exact ⟨rfl, rfl, rfl, rfl, rfl⟩

theorem runsOf_closingEvents : runsOf (closingEvents ev s) = [] := by
  cases ev with
  | sample v => rfl
  | endOfInput => rw [closingEvents]; split <;> rfl

theorem garbage_notMem_closingEvents : .garbage ∉ anomaliesOf (closingEvents ev s) := by
  cases ev with
  | sample v => exact List.not_mem_nil
  | endOfInput => rw [closingEvents]; split <;> simp

end

/-! ## What a step never undoes -/

/-- Registers that are latched: the timebase is the same, FD_GLOG and EE_VALID are set if they were. -/
structure Latched (s t : State) : Prop where
  tbNum   : t.tbNum = s.tbNum
  tbDen   : t.tbDen = s.tbDen
  fdGlog  : s.fdGlog = true → t.fdGlog = true
  eeValid : s.eeValid = true → t.eeValid = true

theorem SameFrame.latched {s t : State} (h : SameFrame s t) : Latched s t :=
  ⟨h.tbNum, h.tbDen, fun hg => h.fdGlog.trans hg, h.eeValid⟩

theorem Latched.trans {s t u : State} (h : Latched s t) (h' : Latched t u) : Latched s u :=
  ⟨h'.tbNum.trans h.tbNum, h'.tbDen.trans h.tbDen, fun hg => h'.fdGlog (h.fdGlog hg), fun hv => h'.eeValid (h.eeValid hv)⟩

theorem fdBit_latched (b : BitVal) (s : State) : Latched s (fdBit b s).1 := by
  rcases fdBit_cases b s with ⟨-, -, e⟩ | ⟨-, -, -, -, e⟩ | ⟨-, -, -, -, e⟩ | ⟨-, -, -, e⟩ | ⟨-, -, e⟩ |
    ⟨v, -, -, -, e⟩ | ⟨-, -, -, e⟩ | ⟨-, -, -, e⟩ <;> rw [e]
  · exact ⟨rfl, rfl, id, id⟩
  · exact ⟨rfl, rfl, id, id⟩
  · exact ⟨rfl, rfl, fun _ => rfl, id⟩
  · exact ⟨rfl, rfl, id, id⟩
  · exact ⟨rfl, rfl, id, id⟩
  · exact ⟨rfl, rfl, id, id⟩
  · exact ⟨rfl, rfl, id, id⟩
  · exact ⟨rfl, rfl, id, id⟩

theorem feedEvent_latched {ev : InEvent} {s u : State} (hu : feedEvent ev s = .next u) : Latched s u := by
  rcases feedEvent_frame hu with h | ⟨t, p, evs, f, h, rfl, hs, -, -⟩
  · exact h.latched
  · obtain ⟨hn, hd, hg, hv⟩ := fdBit_latched (t.classify p.high p.low)
      { t with outEvents := t.outEvents ++ classifierEvents t p.high p.low }
    exact h.latched.trans
      ⟨hs.tbNum.trans hn, hs.tbDen.trans hd, fun h => hs.fdGlog.trans (hg h), fun h => hs.eeValid.trans (hv h)⟩

/-- Settles O57: the stages keep what is latched, and the end of a step sets DONE or keeps it. -/
theorem latchedBitsAndTimebaseStay : Obligations.LatchedBitsAndTimebaseStay := by
  intro s t h
  rcases step_cases h with ⟨-, rs, rfl⟩ | ⟨-, -, rfl⟩ | ⟨ev, q, -, -, -, rfl⟩ | ⟨ev, q, u, -, -, hd, -, -, hu, rfl⟩
  · exact ⟨rfl, rfl, id, id, id⟩
  · exact ⟨rfl, rfl, id, id, id⟩
  · exact ⟨rfl, rfl, id, id, id⟩
  · obtain ⟨hn, hm, hg, hv⟩ := feedEvent_latched hu
    simp only [closeStep_tbNum, closeStep_tbDen, closeStep_fdGlog, closeStep_eeValid]
    exact ⟨hn, hm, fun hd' => absurd (hd.symm.trans hd') nofun, hg, hv⟩

/-! ## The packet buffer -/

theorem fdBit_fdPkt (b : BitVal) (s : State) :
    (fdBit b s).1.fdPkt = s.fdPkt ∨ (fdBit b s).1.fdPkt = [] ∨
      (fdBit b s).1.fdPkt = s.fdPkt ++ [(s.fdPkt.length, s.fdByte)] := by
  rcases fdBit_cases b s with ⟨-, -, e⟩ | ⟨-, -, -, -, e⟩ | ⟨-, -, -, -, e⟩ | ⟨-, -, -, e⟩ | ⟨-, -, e⟩ |
    ⟨v, -, -, -, e⟩ | ⟨-, -, -, e⟩ | ⟨-, -, -, e⟩ <;> rw [e]
  · exact .inl rfl
  · exact .inl rfl
  · exact .inl rfl
  · exact .inr (.inl rfl)
  · exact .inr (.inl rfl)
  · exact .inl rfl
  · exact .inr (.inr rfl)
  · exact .inr (.inl rfl)

/-- Settles O44: only the Frame Decoder writes the buffer, and its transitions keep, empty or extend it. -/
theorem packetBufferOnlyGrowsOrEmpties : Obligations.PacketBufferOnlyGrowsOrEmpties := by
  intro s t h
  rcases step_cases h with ⟨-, rs, rfl⟩ | ⟨-, -, rfl⟩ | ⟨ev, q, -, -, -, rfl⟩ | ⟨ev, q, u, -, -, -, -, -, hu, rfl⟩
  · exact .inl rfl
  · exact .inl rfl
  · exact .inl rfl
  · rw [closeStep_fdPkt]
    rcases feedEvent_frame hu with h | ⟨t, p, evs, f, h, rfl, hs, -, -⟩
    · exact .inl h.fdPkt
    · have hb := fdBit_fdPkt (t.classify p.high p.low)
        { t with outEvents := t.outEvents ++ classifierEvents t p.high p.low }
      rw [hs.fdPkt]
      simpa [h.fdPkt, h.fdByte] using hb

/-! ## Garbage -/

/-- The pass's output holds Garbage once where FD_GLOG is set and never where it is clear (R234). -/
def GarbageOnce (s : State) : Prop :=
  (anomaliesOf s.outEvents).count .garbage = if s.fdGlog = true then 1 else 0

/-- Events without Garbage and the flag kept leave the count right. -/
theorem GarbageOnce.append {s t : State} {es : List OutEvent} (h : GarbageOnce s)
    (ho : t.outEvents = s.outEvents ++ es) (hg : t.fdGlog = s.fdGlog) (hes : .garbage ∉ anomaliesOf es) :
    GarbageOnce t := by
  rw [GarbageOnce, ho, hg, anomaliesOf_append, List.count_append, List.count_eq_zero_of_not_mem hes]
  exact h

theorem garbage_notMem_classifierEvents (s : State) (h l : Nat) : .garbage ∉ anomaliesOf (classifierEvents s h l) := by
  rw [anomaliesOf_classifierEvents]
  split
  · split <;> simp
  · simp
  · simp

/-- Garbage is reported where the flag is clear, which sets it. -/
theorem fdBit_garbageOnce {s : State} (h : GarbageOnce s) (b : BitVal) : GarbageOnce (fdBit b s).1 := by
  rcases fdBit_cases b s with ⟨-, -, e⟩ | ⟨-, -, -, -, e⟩ | ⟨-, -, -, hg, e⟩ | ⟨-, -, -, e⟩ | ⟨-, -, e⟩ |
    ⟨v, -, -, -, e⟩ | ⟨-, -, -, e⟩ | ⟨-, -, -, e⟩ <;> rw [e]
  · exact h
  · exact h
  · rw [GarbageOnce, hg] at h
    rw [GarbageOnce, anomaliesOf_append, List.count_append, h]
    rfl
  · exact h.append rfl rfl (by simp)
  · exact h.append rfl rfl (by simp)
  · exact h
  · exact h
  · exact h.append rfl rfl (by simp)

theorem feedEvent_garbageOnce {ev : InEvent} {s u : State} (hu : feedEvent ev s = .next u) (h : GarbageOnce s) :
    GarbageOnce u := by
  have hfront {t : State} (ht : SameFrame s t) : GarbageOnce t := by
    obtain ⟨es, ho, hes, -, -⟩ := ht.outEvents
    exact h.append ho ht.fdGlog (by simp [hes])
  rcases feedEvent_frame hu with hs | ⟨t, p, evs, f, ht, rfl, hs, hnone, hsome⟩
  · exact hfront hs
  · have hclass := (hfront ht).append (t := { t with outEvents := t.outEvents ++ classifierEvents t p.high p.low })
      rfl rfl (garbage_notMem_classifierEvents t p.high p.low)
    have hevs : .garbage ∉ anomaliesOf evs := by
      cases hf : (fdBit (t.classify p.high p.low)
          { t with outEvents := t.outEvents ++ classifierEvents t p.high p.low }).2 with
      | none => rw [hnone hf]; exact List.not_mem_nil
      | some pk => exact (hsome pk hf).garbage
    exact (fdBit_garbageOnce hclass _).append hs.outEvents hs.fdGlog hevs

/-- Settles O43: every stage keeps the count right, and results, packets' reports and PartialAtEnd are no Garbage. -/
theorem garbageReportedAtMostOncePerPass : Obligations.GarbageReportedAtMostOncePerPass := by
  intro s t hs h
  rcases step_cases h with ⟨-, rs, rfl⟩ | ⟨-, -, rfl⟩ | ⟨ev, q, -, -, -, rfl⟩ | ⟨ev, q, u, -, -, -, -, -, hu, rfl⟩
  · exact GarbageOnce.append (s := s) hs rfl rfl (garbage_notMem_results rs)
  · exact hs
  · exact hs
  · exact (feedEvent_garbageOnce hu hs).append (closeStep_outEvents ev u) (closeStep_fdGlog ev u)
      (garbage_notMem_closingEvents ev u)

/-! ## The queues -/

theorem fdBit_outEvents_prefix (b : BitVal) (s : State) : s.outEvents <+: (fdBit b s).1.outEvents := by
  rcases fdBit_cases b s with ⟨-, -, e⟩ | ⟨-, -, -, -, e⟩ | ⟨-, -, -, -, e⟩ | ⟨-, -, -, e⟩ | ⟨-, -, e⟩ |
    ⟨v, -, -, -, e⟩ | ⟨-, -, -, e⟩ | ⟨-, -, -, e⟩
  · rw [e]
  · rw [e]
  · rw [e]; exact List.prefix_append ..
  · rw [e]; exact List.prefix_append ..
  · rw [e]; exact List.prefix_append ..
  · rw [e]; exact List.prefix_rfl
  · rw [e]
  · rw [e]; exact List.prefix_append ..

theorem feedEvent_outEvents_prefix {ev : InEvent} {s u : State} (hu : feedEvent ev s = .next u) :
    s.outEvents <+: u.outEvents := by
  have hfront {t : State} (ht : SameFrame s t) : s.outEvents <+: t.outEvents := by
    obtain ⟨es, ho, -⟩ := ht.outEvents
    exact ⟨es, ho.symm⟩
  rcases feedEvent_frame hu with hs | ⟨t, p, evs, f, ht, rfl, hs, -, -⟩
  · exact hfront hs
  · rw [hs.outEvents]
    have hb := fdBit_outEvents_prefix (t.classify p.high p.low)
      { t with outEvents := t.outEvents ++ classifierEvents t p.high p.low }
    exact (hfront ht).trans ((List.prefix_append ..).trans (hb.trans (List.prefix_append ..)))

/-- No stage touches the queue of input events. -/
theorem feedEvent_inEvents {ev : InEvent} {s u : State} (hu : feedEvent ev s = .next u) : u.inEvents = s.inEvents := by
  rcases feedEvent_frame hu with hs | ⟨t, p, evs, f, ht, rfl, hs, -, -⟩
  · exact hs.inEvents
  · have hb := fdBit_sameBeforeFrame (t.classify p.high p.low)
      { t with outEvents := t.outEvents ++ classifierEvents t p.high p.low }
    exact hs.inEvents.trans (hb.inEvents.trans ht.inEvents)

/-- Settles O56: the event is taken before the stages react, and every stage appends. -/
theorem stepTakesOneEventAndAppendsOutput : Obligations.StepTakesOneEventAndAppendsOutput := by
  intro s t hi h
  rcases step_cases h with ⟨hp, -⟩ | ⟨-, hq, rfl⟩ | ⟨ev, q, -, hq, -, rfl⟩ | ⟨ev, q, u, -, hq, -, -, -, hu, rfl⟩
  · exact absurd hi hp
  · exact ⟨by rw [hq]; rfl, List.prefix_rfl⟩
  · exact ⟨by rw [hq]; rfl, List.prefix_rfl⟩
  · rw [closeStep_inEvents, closeStep_outEvents, feedEvent_inEvents hu, hq]
    exact ⟨rfl, (feedEvent_outEvents_prefix hu).trans (List.prefix_append ..)⟩

end Sys2Proof.Machine
end

section
/-! The runs of a pass and the pending high (40_edge_and_pairer.md R113, R120 to R123), step by step. -/

namespace Sys2Proof.Machine

/-! ## What the stages behind the Edge Extractor leave of its registers -/

/-- The Edge Extractor's registers, DONE and the runs emitted are the same in both states. -/
structure SameRuns (s t : State) : Prop where
  eeValid : t.eeValid = s.eeValid
  eePol   : t.eePol = s.eePol
  eeDur   : t.eeDur = s.eeDur
  done    : t.done = s.done
  runs    : runsOf t.outEvents = runsOf s.outEvents

theorem dpRun_sameRuns (r : Run) (s : State) : SameRuns s (dpRun r s).1 := by
  rcases dpRun_cases r s with ⟨-, e⟩ | ⟨-, -, e⟩ | ⟨h, -, -, e⟩ <;> rw [e]
  · exact ⟨rfl, rfl, rfl, rfl, rfl⟩
  · exact ⟨rfl, rfl, rfl, rfl, rfl⟩
  · exact ⟨rfl, rfl, rfl, rfl, by simp⟩

theorem SameBeforeFrame.sameRuns {s t : State} (h : SameBeforeFrame s t) : SameRuns s t :=
  ⟨h.eeValid, h.eePol, h.eeDur, h.done, h.runs⟩

/-- The stages leave the Edge Extractor's registers and the runs as the Edge Extractor has left them. -/
theorem feedEvent_sameRuns {ev : InEvent} {s u : State} (hu : feedEvent ev s = .next u) :
    SameRuns (extract ev s).1 u := by
  rcases feedEvent_sameBeforeFrame hu with ⟨t, e, h⟩ | ⟨t, r, e, h⟩ <;> rw [e]
  · exact h.sameRuns
  · have hd := dpRun_sameRuns r t
    exact ⟨h.eeValid.trans hd.eeValid, h.eePol.trans hd.eePol, h.eeDur.trans hd.eeDur, h.done.trans hd.done,
      h.runs.trans hd.runs⟩

/-! ## All runs of the pass -/

theorem allRuns_of_running {s : State} (hv : s.eeValid = true) (hd : s.done = false) :
    s.allRuns = runsOf s.outEvents ++ [⟨s.eePol, s.eeDur⟩] := by
  rw [State.allRuns, State.openRun, if_pos ⟨hv, hd⟩]

theorem allRuns_of_not_running {s : State} (h : ¬ (s.eeValid = true ∧ s.done = false)) :
    s.allRuns = runsOf s.outEvents := by
  rw [State.allRuns, State.openRun, if_neg h, List.append_nil]

/-- The registers `State.allRuns` reads. -/
theorem allRuns_congr {s t : State} (h : SameRuns s t) : t.allRuns = s.allRuns := by
  rw [State.allRuns, State.allRuns, State.openRun, State.openRun, h.eeValid, h.eePol, h.eeDur, h.done, h.runs]

/-- The runs after a sample: it begins a run, not one of the polarity of the run before it, or makes the last run longer. -/
def AddsSample (p : Polarity) (s t : State) : Prop :=
  t.eeValid = true ∧
  ((t.allRuns = s.allRuns ++ [⟨p, 1⟩] ∧ (s.eeValid = true → ∀ r ∈ s.allRuns.getLast?, r.pol ≠ p)) ∨
   ∃ rs r, s.allRuns = rs ++ [r] ∧ t.allRuns = rs ++ [⟨r.pol, r.dur + 1⟩])

theorem eeSample_addsSample {v : Int} {s : State} (hd : s.done = false) :
    AddsSample (polarity v) s (eeSample v s).1 := by
  rcases eeSample_cases v s with ⟨hv, e⟩ | ⟨hv, -, e⟩ | ⟨hv, hp, e⟩ <;> rw [e]
  · refine ⟨rfl, .inl ⟨?_, fun h => absurd (hv.symm.trans h) nofun⟩⟩
    rw [allRuns_of_running rfl (by exact hd), allRuns_of_not_running (s := s) (by simp [hv])]
    rfl
  · refine ⟨hv, .inr ⟨runsOf s.outEvents, ⟨s.eePol, s.eeDur⟩, allRuns_of_running hv hd, ?_⟩⟩
    exact allRuns_of_running (s := { s with eeDur := s.eeDur + 1 }) hv hd
  · refine ⟨rfl, .inl ⟨?_, fun _ r hr => ?_⟩⟩
    · rw [allRuns_of_running rfl (by exact hd), allRuns_of_running hv hd]
      simp
    · rw [allRuns_of_running hv hd, List.getLast?_concat, Option.mem_some_iff] at hr
      rw [← hr]
      exact fun h => hp h.symm

/-- The flush at End moves the run in progress to the runs emitted. -/
theorem eeEnd_allRuns {s : State} (hd : s.done = false) : runsOf (eeEnd s).1.outEvents = s.allRuns := by
  rcases eeEnd_cases s with ⟨hv, e⟩ | ⟨hv, e⟩ <;> rw [e]
  · rw [allRuns_of_not_running (by simp [hv])]
  · rw [allRuns_of_running hv hd]
    simp

theorem eeEnd_eeValid (s : State) : (eeEnd s).1.eeValid = s.eeValid := by
  rcases eeEnd_cases s with ⟨-, e⟩ | ⟨-, e⟩ <;> rw [e]
  rfl

/-- A step takes a sample before End and adds it to the runs, or leaves the runs as they are. -/
theorem step_allRuns {s t : State} (h : step s = .next t) :
    (∃ v q, s.inEvents = .sample v :: q ∧ s.ciPhase = .idle ∧ s.done = false ∧ AddsSample (polarity v) s t) ∨
    (t.allRuns = s.allRuns ∧ t.eeValid = s.eeValid ∧
      ¬ (s.ciPhase = .idle ∧ s.done = false ∧ ∃ v q, s.inEvents = .sample v :: q)) := by
  rcases step_cases h with ⟨hi, rs, rfl⟩ | ⟨-, hq, rfl⟩ | ⟨ev, q, -, -, hd, rfl⟩ | ⟨ev, q, u, hi, hq, hd, -, -, hu, rfl⟩
  · refine .inr ⟨allRuns_congr ⟨rfl, rfl, rfl, rfl, ?_⟩, rfl, fun hn => hi hn.1⟩
    simp
  · exact .inr ⟨rfl, rfl, fun ⟨_, _, v, q, hv⟩ => by rw [hq] at hv; cases hv⟩
  · exact .inr ⟨rfl, rfl, fun hn => by rw [hd] at hn; cases hn.2.1⟩
  · have hr := feedEvent_sameRuns hu
    cases ev with
    | sample v =>
      obtain ⟨hv, ha⟩ := eeSample_addsSample (v := v) (s := { s with inEvents := q }) hd
      have hclose : SameRuns u (closeStep (.sample v) u) := by
        refine ⟨closeStep_eeValid .., closeStep_eePol .., closeStep_eeDur .., closeStep_done .., ?_⟩
        rw [closeStep_outEvents, runsOf_append, runsOf_closingEvents, List.append_nil]
      refine .inl ⟨v, q, hq, hi, hd, hclose.eeValid.trans (hr.eeValid.trans hv), ?_⟩
      rw [allRuns_congr hclose, allRuns_congr hr]
      exact ha
    | endOfInput =>
      refine .inr ⟨?_, ?_, fun ⟨_, _, v, q', hv⟩ => by rw [hq] at hv; cases hv⟩
      · rw [allRuns_of_not_running (by simp [doneAfter]), closeStep_outEvents, runsOf_append, runsOf_closingEvents,
          List.append_nil, hr.runs]
        exact eeEnd_allRuns (s := { s with inEvents := q }) hd
      · rw [closeStep_eeValid, hr.eeValid]
        exact eeEnd_eeValid _

/-- Settles O32: a new run has one sample and differs from the last one; a longer one keeps its polarity. -/
theorem runsHaveSamplesAndAlternate : Obligations.RunsHaveSamplesAndAlternate := by
  rintro s t ⟨hpos, hchain, hfirst⟩ h
  rcases step_allRuns h with ⟨v, q, -, -, -, hv, ⟨ht, hlast⟩ | ⟨rs, r, hs, ht⟩⟩ | ⟨ht, hv, -⟩
  · refine ⟨?_, ?_, fun hf => absurd (hv.symm.trans hf) nofun⟩ <;> rw [ht]
    · exact List.forall_mem_append.2 ⟨hpos, by simp⟩
    · refine hchain.append (List.isChain_singleton _) fun r hr r' hr' => ?_
      cases hr'
      cases hvs : s.eeValid with
      | true => exact hlast hvs r hr
      | false => rw [hfirst hvs] at hr; cases hr
  · rw [hs] at hpos hchain
    refine ⟨?_, ?_, fun hf => absurd (hv.symm.trans hf) nofun⟩ <;> rw [ht]
    · exact List.forall_mem_append.2 ⟨(List.forall_mem_append.1 hpos).1, by simp⟩
    · rw [List.isChain_append] at hchain ⊢
      obtain ⟨hrs, -, hjoin⟩ := hchain
      refine ⟨hrs, List.isChain_singleton _, fun x hx y hy => ?_⟩
      cases hy
      exact hjoin x hx r rfl
  · exact ⟨by rwa [ht], by rwa [ht], by rwa [ht, hv]⟩

/-- Settles O33: a sample adds a run of one, or one to a run. -/
theorem runsReconstructTheSampleCount : Obligations.RunsReconstructTheSampleCount := by
  intro s t hi hd h
  rw [State.samplesSeen, State.samplesSeen]
  rcases step_allRuns h with ⟨v, q, hq, -, -, -, ⟨ht, -⟩ | ⟨rs, r, hs, ht⟩⟩ | ⟨ht, -, hno⟩
  · simp [hq, ht]
  · simp [hq, ht, hs, Nat.add_assoc]
  · rw [ht]
    rcases hq : s.inEvents with _ | ⟨_ | _, q⟩
    · rfl
    · exact absurd ⟨hi, hd, _, q, hq⟩ hno
    · rfl

/-! ## The pending high -/

/-- The slot after the Duration Pairer: a high run is parked, after a low run nothing is. -/
theorem dpRun_dpPend (r : Run) (s : State) :
    (r.pol = .high ∧ (dpRun r s).1.dpPend = some r.dur) ∨ (r.pol = .low ∧ (dpRun r s).1.dpPend = none) := by
  rcases dpRun_cases r s with ⟨hp, e⟩ | ⟨hp, hd, e⟩ | ⟨h, hp, hd, e⟩ <;> rw [e]
  · exact .inl ⟨hp, rfl⟩
  · exact .inr ⟨hp, hd⟩
  · exact .inr ⟨hp, rfl⟩

/-- What the Edge Extractor hands on is the run in progress; then a run of the other polarity has begun, or the pass is at
its end. Where it hands on nothing, the slot and the run's polarity stay, unless no run has been there. -/
theorem extract_cases (ev : InEvent) (s : State) :
    (∃ t, extract ev s = (t, none) ∧ t.dpPend = s.dpPend ∧ (s.eeValid = true → t.eeValid = true ∧ t.eePol = s.eePol)) ∨
    ∃ t, extract ev s = (t, some ⟨s.eePol, s.eeDur⟩) ∧ t.dpPend = s.dpPend ∧ t.eeValid = true ∧
      (t.eePol ≠ s.eePol ∨ ev = .endOfInput) := by
  cases ev with
  | sample v =>
    rcases eeSample_cases v s with ⟨hv, e⟩ | ⟨hv, hp, e⟩ | ⟨hv, hp, e⟩
    · exact .inl ⟨_, e, rfl, fun h => absurd (hv.symm.trans h) nofun⟩
    · exact .inl ⟨_, e, rfl, fun _ => ⟨hv, rfl⟩⟩
    · exact .inr ⟨_, e, rfl, rfl, .inl hp⟩
  | endOfInput =>
    rcases eeEnd_cases s with ⟨hv, e⟩ | ⟨hv, e⟩
    · exact .inl ⟨_, e, rfl, fun h => ⟨h, rfl⟩⟩
    · exact .inr ⟨_, e, rfl, hv, .inr rfl⟩

/-- Settles O34: a high is parked as its low run begins, or at End, and taken as that low run is closed. -/
theorem pendingHighOnlyWhileItsLowRunLasts : Obligations.PendingHighOnlyWhileItsLowRunLasts := by
  intro s t hs h
  rcases step_cases h with ⟨-, rs, rfl⟩ | ⟨-, -, rfl⟩ | ⟨ev, q, -, -, -, rfl⟩ | ⟨ev, q, u, -, -, hd, -, -, hu, rfl⟩
  · exact hs
  · exact hs
  · exact hs
  · have hsame := feedEvent_sameBeforeFrame hu
    rw [State.PendingOk, closeStep_dpPend, closeStep_eeValid, closeStep_eePol, closeStep_done]
    rcases extract_cases ev { s with inEvents := q } with ⟨t, e, hpend, hv⟩ | ⟨t, e, -, hv, hpol⟩ <;> rw [e] at hsame
    · rcases hsame with ⟨t', e', h⟩ | ⟨t', r, e', -⟩ <;> cases e'
      rw [h.dpPend, h.eeValid, h.eePol, hpend]
      intro hne
      obtain ⟨hvs, hlow | hdone⟩ := hs hne
      · exact ⟨(hv hvs).1, .inl ((hv hvs).2.trans hlow)⟩
      · exact absurd (hd.symm.trans hdone) nofun
    · rcases hsame with ⟨t', e', -⟩ | ⟨t', r, e', h⟩ <;> cases e'
      have hruns := dpRun_sameRuns ⟨s.eePol, s.eeDur⟩ t
      rw [h.dpPend, h.eeValid, h.eePol, hruns.eeValid, hruns.eePol]
      intro hne
      refine ⟨hv, ?_⟩
      rcases dpRun_dpPend ⟨s.eePol, s.eeDur⟩ t with ⟨hhigh, -⟩ | ⟨-, hnone⟩
      · refine hpol.imp (fun hp => ?_) fun hend => by rw [hend]; rfl
        cases hp' : t.eePol with
        | low => rfl
        | high => exact absurd (hp'.trans hhigh.symm) hp
      · exact absurd hnone hne

end Sys2Proof.Machine
end

section
/-! The legal states (10_state.md R20 to R40, 42_frame_decoder.md R162): a step is total on them and keeps them, reset gives
them; and the steps that need no stage. -/

namespace Sys2Proof.Machine

/-! ## Totality -/

theorem step_of_done {s : State} {ev : InEvent} {q : List InEvent} (hi : s.ciPhase = .idle) (hd : s.done = true)
    (hq : s.inEvents = ev :: q) : step s = .next { s with inEvents := q } := by
  simp [step, hi, takeEvent, hq, react, hd]

theorem step_of_no_event {s : State} (hi : s.ciPhase = .idle) (hq : s.inEvents = []) : step s = .next s := by
  simp [step, hi, takeEvent, hq]

/-- Settles O55: the event is taken from the queue before DONE is tested. -/
theorem inputAfterEndIsIgnored : Obligations.InputAfterEndIsIgnored :=
  fun _ _ _ hi hd hq => step_of_done hi hd hq

/-- Settles O47: a legal state waits, drops the event, or reacts, and the stages always answer. -/
theorem stepIsTotalOnLegalStates : Obligations.StepIsTotalOnLegalStates := by
  intro s hs
  obtain ⟨-, hi, -⟩ := hs.between
  cases hq : s.inEvents with
  | nil => exact ⟨s, step_of_no_event hi hq⟩
  | cons ev q =>
    cases hd : s.done with
    | true => exact ⟨_, step_of_done hi hd hq⟩
    | false =>
      obtain ⟨u, hu⟩ := feedEvent_answers ev { s with inEvents := q }
      exact ⟨closeStep ev u, by rw [step_event hi hq hd hs.timebase.1 hs.timebase.2, hu]; rfl⟩

/-! ## What keeps a state legal -/

/-- R23, R24: a run in progress and a pending high have at least one sample. -/
def RunOk (s : State) : Prop :=
  (s.eeValid = true → 1 ≤ s.eeDur) ∧ ∀ h, s.dpPend = some h → 1 ≤ h

/-- The Edge Extractor keeps it and hands on a run with a sample. -/
theorem extract_runOk {s t : State} {r? : Option Run} {ev : InEvent} (hs : RunOk s) (h : extract ev s = (t, r?)) :
    RunOk t ∧ ∀ r, r? = some r → 1 ≤ r.dur := by
  obtain ⟨hdur, hpend⟩ := hs
  cases ev with
  | sample v =>
    rcases eeSample_cases v s with ⟨hv, e⟩ | ⟨hv, -, e⟩ | ⟨hv, -, e⟩ <;> cases h.symm.trans e
    · exact ⟨⟨fun _ => Nat.le_refl 1, hpend⟩, nofun⟩
    · exact ⟨⟨fun _ => Nat.le_add_left 1 _, hpend⟩, nofun⟩
    · exact ⟨⟨fun _ => Nat.le_refl 1, hpend⟩, fun r hr => by cases hr; exact hdur hv⟩
  | endOfInput =>
    rcases eeEnd_cases s with ⟨hv, e⟩ | ⟨hv, e⟩ <;> cases h.symm.trans e
    · exact ⟨⟨hdur, hpend⟩, nofun⟩
    · exact ⟨⟨hdur, hpend⟩, fun r hr => by cases hr; exact hdur hv⟩

theorem dpRun_runOk {s : State} {r : Run} (hs : RunOk s) (hr : 1 ≤ r.dur) : RunOk (dpRun r s).1 := by
  obtain ⟨hdur, hpend⟩ := hs
  rcases dpRun_cases r s with ⟨-, e⟩ | ⟨-, -, e⟩ | ⟨h, -, -, e⟩ <;> rw [e]
  · exact ⟨hdur, fun h hh => by cases hh; exact hr⟩
  · exact ⟨hdur, hpend⟩
  · exact ⟨hdur, nofun⟩

theorem SameBeforeFrame.runOk {s t : State} (h : SameBeforeFrame s t) (hs : RunOk s) : RunOk t := by
  rw [RunOk, h.eeValid, h.eeDur, h.dpPend]
  exact hs

theorem feedEvent_runOk {ev : InEvent} {s u : State} (hu : feedEvent ev s = .next u) (hs : RunOk s) : RunOk u := by
  rcases feedEvent_sameBeforeFrame hu with ⟨t, e, h⟩ | ⟨t, r, e, h⟩
  · exact h.runOk (extract_runOk hs e).1
  · obtain ⟨ht, hr⟩ := extract_runOk hs e
    exact h.runOk (dpRun_runOk ht (hr r rfl))

/-- A byte in progress of `n` bits takes a bit more. -/
theorem fdReadData_toNat_lt {s : State} (v : Bool) (hb : s.fdByte.toNat < 2 ^ s.fdNbits) :
    (fdReadData v s).fdByte.toNat < 2 ^ (s.fdNbits + 1) := by
  rw [fdReadData_eq_ofNat, BitVec.toNat_ofNat, Nat.pow_succ]
  have hv : v.toNat ≤ 1 := Bool.toNat_le v
  have hmod := Nat.mod_le (s.fdByte.toNat * 2 + v.toNat) (2 ^ 8)
  omega

/-- The Frame Decoder keeps its registers in agreement with its state (R162 a, b). -/
theorem fdBit_frameOk {s : State} (hs : s.FrameOk) (b : BitVal) : (fdBit b s).1.FrameOk := by
  obtain ⟨hseek, hread⟩ := hs
  have hempty {x : State} (h : x.fdState = .seek) (hx : x.fdPkt = [] ∧ x.fdByte = 0#8 ∧ x.fdNbits = 0) : x.FrameOk :=
    ⟨fun _ => hx, fun hr => absurd (h.symm.trans hr) nofun⟩
  rcases fdBit_cases b s with ⟨h, -, e⟩ | ⟨h, -, -, -, e⟩ | ⟨h, -, -, -, e⟩ | ⟨-, -, -, e⟩ | ⟨-, -, e⟩ |
    ⟨v, h, -, hn, e⟩ | ⟨h, -, -, e⟩ | ⟨-, -, -, e⟩ <;> rw [e]
  · exact hempty h (hseek h)
  · exact hempty h (hseek h)
  · exact hempty h (hseek h)
  · exact ⟨nofun, fun _ => ⟨rfl, Nat.zero_le 8, Nat.one_pos⟩⟩
  · exact hempty rfl ⟨rfl, rfl, rfl⟩
  · obtain ⟨hc, -, hb⟩ := hread h
    exact ⟨fun hs => absurd (h.symm.trans hs) nofun, fun _ => ⟨hc, hn, fdReadData_toNat_lt v hb⟩⟩
  · exact ⟨fun hs => absurd (h.symm.trans hs) nofun, fun _ => ⟨(hread h).1, Nat.zero_le 8, Nat.one_pos⟩⟩
  · exact hempty rfl ⟨rfl, rfl, rfl⟩

/-- The same frame registers agree with the state in the same way. -/
theorem frameOk_congr {s t : State} (hstate : t.fdState = s.fdState) (hcnt : t.fdCnt = s.fdCnt)
    (hbyte : t.fdByte = s.fdByte) (hnbits : t.fdNbits = s.fdNbits) (hpkt : t.fdPkt = s.fdPkt) (hs : s.FrameOk) :
    t.FrameOk := by
  rw [State.FrameOk, hstate, hcnt, hbyte, hnbits, hpkt]
  exact hs

theorem feedEvent_frameOk {ev : InEvent} {s u : State} (hu : feedEvent ev s = .next u) (hs : s.FrameOk)
    (hw : s.fdPkt.wf) : u.FrameOk ∧ u.fdPkt.wf := by
  have hfront {t : State} (ht : SameFrame s t) : t.FrameOk ∧ t.fdPkt.wf :=
    ⟨frameOk_congr ht.fdState ht.fdCnt ht.fdByte ht.fdNbits ht.fdPkt hs, by rw [ht.fdPkt]; exact hw⟩
  rcases feedEvent_frame hu with h | ⟨t, p, evs, f, ht, rfl, h, -, -⟩
  · exact hfront h
  · obtain ⟨hok, hwf⟩ := hfront ht
    have hok' := fdBit_frameOk (s := { t with outEvents := t.outEvents ++ classifierEvents t p.high p.low }) hok
      (t.classify p.high p.low)
    have hwf' := fdBit_wf (s := { t with outEvents := t.outEvents ++ classifierEvents t p.high p.low }) hwf
      (t.classify p.high p.low)
    exact ⟨frameOk_congr h.fdState h.fdCnt h.fdByte h.fdNbits h.fdPkt hok', by rw [h.fdPkt]; exact hwf'⟩

/-- Settles O48: the timebase is latched, the first two stages keep runs with samples, the Frame Decoder keeps its
registers, and the end of a step leaves nothing of it. -/
theorem everyStepKeepsTheStateLegal : Obligations.EveryStepKeepsTheStateLegal := by
  intro s t hs h
  obtain ⟨htb, hrun, hpend, hframe, hbuffer, hbetween⟩ := hs
  rcases step_cases h with ⟨hi, -⟩ | ⟨-, -, rfl⟩ | ⟨ev, q, -, -, -, rfl⟩ | ⟨ev, q, u, -, -, -, -, -, hu, rfl⟩
  · exact absurd hbetween.2.1 hi
  · exact ⟨htb, hrun, hpend, hframe, hbuffer, hbetween⟩
  · exact ⟨htb, hrun, hpend, hframe, hbuffer, hbetween⟩
  · obtain ⟨hn, hd, -, -⟩ := feedEvent_latched hu
    obtain ⟨hrun', hpend'⟩ := feedEvent_runOk hu ⟨hrun, hpend⟩
    obtain ⟨hframe', hbuffer'⟩ := feedEvent_frameOk hu hframe hbuffer
    refine ⟨?_, ?_, ?_, ?_, ?_, closeStep_between ev u⟩
    · rw [closeStep_tbNum, closeStep_tbDen, hn, hd]
      exact htb
    · rw [closeStep_eeValid, closeStep_eeDur]
      exact hrun'
    · rw [closeStep_dpPend]
      exact hpend'
    · exact frameOk_congr (closeStep_fdState ev u) (closeStep_fdCnt ev u) (closeStep_fdByte ev u)
        (closeStep_fdNbits ev u) (closeStep_fdPkt ev u) hframe'
    · rw [closeStep_fdPkt]
      exact hbuffer'

/-! ## Reset and status -/

theorem resetWith_of_legal {n d : Nat} (hn : 1 ≤ n) (hd : 1 ≤ d) :
    resetWith n d = .next { freshState n d with
      outEvents := if 40 * d < n then [.diag (.timebaseCoarse n d)] else [] } := by
  rw [resetWith, if_pos (legalTimebase_eq_true.2 ⟨hn, hd⟩)]
  simp only [coarse_eq_true]
  split <;> rfl

/-- Settles O58: the fresh registers, and the diagnostic exactly for a coarse timebase. -/
theorem resetLoadsTheRegisters : Obligations.ResetLoadsTheRegisters := by
  refine ⟨fun n d hn hd => ⟨_, resetWith_of_legal hn hd, rfl, rfl, rfl, rfl, rfl, rfl, rfl, rfl, rfl, rfl, rfl, rfl⟩,
    fun n d h => if_neg ?_⟩
  rw [legalTimebase_eq_true]
  omega

/-- The fresh registers are legal, whatever has been output. -/
theorem freshState_inv {n d : Nat} (hn : 1 ≤ n) (hd : 1 ≤ d) (es : List OutEvent) :
    ({ freshState n d with outEvents := es } : State).Inv :=
  ⟨⟨hn, hd⟩, nofun, nofun, ⟨fun _ => ⟨rfl, rfl, rfl⟩, nofun⟩, rfl, ⟨rfl, rfl, rfl, rfl, rfl⟩⟩

/-- Settles O49: at reset no run is in progress, nothing is parked, and the one event there may be is no run. -/
theorem resetStateIsLegal : Obligations.ResetStateIsLegal := by
  refine ⟨freshState_inv (Nat.le_refl 1) (Nat.le_refl 1) [],
    fun n d hn hd => ⟨_, resetWith_of_legal hn hd, freshState_inv hn hd _, ?runs, fun h => absurd rfl h⟩⟩
  case runs =>
    have hruns : ({ freshState n d with
        outEvents := if 40 * d < n then [.diag (.timebaseCoarse n d)] else [] } : State).allRuns = [] := by
      rw [allRuns_of_not_running fun h => Bool.false_ne_true h.1]
      split <;> rfl
    rw [State.RunsOk, hruns]
    exact ⟨nofun, .nil, fun _ => rfl⟩

/-- Settles O59: three bits, each read off the concatenation. -/
theorem statusBits : Obligations.StatusBits := by
  intro s
  have hbits : ∀ g c d : Bool, (BitVec.ofBool g ++ BitVec.ofBool c ++ BitVec.ofBool d).getLsbD 0 = d ∧
      (BitVec.ofBool g ++ BitVec.ofBool c ++ BitVec.ofBool d).getLsbD 1 = c ∧
      (BitVec.ofBool g ++ BitVec.ofBool c ++ BitVec.ofBool d).getLsbD 2 = g := by decide
  obtain ⟨hdone, hcoarse, hglog⟩ := hbits s.fdGlog s.tbCoarse s.done
  exact ⟨hdone, by rw [State.status, hcoarse, tbCoarse_eq_true], hglog⟩

/-! ## The sign of a sample -/

theorem polarity_congr {v w : Int} (h : 0 ≤ v ↔ 0 ≤ w) : polarity v = polarity w := by
  simp only [polarity, h]

/-- The Edge Extractor reads the polarity of a sample and nothing else of it (R114). -/
theorem eeSample_congr {v w : Int} (h : polarity v = polarity w) (s : State) : eeSample v s = eeSample w s := by
  simp only [eeSample, startRun, h]

/-- Settles O31: the stages see the sample through the Edge Extractor only, and the end of a step not at all. -/
theorem stepSeesOnlyTheSignOfASample : Obligations.StepSeesOnlyTheSignOfASample := by
  intro v w q s hi h
  have hfeed : ∀ x, feedEvent (.sample v) x = feedEvent (.sample w) x := fun x => by
    simp only [feedEvent, extract, eeSample_congr (polarity_congr h)]
  simp only [step, hi, takeEvent, react, hfeed]
  rfl

/-! ## Finite widths -/

theorem within_eq_true {bound : Option Nat} {n : Nat} : within bound n = true ↔ ∀ b, bound = some b → n ≤ b := by
  cases bound with
  | none => simp [within]
  | some b => simp [within]

/-- A counter of `w` bits holds up to `2 ^ w - 1`. -/
theorem within_counterMax {w : Option Nat} {n : Nat} :
    within (counterMax w) n = true ↔ ∀ k, w = some k → n ≤ 2 ^ k - 1 := by
  cases w with
  | none => simp [counterMax, within]
  | some k => simp [counterMax, within]

/-- The parked run, 0 where there is none, is within a bound exactly if a run that is parked is. -/
theorem getD_zero_le_iff {o : Option Nat} {b : Nat} : o.getD 0 ≤ b ↔ ∀ h, o = some h → h ≤ b := by
  cases o with
  | none => simp
  | some h => simp

/-- The events are within the buffer exactly if the packets among them are. -/
theorem all_eventWithin {w : Widths} {es : List OutEvent} :
    es.all (eventWithin w) = true ↔ ∀ p ∈ packetsOf es, within w.pktMax p.length = true := by
  induction es with
  | nil => simp
  | cons e es ih =>
    rw [List.all_cons, Bool.and_eq_true, ih]
    rcases e with (_ | _ | _ | p) | _ | _ | _ <;> simp [eventWithin]

/-- What it is to stay inside the widths, width by width (R7). -/
theorem fits_iff {w : Widths} {s t : State} :
    fits w s t = true ↔
      (∀ dw, w.durW = some dw → t.eeDur ≤ 2 ^ dw - 1 ∧ ∀ h, t.dpPend = some h → h ≤ 2 ^ dw - 1) ∧
      (∀ cw, w.cntW = some cw → t.fdCnt ≤ 2 ^ cw - 1) ∧
      (∀ m, w.pktMax = some m → t.fdPkt.length ≤ m ∧ ∀ p ∈ packetsOf (newEvents s t), p.length ≤ m) := by
  rw [fits, ← newEvents]
  simp only [Bool.and_eq_true, within_counterMax, all_eventWithin]
  simp only [within_eq_true, getD_zero_le_iff]
  constructor
  · rintro ⟨⟨⟨⟨hdur, hpend⟩, hcnt⟩, hbuf⟩, hpkts⟩
    exact ⟨fun dw h => ⟨hdur dw h, hpend dw h⟩, hcnt, fun m h => ⟨hbuf m h, fun p hp => hpkts p hp m h⟩⟩
  · rintro ⟨hdur, hcnt, hbuf⟩
    exact ⟨⟨⟨⟨fun dw h => (hdur dw h).1, fun dw h => (hdur dw h).2⟩, hcnt⟩, fun m h => (hbuf m h).1⟩,
      fun p hp m h => (hbuf m h).2 p hp⟩

theorem stepFinite_of_fits {w : Widths} {s t : State} (h : step s = .next t) (hf : fits w s t = true) :
    stepFinite w s = .next t := by
  rw [stepFinite, h, andThen_next, if_pos hf]

theorem stepFinite_of_not_fits {w : Widths} {s t : State} (h : step s = .next t) (hf : ¬ fits w s t = true) :
    stepFinite w s = .refused .beyondWidths := by
  rw [stepFinite, h, andThen_next, if_neg hf]

/-- Settles O60: the finite step is the reference step where its state fits, width by width, and refuses elsewhere. -/
theorem finiteWidthsConformOrRefuse : Obligations.FiniteWidthsConformOrRefuse := by
  refine ⟨fun s => ?reference, fun w s t h => ?either, fun w s t h hdur hcnt hbuf => ?inside,
    fun w s t dw h hw hout => ?dur, fun w s t cw h hw hout => ?cnt, fun w s t m h hw hout => ?buffer⟩
  case reference =>
    cases h : step s with
    | next t => exact stepFinite_of_fits h (fits_iff.2 ⟨nofun, nofun, nofun⟩)
    | fault r => cases r
    | refused r => rw [stepFinite, h]; rfl
  case either =>
    by_cases hf : fits w s t = true
    · exact .inl (stepFinite_of_fits h hf)
    · exact .inr (stepFinite_of_not_fits h hf)
  case inside => exact stepFinite_of_fits h (fits_iff.2 ⟨hdur, hcnt, hbuf⟩)
  case dur =>
    refine stepFinite_of_not_fits h fun hf => ?_
    obtain ⟨hrun, hpend⟩ := (fits_iff.1 hf).1 dw hw
    rcases hout with hout | ⟨k, hk, hout⟩
    · exact Nat.not_lt.2 hrun hout
    · exact Nat.not_lt.2 (hpend k hk) hout
  case cnt => exact stepFinite_of_not_fits h fun hf => Nat.not_lt.2 ((fits_iff.1 hf).2.1 cw hw) hout
  case buffer =>
    refine stepFinite_of_not_fits h fun hf => ?_
    obtain ⟨hbuf, hpkts⟩ := (fits_iff.1 hf).2.2 m hw
    rcases hout with hout | ⟨p, hp, hout⟩
    · exact Nat.not_lt.2 hbuf hout
    · exact Nat.not_lt.2 (hpkts p hp) hout

end Sys2Proof.Machine
end

section
/-! The whole step as a state (70_reset_and_hazards.md R264 to R266): what each stage and those behind it make of their
input, with the interpreter's part read off `payloadResults`, and the step equations, the End step and the anomalies
assembled from it. -/

namespace Sys2Proof.Machine

/-! ## What the stages make of their input, the step's own registers apart -/

/-- The Frame Decoder and what follows it: its transition, and the events of a packet it completed. -/
def frameEffect (b : BitVal) (s : State) : State :=
  { (fdBit b s).1 with outEvents := (fdBit b s).1.outEvents ++ (fdBit b s).2.elim [] packetEvents }

/-- The Bit Classifier and what follows it. -/
def pairEffect (p : Pair) (s : State) : State :=
  frameEffect (s.classify p.high p.low) { s with outEvents := s.outEvents ++ classifierEvents s p.high p.low }

/-- The Duration Pairer and what follows it. -/
def runEffect (r : Run) (s : State) : State :=
  match dpRun r s with
  | (t, some p) => pairEffect p t
  | (t, none)   => t

/-- The stages from the Edge Extractor on. -/
def eventEffect (ev : InEvent) (s : State) : State :=
  match extract ev s with
  | (t, some r) => runEffect r t
  | (t, none)   => t

theorem ckPacket_effect (p : List Byte) (s : State) :
    ∃ u, ckPacket p s = .next u ∧ SameAfterStep { s with outEvents := s.outEvents ++ packetEvents p } u := by
  rw [ckPacket, packetEvents, ckValidate_ckOk]
  split
  · obtain ⟨u, hu, hr⟩ := interpretPayload_results p.dropLast (ckValidate p s)
    exact ⟨u, hu, hr.endStep⟩
  · exact ⟨_, rfl, by rw [ckFail_eq]; rfl⟩

theorem feedBit_effect (b : BitVal) (s : State) : ∃ u, feedBit b s = .next u ∧ SameAfterStep (frameEffect b s) u := by
  rw [feedBit, frameEffect]
  rcases fdBit b s with ⟨t, _ | p⟩
  · exact ⟨t, rfl, by simp [SameAfterStep]⟩
  · exact ckPacket_effect p t

theorem feedRun_effect (r : Run) (s : State) : ∃ u, feedRun r s = .next u ∧ SameAfterStep (runEffect r s) u := by
  rw [feedRun, runEffect]
  rcases dpRun r s with ⟨t, _ | p⟩
  · exact ⟨t, rfl, .refl t⟩
  · obtain ⟨u, hu, hs⟩ := feedBit_effect (t.classify p.high p.low)
      { t with outEvents := t.outEvents ++ classifierEvents t p.high p.low }
    exact ⟨u, (feedPair_eq p t).trans hu, hs⟩

theorem feedEvent_effect (ev : InEvent) (s : State) :
    ∃ u, feedEvent ev s = .next u ∧ SameAfterStep (eventEffect ev s) u := by
  rw [feedEvent, eventEffect]
  rcases extract ev s with ⟨t, _ | r⟩
  · exact ⟨t, rfl, .refl t⟩
  · exact feedRun_effect r t

/-- The step on an event, before End: the stages, then the end of the step. -/
theorem step_eq_effect {s : State} {ev : InEvent} {q : List InEvent} (hs : s.Inv) (hd : s.done = false)
    (hq : s.inEvents = ev :: q) : step s = .next (closeStep ev (eventEffect ev { s with inEvents := q })) := by
  obtain ⟨-, hi, -⟩ := hs.between
  obtain ⟨u, hu, hsame⟩ := feedEvent_effect ev { s with inEvents := q }
  rw [step_event hi hq hd hs.timebase.1 hs.timebase.2, hu, andThen_next, closeStep_congr hsame]

/-! ## The cases of each stage -/

theorem runEffect_high (d : Nat) (s : State) : runEffect ⟨.high, d⟩ s = dpHigh d s := by
  rw [runEffect, dpRun_high]

theorem runEffect_low_of_pending {d h : Nat} {s : State} (hp : s.dpPend = some h) :
    runEffect ⟨.low, d⟩ s = pairEffect ⟨h, d⟩ { emit (.tap (.pair h d)) s with dpPend := none } := by
  rw [runEffect, dpRun_low_of_pending hp]

theorem runEffect_low_of_no_pending {d : Nat} {s : State} (hp : s.dpPend = none) : runEffect ⟨.low, d⟩ s = s := by
  rw [runEffect, dpRun_low_of_no_pending hp]

theorem eventEffect_first_sample {v : Int} {s : State} (hv : s.eeValid = false) :
    eventEffect (.sample v) s = startRun v s := by
  rw [eventEffect, extract, eeSample_of_not_eeValid hv]

theorem eventEffect_same_polarity {v : Int} {s : State} (hv : s.eeValid = true) (hp : polarity v = s.eePol) :
    eventEffect (.sample v) s = { s with eeDur := s.eeDur + 1 } := by
  rw [eventEffect, extract, eeSample_of_same_polarity hv hp]

theorem eventEffect_polarity_change {v : Int} {s : State} (hv : s.eeValid = true) (hp : polarity v ≠ s.eePol) :
    eventEffect (.sample v) s =
      runEffect ⟨s.eePol, s.eeDur⟩ (startRun v (emit (.tap (.run s.eePol s.eeDur)) s)) := by
  rw [eventEffect, extract, eeSample_of_polarity_change hv hp]

theorem eventEffect_end {s : State} (hv : s.eeValid = true) :
    eventEffect .endOfInput s = runEffect ⟨s.eePol, s.eeDur⟩ (emit (.tap (.run s.eePol s.eeDur)) s) := by
  rw [eventEffect, extract, eeEnd_of_eeValid hv]

theorem eventEffect_end_of_no_run {s : State} (hv : s.eeValid = false) : eventEffect .endOfInput s = s := by
  rw [eventEffect, extract, eeEnd_of_not_eeValid hv]

/-! ## The steps on a sample -/

/-- Between steps the end of a step has nothing to clear. -/
theorem endStep_of_between {s : State} (hs : s.Between) : endStep s = s := by
  obtain ⟨hck, hphase, hpayload, hcur, htgt⟩ := hs
  rw [endStep, ← hck, ← hphase, ← hpayload, ← hcur, ← htgt]

/-- Settles O50: the Edge Extractor's three cases, the third with a run that the Duration Pairer parks or drops. -/
theorem sampleStepsWithoutAPair : Obligations.SampleStepsWithoutAPair := by
  intro s v q hs hd hq
  have hstep := step_eq_effect hs hd hq
  rw [closeStep] at hstep
  refine ⟨fun hv => ?first, fun hv hp => ?same, fun hv hp hneg => ?park, fun hv hp hpos hn => ?drop⟩
  case first =>
    rw [hstep, eventEffect_first_sample (by exact hv), endStep_of_between (by exact hs.between)]
    rfl
  case same =>
    have hpol : polarity v = s.eePol := by
      cases he : s.eePol with
      | high => exact polarity_high.2 (hp.1 he)
      | low => exact polarity_low.2 (Int.not_le.1 fun h => by rw [he] at hp; cases hp.2 h)
    rw [hstep, eventEffect_same_polarity (by exact hv) (by exact hpol), endStep_of_between (by exact hs.between)]
  case park =>
    have hlow : polarity v = .low := polarity_low.2 hneg
    rw [hstep, eventEffect_polarity_change (by exact hv) (by rw [hlow]; exact fun h => nomatch h.trans hp)]
    simp only [hp, runEffect_high]
    rw [endStep_of_between (by exact hs.between), startRun, hlow, hv]
    rfl
  case drop =>
    have hhigh : polarity v = .high := polarity_high.2 hpos
    rw [hstep, eventEffect_polarity_change (by exact hv) (by rw [hhigh]; exact fun h => nomatch h.trans hp)]
    simp only [hp]
    rw [runEffect_low_of_no_pending (by exact hn), endStep_of_between (by exact hs.between), startRun, hhigh, hv]
    rfl

theorem frameEffect_of_none {b : BitVal} {s t : State} (h : fdBit b s = (t, none)) : frameEffect b s = t := by
  rw [frameEffect, h, Option.elim_none, List.append_nil]

theorem frameEffect_of_packet {b : BitVal} {s t : State} {p : List Byte} (h : fdBit b s = (t, some p)) :
    frameEffect b s = { t with outEvents := t.outEvents ++ packetEvents p } := by
  rw [frameEffect, h, Option.elim_some]

/-- A high sample after a low run with a parked high: the run, the pair, the classifier's events, and the Frame Decoder. -/
theorem step_eq_frameEffect {s : State} {v : Int} {q : List InEvent} {h : Nat} {b : BitVal} {classified : List OutEvent}
    (hs : s.Inv) (hd : s.done = false) (hq : s.inEvents = .sample v :: q) (hpos : 0 ≤ v) (hv : s.eeValid = true)
    (hp : s.eePol = .low) (hpend : s.dpPend = some h) (hb : s.classify h s.eeDur = b)
    (hc : classifierEvents s h s.eeDur = classified) :
    step s = .next (endStep (frameEffect b { s with
      eePol := .high, eeDur := 1, dpPend := none, inEvents := q
      outEvents := s.outEvents ++ [.tap (.run .low s.eeDur), .tap (.pair h s.eeDur)] ++ classified })) := by
  have hhigh : polarity v = .high := polarity_high.2 hpos
  rw [step_eq_effect hs hd hq, closeStep,
    eventEffect_polarity_change (by exact hv) (by rw [hhigh]; exact fun h => nomatch h.trans hp)]
  simp only [hp]
  rw [runEffect_low_of_pending (by exact hpend), pairEffect, startRun, hhigh, ← hb, ← hc, ← hv]
  simp only [emit, List.append_assoc]
  rfl

/-- The classifier's bit and events, as the three cases of the rules give them (R132 to R136). -/
theorem classify_and_events {s : State} {h l : Nat} {b : BitVal} {classified : List OutEvent}
    (hcase :
      ((s.oneLo ≤ h ∧ h ≤ s.oneHi) ∧ b = .one ∧ classified =
          (if s.misTol < h - l ∨ s.misTol < l - h then [.diag (.mismatchedPair h l)] else []) ++
            [.stat (.oneWidth { num := h * s.tbNum, den := s.tbDen }), .tap (.bit .one)] ∨
        ¬ (s.oneLo ≤ h ∧ h ≤ s.oneHi) ∧ (s.isLong h = true ∧ s.isLong l = true) ∧ b = .zero ∧ classified =
          [.stat (.zeroWidth { num := h * s.tbNum, den := s.tbDen }), .tap (.bit .zero)] ∨
        ¬ (s.oneLo ≤ h ∧ h ≤ s.oneHi) ∧ ¬ (s.isLong h = true ∧ s.isLong l = true) ∧ b = .unknown ∧ classified =
          [.diag (.unknownBit h l), .tap (.bit .unknown)])) :
    s.classify h l = b ∧ classifierEvents s h l = classified := by
  rcases hcase with ⟨hw, rfl, rfl⟩ | ⟨hw, hl, rfl, rfl⟩ | ⟨hw, hl, rfl, rfl⟩
  · exact ⟨classify_one.2 hw, classifierEvents_one hw⟩
  · exact ⟨classify_zero.2 ⟨hw, hl⟩, classifierEvents_zero hw hl⟩
  · exact ⟨classify_unknown.2 ⟨hw, hl⟩, classifierEvents_unknown hw hl⟩

/-- Settles O51: the step is the Frame Decoder's transition on the classified bit, entry by entry. -/
theorem stepThatCompletesAPair : Obligations.StepThatCompletesAPair := by
  intro s v q h hs hd hq hpos hv hp hpend b classified hcase u hu
  obtain ⟨hb, hc⟩ := classify_and_events hcase
  have hstep := step_eq_frameEffect hs hd hq hpos hv hp hpend hb hc
  rw [← hu] at hstep
  have hstate : u.fdState = s.fdState := by rw [hu]
  have hbetween : u.Between := by rw [hu]; exact hs.between
  have hsilent {t : State} (ht : fdBit b u = (t, none)) (htb : t.Between) : step s = .next t := by
    rw [hstep, frameEffect_of_none ht, endStep_of_between htb]
  have hcnt : u.fdCnt = s.fdCnt := by rw [hu]
  have hglog : u.fdGlog = s.fdGlog := by rw [hu]
  have hbyte : u.fdByte = s.fdByte := by rw [hu]
  have hnbits : u.fdNbits = s.fdNbits := by rw [hu]
  have hpkt : u.fdPkt = s.fdPkt := by rw [hu]
  rw [← hstate, ← hcnt, ← hglog, ← hbyte, ← hnbits, ← hpkt]
  refine ⟨?count, ?garbage, ?start, ?corruptStart, ?data, ?more, ?packet, ?corrupt⟩
  case count =>
    rintro hseek rfl
    exact hsilent (fdBit_seek_one hseek) hbetween
  case garbage =>
    intro hseek hne hlt
    exact hsilent (fdBit_seek_garbage hseek hne hlt) hbetween
  case start =>
    rintro hseek rfl hle
    exact hsilent (fdBit_seek_start hseek hle) hbetween
  case corruptStart =>
    rintro hseek rfl hle
    obtain ⟨hp0, hb0, hn0⟩ := hs.frame.1 (hstate.symm.trans hseek)
    exact hsilent (fdBit_seek_corrupt_start hseek hle (hpkt.trans hp0) (hbyte.trans hb0) (hnbits.trans hn0)) hbetween
  case data =>
    rintro hread hlt d (⟨rfl, rfl⟩ | ⟨rfl, rfl⟩)
    · exact hsilent ((fdBit_read_data (v := true) hread hlt).trans (by rw [fdReadData_eq_ofNat]; rfl)) hbetween
    · exact hsilent ((fdBit_read_data (v := false) hread hlt).trans (by rw [fdReadData_eq_ofNat]; rfl)) hbetween
  case more =>
    rintro hread hfull rfl
    exact hsilent (fdBit_read_one_of_full hread hfull) hbetween
  case packet =>
    rintro hread hfull rfl
    rw [hstep, frameEffect_of_packet (fdBit_read_zero_of_full hread hfull), endStep_of_between (by exact hbetween)]
  case corrupt =>
    rintro hread rfl
    exact hsilent (fdBit_read_unknown hread) hbetween

/-! ## The End step -/

/-- The Frame Decoder and what follows it are the same whatever run is in progress (R272). -/
theorem frameEffect_withRun (b : BitVal) (pol : Polarity) (dur : Nat) (s : State) :
    frameEffect b { s with eePol := pol, eeDur := dur } = { frameEffect b s with eePol := pol, eeDur := dur } := by
  rw [frameEffect, fdBit_withRun]
  rfl

/-- So are the stages from the Duration Pairer on. -/
theorem runEffect_withRun (r : Run) (pol : Polarity) (dur : Nat) (s : State) :
    runEffect r { s with eePol := pol, eeDur := dur } = { runEffect r s with eePol := pol, eeDur := dur } := by
  obtain ⟨p, d⟩ := r
  cases p with
  | high => rw [runEffect_high, runEffect_high]; rfl
  | low =>
    rcases Option.eq_none_or_eq_some s.dpPend with hp | ⟨h, hp⟩
    · rw [runEffect_low_of_no_pending hp, runEffect_low_of_no_pending (by exact hp)]
    · rw [runEffect_low_of_pending hp, runEffect_low_of_pending (by exact hp)]
      exact frameEffect_withRun _ pol dur { emit (.tap (.pair h d)) s with
        dpPend := none
        outEvents := (emit (.tap (.pair h d)) s).outEvents ++ classifierEvents s h d }

/-- The flush at End is what a sample of the other polarity makes the stages do, but for the run that the sample begins. -/
theorem eventEffect_end_eq_sample {v : Int} {s : State} (hv : s.eeValid = true) (hp : polarity v ≠ s.eePol) :
    eventEffect .endOfInput s = { eventEffect (.sample v) s with eePol := s.eePol, eeDur := s.eeDur } := by
  rw [eventEffect_end hv, eventEffect_polarity_change hv hp, startRun_of_eeValid (by exact hv),
    runEffect_withRun _ (polarity v) 1 (emit (.tap (.run s.eePol s.eeDur)) s)]
  exact runEffect_withRun _ s.eePol s.eeDur (emit (.tap (.run s.eePol s.eeDur)) s)

/-! ## The anomalies of a step -/

/-- The anomalies of a step on a sample (R241): none, or one of the seven sets of the rule. -/
def ListedAnomalies (as : List Anomaly) : Prop :=
  as = [] ∨ as = [.garbage] ∨ (∃ h l, as = [.unknownBit h l]) ∨ (∃ h l, as = [.unknownBit h l, .garbage]) ∨
    (∃ h l, as = [.unknownBit h l, .corruptPacket]) ∨ (∃ h l, as = [.mismatchedPair h l]) ∨
    (∃ c r, as = [.checksumMismatch c r]) ∨ (∃ p, as = [.unknownLayout p])

/-- Garbage and CorruptPacket leave the Frame Decoder outside a preamble and a packet. -/
def OutsideAfterLoss (as : List Anomaly) (s : State) : Prop :=
  .garbage ∈ as ∨ .corruptPacket ∈ as → s.fdState = .seek ∧ s.fdCnt = 0

/-- From `s` to `t` the events appended have listed anomalies, and `t` is outside after a loss. -/
def AppendsListed (s t : State) : Prop :=
  ∃ es, t.outEvents = s.outEvents ++ es ∧ ListedAnomalies (anomaliesOf es) ∧ OutsideAfterLoss (anomaliesOf es) t

theorem AppendsListed.of_none {s t : State} {es : List OutEvent} (ho : t.outEvents = s.outEvents ++ es)
    (hes : anomaliesOf es = []) : AppendsListed s t :=
  ⟨es, ho, .inl hes, by simp [OutsideAfterLoss, hes]⟩

/-- Events without an anomaly may come before. -/
theorem AppendsListed.trans_none {s t u : State} {es : List OutEvent} (ho : t.outEvents = s.outEvents ++ es)
    (hes : anomaliesOf es = []) (h : AppendsListed t u) : AppendsListed s u := by
  obtain ⟨es', ho', hl, hout⟩ := h
  refine ⟨es ++ es', by rw [ho', ho, List.append_assoc], ?_⟩
  rw [anomaliesOf_append, hes, List.nil_append]
  exact ⟨hl, hout⟩

/-- Results none of which is an UnknownPacket are no anomalies. -/
theorem anomaliesOf_results_eq_nil {rs : List Result} (h : ∀ p, .unknownPacket p ∉ rs) :
    anomaliesOf (rs.map .result) = [] := by
  rw [anomaliesOf, List.filterMap_map, List.filterMap_eq_nil_iff]
  intro r hr
  cases r with
  | unknownPacket p => exact absurd hr (h p)
  | _ => rfl

/-- A packet gives at most one anomaly: its checksum's, or an UnknownLayout. -/
theorem anomaliesOf_packetEvents (p : List Byte) :
    anomaliesOf (packetEvents p) = [] ∨ (∃ c r, anomaliesOf (packetEvents p) = [.checksumMismatch c r]) ∨
      ∃ payload, anomaliesOf (packetEvents p) = [.unknownLayout payload] := by
  rw [packetEvents]
  split
  · obtain ⟨known, hk, hrs | hrs⟩ := payloadResults_unknownPacketLast p.dropLast <;> rw [hrs]
    · exact .inl (anomaliesOf_results_eq_nil hk)
    · refine .inr (.inr ⟨p.dropLast, ?_⟩)
      rw [List.map_append, anomaliesOf_append, anomaliesOf_results_eq_nil hk]
      rfl
  · exact .inr (.inl ⟨_, _, rfl⟩)

/-- The Frame Decoder's anomalies, by the bit: a One gives none; another bit may be garbage, an Unknown a corrupt packet;
after either the decoder is outside; a Zero may end a packet, which gives its own. -/
theorem frameEffect_anomalies (b : BitVal) (s : State) :
    ∃ es, (frameEffect b s).outEvents = s.outEvents ++ es ∧
      (anomaliesOf es = [] ∨
       (b ≠ .one ∧ anomaliesOf es = [.garbage] ∧ (frameEffect b s).fdState = .seek ∧ (frameEffect b s).fdCnt = 0) ∨
       (b = .unknown ∧ anomaliesOf es = [.corruptPacket] ∧ (frameEffect b s).fdState = .seek ∧
         (frameEffect b s).fdCnt = 0) ∨
       (b = .zero ∧ ((∃ c r, anomaliesOf es = [.checksumMismatch c r]) ∨ ∃ p, anomaliesOf es = [.unknownLayout p]))) := by
  rcases fdBit_cases b s with ⟨-, -, e⟩ | ⟨-, -, -, -, e⟩ | ⟨hs, hb, -, -, e⟩ | ⟨-, -, -, e⟩ | ⟨hb, -, e⟩ |
    ⟨v, -, -, -, e⟩ | ⟨-, -, -, e⟩ | ⟨-, hb, -, e⟩
  · exact ⟨[], by simp [frameEffect_of_none e], .inl rfl⟩
  · exact ⟨[], by simp [frameEffect_of_none e], .inl rfl⟩
  · rw [frameEffect_of_none e]
    exact ⟨_, rfl, .inr (.inl ⟨hb, rfl, hs, rfl⟩)⟩
  · rw [frameEffect_of_none e]
    exact ⟨_, rfl, .inl rfl⟩
  · rw [frameEffect_of_none e]
    exact ⟨_, rfl, .inr (.inr (.inl ⟨hb, rfl, rfl, rfl⟩))⟩
  · exact ⟨[], by simp [frameEffect_of_none e, fdReadData], .inl rfl⟩
  · exact ⟨[], by simp [frameEffect_of_none e], .inl rfl⟩
  · rw [frameEffect_of_packet e]
    refine ⟨_, List.append_assoc .., ?_⟩
    rcases anomaliesOf_packetEvents (s.fdPkt.bytes ++ [s.fdByte]) with h | h | h
    · exact .inl h
    · exact .inr (.inr (.inr ⟨hb, .inl h⟩))
    · exact .inr (.inr (.inr ⟨hb, .inr h⟩))

/-- A pair's anomalies: the classifier's for its bit, then the Frame Decoder's for this bit. -/
theorem pairEffect_appendsListed (p : Pair) (s : State) : AppendsListed s (pairEffect p s) := by
  obtain ⟨es, ho, hes⟩ := frameEffect_anomalies (s.classify p.high p.low)
    { s with outEvents := s.outEvents ++ classifierEvents s p.high p.low }
  refine ⟨classifierEvents s p.high p.low ++ es, by rw [pairEffect, ho, List.append_assoc], ?_⟩
  rw [anomaliesOf_append, anomaliesOf_classifierEvents, pairEffect]
  cases hb : s.classify p.high p.low with
  | one =>
    rw [hb] at hes
    have hnone : anomaliesOf es = [] := by simpa using hes
    rw [hnone]
    cases s.mismatched p.high p.low with
    | true => exact ⟨.inr (.inr (.inr (.inr (.inr (.inl ⟨_, _, rfl⟩))))), by simp [OutsideAfterLoss]⟩
    | false => exact ⟨.inl rfl, by simp [OutsideAfterLoss]⟩
  | zero =>
    rw [hb] at hes
    rcases hes with h | ⟨-, h, hout⟩ | ⟨h, -⟩ | ⟨-, ⟨c, r, h⟩ | ⟨payload, h⟩⟩
    · rw [h]; exact ⟨.inl rfl, by simp [OutsideAfterLoss]⟩
    · rw [h]; exact ⟨.inr (.inl rfl), fun _ => hout⟩
    · cases h
    · rw [h]; exact ⟨.inr (.inr (.inr (.inr (.inr (.inr (.inl ⟨c, r, rfl⟩)))))), by simp [OutsideAfterLoss]⟩
    · rw [h]; exact ⟨.inr (.inr (.inr (.inr (.inr (.inr (.inr ⟨payload, rfl⟩)))))), by simp [OutsideAfterLoss]⟩
  | unknown =>
    rw [hb] at hes
    rcases hes with h | ⟨-, h, hout⟩ | ⟨-, h, hout⟩ | ⟨h, -⟩
    · rw [h]; exact ⟨.inr (.inr (.inl ⟨_, _, rfl⟩)), by simp [OutsideAfterLoss]⟩
    · rw [h]; exact ⟨.inr (.inr (.inr (.inl ⟨_, _, rfl⟩))), fun _ => hout⟩
    · rw [h]; exact ⟨.inr (.inr (.inr (.inr (.inl ⟨_, _, rfl⟩)))), fun _ => hout⟩
    · cases h

theorem runEffect_appendsListed (r : Run) (s : State) : AppendsListed s (runEffect r s) := by
  obtain ⟨p, d⟩ := r
  cases p with
  | high => rw [runEffect_high]; exact .of_none (es := []) (by simp) rfl
  | low =>
    rcases Option.eq_none_or_eq_some s.dpPend with hp | ⟨h, hp⟩
    · rw [runEffect_low_of_no_pending hp]
      exact .of_none (es := []) (by simp) rfl
    · rw [runEffect_low_of_pending hp]
      exact .trans_none (es := [.tap (.pair h d)]) rfl rfl (pairEffect_appendsListed ⟨h, d⟩ _)

/-- The Edge Extractor gives no anomaly, so an event's are those of the run it hands on. -/
theorem eventEffect_appendsListed (ev : InEvent) (s : State) : AppendsListed s (eventEffect ev s) := by
  have hx := (extract_sameFrame ev s).outEvents
  rw [eventEffect]
  rcases he : extract ev s with ⟨t, _ | r⟩ <;> rw [he] at hx <;> obtain ⟨es, ho, hes, -⟩ := hx
  · exact .of_none ho hes
  · exact .trans_none ho hes (runEffect_appendsListed r t)

/-- Settles O52: the anomalies of the stages are listed, and the end of the step adds PartialAtEnd where it is due. -/
theorem anomaliesOfOneStep : Obligations.AnomaliesOfOneStep := by
  intro s t ev q hs hd hq h
  cases (step_eq_effect hs hd hq).symm.trans h
  obtain ⟨es, ho, hl, hout⟩ := eventEffect_appendsListed ev { s with inEvents := q }
  have hnew : newEvents s (closeStep ev (eventEffect ev { s with inEvents := q })) =
      es ++ closingEvents ev (eventEffect ev { s with inEvents := q }) :=
    newEvents_eq (by rw [closeStep_outEvents, ho, List.append_assoc])
  rw [hnew, anomaliesOf_append, closeStep_fdState, closeStep_fdCnt]
  refine ⟨anomaliesOf es, hl, ?sample, ?atEnd⟩
  case sample =>
    rintro v rfl
    exact List.append_nil _
  case atEnd =>
    rintro rfl
    refine ⟨?_, hout⟩
    rw [closingEvents]
    split <;> rfl

/-! ## The End step -/

theorem partialAtEnd_notMem_of_listed {es : List OutEvent} (h : ListedAnomalies (anomaliesOf es)) :
    .diag .partialAtEnd ∉ es := by
  intro hmem
  have hmem' : .partialAtEnd ∈ anomaliesOf es := List.mem_filterMap.2 ⟨_, hmem, rfl⟩
  rcases h with h | h | ⟨_, _, h⟩ | ⟨_, _, h⟩ | ⟨_, _, h⟩ | ⟨_, _, h⟩ | ⟨_, _, h⟩ | ⟨_, h⟩ <;> rw [h] at hmem' <;>
    simp at hmem'

theorem closingEvents_end_of_inside {s : State} (h : s.fdState = .read ∨ 0 < s.fdCnt) :
    closingEvents .endOfInput s = [.diag .partialAtEnd] := if_pos h

theorem closingEvents_end_of_outside {s : State} (h : ¬ (s.fdState = .read ∨ 0 < s.fdCnt)) :
    closingEvents .endOfInput s = [] := if_neg h

/-- A high run in progress at End is flushed, parked and left unpaired (R122). -/
theorem eventEffect_end_high {s : State} (hv : s.eeValid = true) (hp : s.eePol = .high) :
    eventEffect .endOfInput s = dpHigh s.eeDur (emit (.tap (.run .high s.eeDur)) s) := by
  rw [eventEffect_end hv, hp, runEffect_high]

theorem pair_notMem_closingEvents (ev : InEvent) (s : State) (h l : Nat) : .tap (.pair h l) ∉ closingEvents ev s := by
  cases ev with
  | sample v => exact List.not_mem_nil
  | endOfInput => rw [closingEvents]; split <;> simp

/-- Settles O54: the flush is what a sample of the other polarity makes the stages do, and the end of the step adds
PartialAtEnd where it is due. -/
theorem endStepFinishesThePass : Obligations.EndStepFinishesThePass := by
  refine ⟨fun s t q hs hd hq h => ?facts, fun s q hs hd hq hv => ?noRun, fun s q v hs hd hq hv hp => ?flush⟩
  case facts =>
    cases (step_eq_effect hs hd hq).symm.trans h
    obtain ⟨es, ho, hl, -⟩ := eventEffect_appendsListed .endOfInput { s with inEvents := q }
    rw [closeStep_fdState, closeStep_fdCnt, closeStep_outEvents]
    refine ⟨closeStep_done .., ?queue, fun hin => ?last, fun hout => ?absent, fun hv hp => ⟨?parked, fun k l => ?unpaired⟩⟩
    case queue =>
      obtain ⟨u, hu, hsame⟩ := feedEvent_effect .endOfInput { s with inEvents := q }
      rw [closeStep_inEvents, ← hsame.inEvents, feedEvent_inEvents hu]
    case last => rw [closingEvents_end_of_inside hin, List.getLast?_concat]
    case absent =>
      rw [newEvents_eq (s := s) (es := es) (by
        rw [closeStep_outEvents, closingEvents_end_of_outside hout, List.append_nil, ho])]
      exact partialAtEnd_notMem_of_listed hl
    case parked =>
      rw [closeStep_dpPend, eventEffect_end_high (by exact hv) (by exact hp)]
      rfl
    case unpaired =>
      rw [eventEffect_end_high (by exact hv) (by exact hp), newEvents_eq (s := s) (by
        rw [closeStep_outEvents, dpHigh_outEvents, emit_outEvents, List.append_assoc])]
      exact fun hmem => (List.mem_append.1 hmem).elim (by simp) (pair_notMem_closingEvents _ _ k l)
  case noRun =>
    rw [step_eq_effect hs hd hq, eventEffect_end_of_no_run (by exact hv), closeStep_eq,
      endStep_of_between (by exact hs.between)]
    rfl
  case flush =>
    have hpol : polarity v ≠ s.eePol := by
      intro hsame
      cases he : s.eePol with
      | high => exact absurd (polarity_high.1 (hsame.trans he)) (Int.not_le.2 (hp.1 he))
      | low => rw [he] at hp; cases hp.2 (polarity_low.1 (hsame.trans he))
    have hs' : ({ s with inEvents := .sample v :: q } : State).Inv := ⟨hs.1, hs.2, hs.3, hs.4, hs.5, hs.6⟩
    refine ⟨_, step_eq_effect hs' hd rfl, ?_⟩
    rw [step_eq_effect hs hd hq, eventEffect_end_eq_sample (v := v) (by exact hv) (by exact hpol), closeStep_eq]
    rfl

end Sys2Proof.Machine
end
